-- ==== Sys2Proof/Word.lean ====
section
/-!
DEFINITION. The word types of PKTCODEC (spec/00_scope.md R6): a byte is 8 bits, bit 0 the least significant; the
block's registers RXLEN, TXLEN, OUTN, CUR and FCNT are 16 bits wide (spec/10_state.md R10).
-/

namespace Sys2Proof

/-- A byte of a buffer (spec/00_scope.md R6). -/
abbrev Byte := BitVec 8

/-- A 16-bit register or field (spec/10_state.md R10, R16). -/
abbrev Half := BitVec 16

end Sys2Proof
end

