-- ==== Sys2Proof/Syntax.lean ====
section
/-!
DEFINITION. The syntax of PKTCODEC: the values a field record holds (spec/00_scope.md R8), the header fields of a
packet (spec/30_encoding.md R50, spec/10_state.md R16), the error causes (spec/60_exceptions.md R161, R162), and `Instr`,
one constructor per row of spec/opcode_table.json (spec/30_encoding.md R67): the header, the 14 packet formats of the
default registry and the four host commands.
-/

namespace Sys2Proof

mutual

/-- A value of a field record (spec/00_scope.md R8): a mathematical integer, a byte sequence, a record of named values
or a list of values. -/
inductive Value where
  | int (v : Int)
  | bytes (b : List Byte)
  | record (fs : Fields)
  | list (vs : Values)
  deriving DecidableEq, Repr

/-- The members of a record, each a name and its value (spec/00_scope.md R8). -/
inductive Fields where
  | nil
  | cons (name : String) (v : Value) (rest : Fields)
  deriving DecidableEq, Repr

/-- The elements of a list value, in order (spec/00_scope.md R8). -/
inductive Values where
  | nil
  | cons (v : Value) (rest : Values)
  deriving DecidableEq, Repr

end

/-- The 6-byte target address of a header in sequence order: `b0` stands at the lowest buffer address
(spec/20_memory.md R34, spec/41_field_codecs.md R93). -/
structure Mac where
  b0 : Byte
  b1 : Byte
  b2 : Byte
  b3 : Byte
  b4 : Byte
  b5 : Byte
  deriving DecidableEq, Repr

/-- The header fields of a packet that a packet record holds, each in its width (spec/10_state.md R16). Reserved header
bytes and bits have no place in it (spec/30_encoding.md R61). -/
structure Header where
  size : Half
  protocol : BitVec 12
  addressable : BitVec 1
  tagged : BitVec 1
  origin : BitVec 2
  source : BitVec 32
  target : Mac
  ackRequired : BitVec 1
  resRequired : BitVec 1
  sequence : BitVec 8
  msgType : Half
  deriving DecidableEq, Repr

/-- A packet record: header fields, type name and payload value (spec/10_state.md R16). -/
structure PacketRecord where
  hdr : Header
  name : String
  payload : Value
  deriving DecidableEq, Repr

/-- The causes of FormatError (spec/60_exceptions.md R161). -/
inductive FormatCause where
  | short
  | sizeSmall
  | trunc
  | trailing
  | unknownType
  | length
  deriving DecidableEq, Repr

/-- The causes of ValidationError (spec/60_exceptions.md R162). -/
inductive ValidationCause where
  | unknownName
  | shape
  | range
  | stringLen
  | stringNul
  | arrayLen
  deriving DecidableEq, Repr

/-- Why a frame is refused: the cause and `EINFO` (spec/43_commands.md R143). The offset is always the frame's address. -/
structure FormatReject where
  cause : FormatCause
  info : Half
  deriving DecidableEq, Repr

/-- Why an encode request is refused: the cause and the packet offset reported (spec/60_exceptions.md R162). -/
structure ValidationReject where
  cause : ValidationCause
  off : Nat
  deriving DecidableEq, Repr

/-- The instructions: one constructor per row of spec/opcode_table.json.

* `hdr`: the header of a frame, its fields as operands (row HDR, spec/30_encoding.md R50).
* The 14 packet formats (rows PKT, spec/42_message_types.md R110 to R123): a received packet, its header fields and its
  payload record as operands.
* The host commands (rows CMD, spec/43_commands.md R130, R131, R140, R142): no operand in the word; ENCODE takes its
  operands from `ER`, DECODE and PARSE from `RXBUF`. -/
inductive Instr where
  | hdr (h : Header)
  | getService (h : Header) (p : Value)
  | stateService (h : Header) (p : Value)
  | setPower (h : Header) (p : Value)
  | statePower (h : Header) (p : Value)
  | setLabel (h : Header) (p : Value)
  | stateLabel (h : Header) (p : Value)
  | acknowledgement (h : Header) (p : Value)
  | setColor (h : Header) (p : Value)
  | getColorZones (h : Header) (p : Value)
  | stateZone (h : Header) (p : Value)
  | stateMultiZone (h : Header) (p : Value)
  | stateDeviceChain (h : Header) (p : Value)
  | stateTileState64 (h : Header) (p : Value)
  | setTileState64 (h : Header) (p : Value)
  | nop
  | encode
  | decode
  | parse
  deriving DecidableEq, Repr

end Sys2Proof
end

