-- ==== Sys2Proof/Config.lean ====
section
/-!
DEFINITION. What an instance of PKTCODEC fixes: the descriptor language and the registry's entries
(spec/30_encoding.md R54, R57), the implementation parameters (spec/00_scope.md R4) as one record `Config` that the
state carries and no step changes, and the one free value (the contents of a byte of RXBUF that nothing has written).
-/

namespace Sys2Proof

/-- The integer codecs: `U8 U16 U32 U64 I16 F32` (spec/30_encoding.md R57) and the kelvin codec, which the HSBK rule
exposes as a codec of its own (spec/41_field_codecs.md R94). -/
inductive Scalar where
  | u8
  | u16
  | u32
  | u64
  | i16
  | f32
  | kelvin
  deriving DecidableEq, Repr

/-- A member of a flat sub-structure (HSBK, TILE): an integer or reserved bytes (spec/41_field_codecs.md R94, R95). -/
inductive Leaf where
  | int (k : Scalar)
  | rsv (n : Nat)
  deriving DecidableEq, Repr

mutual

/-- The descriptor grammar (spec/30_encoding.md R57). -/
inductive Desc where
  | int (k : Scalar)
  | rsv (n : Nat)
  | str32
  | hsbk
  | tile
  | struct (ms : Members)
  | arr (d : Desc) (n : Nat)
  | varr (d : Desc) (min max : Nat)
  deriving DecidableEq, Repr

/-- The members of a `STRUCT` in wire order. A reserved member's name is never looked at by a codec. -/
inductive Members where
  | nil
  | cons (name : String) (d : Desc) (rest : Members)
  deriving DecidableEq, Repr

end

/-- A registry entry: type name, type id, payload descriptor (spec/30_encoding.md R54). -/
structure Entry where
  name : String
  id : Half
  desc : Desc
  deriving DecidableEq, Repr

/-- The parameters of the model (spec/00_scope.md R4). `MZ_MIN` and `MZ_MAX` are the bounds in the `VARR` descriptor of
the registry's `stateMultiZone` entry. The fixed lengths (36, 32, 8, 55, 64, 16) are constants of the codecs. The state carries
them. Log entry 8 (PRESUMED, unsafe). -/
structure Config where
  protocol : BitVec 12
  addressable : BitVec 1
  origin : BitVec 2
  ackBit : Fin 8
  resBit : Fin 8
  kelvinMin : Nat
  kelvinMax : Nat
  rxMax : Nat
  txMax : Nat
  reg : List Entry
  deriving DecidableEq, Repr

/-- FREE VALUE. What a byte of RXBUF below RXLEN reads as when nothing has written it since the reset numbered `epoch`:
spec/10_state.md R23 leaves it unspecified and spec/93_implementation_defined.md U3 asks for `any value`. It has no
body: nothing can be proved of it. Log entry 4 (DESIGN CHOICE, safe). -/
opaque Config.freeRxByte (epoch address : Nat) : Byte

end Sys2Proof
end

