-- ==== Sys2Proof/Machine/Operands.lean ====
section
/-!
DEFINITION. The operand forms of PKTCODEC: little-endian integers, the field codecs `ENC` and `DEC`
(spec/41_field_codecs.md R85 to R98), the shape predicate (R99), sizes (spec/30_encoding.md R58) and the bytes of a header
(spec/30_encoding.md R50, spec/40_header.md R71, R72).
-/

namespace Sys2Proof

/-! ## Plain access to records and lists -/

/-- The value of the member named `n`, if the record has one. -/
def Fields.lookup : Fields → String → Option Value
  | .nil, _ => none
  | .cons m v rest, n => if m = n then some v else rest.lookup n

/-- How many members a record lists. -/
def Fields.length : Fields → Nat
  | .nil => 0
  | .cons _ _ rest => rest.length + 1

/-- A record written from a list of names and values. -/
def Fields.ofList : List (String × Value) → Fields
  | [] => .nil
  | (n, v) :: rest => .cons n v (Fields.ofList rest)

/-- How many elements a list value has. -/
def Values.length : Values → Nat
  | .nil => 0
  | .cons _ rest => rest.length + 1

/-- Every element satisfies `f`. -/
def Values.all (f : Value → Bool) : Values → Bool
  | .nil => true
  | .cons v rest => f v && rest.all f

/-- `f` of every element, in order. -/
def Values.map (f : Value → Value) : Values → Values
  | .nil => .nil
  | .cons v rest => .cons (f v) (rest.map f)

/-- A list value written from a list. -/
def Values.ofList : List Value → Values
  | [] => .nil
  | v :: rest => .cons v (Values.ofList rest)

/-- Members written from a list of names and descriptors. -/
def Members.ofList : List (String × Desc) → Members
  | [] => .nil
  | (n, d) :: rest => .cons n d (Members.ofList rest)

/-! ## Integers and their bytes -/

/-- `zeros(n)` (spec/00_scope.md R6). -/
def zeros (n : Nat) : List Byte := List.replicate n 0

/-- `le_N(v)` with `N = 8 n`: the `n` little-endian bytes of `v` (spec/00_scope.md R7, spec/20_memory.md R32). -/
def leBytes : Nat → Nat → List Byte
  | 0, _ => []
  | n + 1, v => BitVec.ofNat 8 v :: leBytes n (v / 256)

/-- `unle(s)`: the unsigned integer whose little-endian bytes are `s` (spec/00_scope.md R7). -/
def unle : List Byte → Nat
  | [] => 0
  | b :: rest => b.toNat + 256 * unle rest

/-- `twos_N(v)`: the `N`-bit pattern of a signed value (spec/00_scope.md R7). -/
def twos (bits : Nat) (v : Int) : Nat := (v % (2 ^ bits : Nat)).toNat

/-- `sext_N(v)`: the signed value of an `N`-bit pattern (spec/00_scope.md R7). -/
def sext (bits v : Nat) : Int :=
  if v < 2 ^ (bits - 1) then (v : Int) else (v : Int) - (2 ^ bits : Nat)

/-- The wire bytes of an integer codec (spec/30_encoding.md R57). -/
def Scalar.size : Scalar → Nat
  | .u8 => 1
  | .u16 => 2
  | .u32 => 4
  | .u64 => 8
  | .i16 => 2
  | .f32 => 4
  | .kelvin => 2

/-- ENC of an unsigned `8 n`-bit integer: rejected out of range, never wrapped (spec/41_field_codecs.md R100). -/
def encUnsigned (n : Nat) (v : Int) (off : Nat) : Except ValidationReject (List Byte) :=
  if v < 0 ∨ (2 ^ (8 * n) : Nat) ≤ v then .error ⟨.range, off⟩ else .ok (leBytes n v.toNat)

/-- ENC of `U8` (spec/41_field_codecs.md R85). -/
def encU8 (v : Int) (off : Nat) : Except ValidationReject (List Byte) := encUnsigned 1 v off

/-- ENC of `U16` (spec/41_field_codecs.md R86). -/
def encU16 (v : Int) (off : Nat) : Except ValidationReject (List Byte) := encUnsigned 2 v off

/-- ENC of `U32` (spec/41_field_codecs.md R87). -/
def encU32 (v : Int) (off : Nat) : Except ValidationReject (List Byte) := encUnsigned 4 v off

/-- ENC of `U64` (spec/41_field_codecs.md R88). -/
def encU64 (v : Int) (off : Nat) : Except ValidationReject (List Byte) := encUnsigned 8 v off

/-- ENC of `I16` (spec/41_field_codecs.md R89). -/
def encI16 (v : Int) (off : Nat) : Except ValidationReject (List Byte) :=
  if v < -32768 ∨ 32767 < v then .error ⟨.range, off⟩ else .ok (leBytes 2 (twos 16 v))

/-- ENC of `F32`: the 32-bit pattern, never interpreted (spec/41_field_codecs.md R90). -/
def encF32 (v : Int) (off : Nat) : Except ValidationReject (List Byte) := encUnsigned 4 v off

/-- ENC_KELVIN: a 16-bit integer in `KELVIN_MIN..KELVIN_MAX` (spec/41_field_codecs.md R94, spec/90_conflicts.md C3). -/
def encKelvin (cfg : Config) (v : Int) (off : Nat) : Except ValidationReject (List Byte) :=
  if v < cfg.kelvinMin ∨ (cfg.kelvinMax : Int) < v then .error ⟨.range, off⟩ else .ok (leBytes 2 v.toNat)

/-- ENC of an integer codec (spec/41_field_codecs.md R85 to R90, R94). -/
def encScalar (cfg : Config) (k : Scalar) (v : Int) (off : Nat) : Except ValidationReject (List Byte) :=
  match k with
  | .u8 => encU8 v off
  | .u16 => encU16 v off
  | .u32 => encU32 v off
  | .u64 => encU64 v off
  | .i16 => encI16 v off
  | .f32 => encF32 v off
  | .kelvin => encKelvin cfg v off

/-- DEC of an integer codec from the bytes that begin at the field (spec/41_field_codecs.md R85 to R90, R94,
spec/30_encoding.md R59). The kelvin range is not applied on decode. -/
def decScalar (k : Scalar) (s : List Byte) : Int :=
  match k with
  | .u8 => (unle (s.take 1) : Nat)
  | .u16 => (unle (s.take 2) : Nat)
  | .u32 => (unle (s.take 4) : Nat)
  | .u64 => (unle (s.take 8) : Nat)
  | .i16 => sext 16 (unle (s.take 2))
  | .f32 => (unle (s.take 4) : Nat)
  | .kelvin => (unle (s.take 2) : Nat)

/-! ## Labels -/

/-- ENC of `STR32`: the length first, then a zero byte inside (spec/41_field_codecs.md R92). -/
def encLabel (b : List Byte) (off : Nat) : Except ValidationReject (List Byte) :=
  if 32 < b.length then .error ⟨.stringLen, off⟩
  else if b.contains 0 then .error ⟨.stringNul, off⟩
  else .ok (b ++ zeros (32 - b.length))

/-- DEC of `STR32`: the bytes before the first zero byte, or all 32 (spec/41_field_codecs.md R92). -/
def decLabel (s : List Byte) : List Byte := (s.take 32).takeWhile (fun b => b != 0)

/-! ## Flat sub-structures: HSBK and TILE -/

/-- The members of `HSBK` (spec/41_field_codecs.md R94). -/
def hsbkLeaves : List (String × Leaf) :=
  [("hue", .int .u16), ("saturation", .int .u16), ("brightness", .int .u16), ("kelvin", .int .kelvin)]

/-- The members of `TILE` (spec/41_field_codecs.md R95). -/
def tileLeaves : List (String × Leaf) :=
  [("accelMeasX", .int .i16), ("accelMeasY", .int .i16), ("accelMeasZ", .int .i16), ("_rsv6", .rsv 2),
   ("userX", .int .f32), ("userY", .int .f32), ("width", .int .u8), ("height", .int .u8), ("_rsv18", .rsv 1),
   ("deviceVersionVendor", .int .u32), ("deviceVersionProduct", .int .u32), ("deviceVersionVersion", .int .u32),
   ("firmwareBuild", .int .u64), ("_rsv39", .rsv 8), ("firmwareVersionMinor", .int .u16),
   ("firmwareVersionMajor", .int .u16), ("_rsv51", .rsv 4)]

/-- The wire bytes of a flat member. -/
def Leaf.size : Leaf → Nat
  | .int k => k.size
  | .rsv n => n

/-- The wire bytes of a flat sub-structure: the sum over its members (spec/30_encoding.md R57). -/
def leavesSize : List (String × Leaf) → Nat
  | [] => 0
  | (_, l) :: rest => l.size + leavesSize rest

/-- How many values a record of a flat sub-structure has: one per member that is not reserved. -/
def leavesCount : List (String × Leaf) → Nat
  | [] => 0
  | (_, .rsv _) :: rest => leavesCount rest
  | (_, .int _) :: rest => leavesCount rest + 1

/-- Every member that is not reserved is present and an integer (spec/41_field_codecs.md R99). -/
def leavesPresent : List (String × Leaf) → Fields → Bool
  | [], _ => true
  | (_, .rsv _) :: rest, fs => leavesPresent rest fs
  | (n, .int _) :: rest, fs =>
    (match fs.lookup n with
      | some (.int _) => true
      | _ => false) && leavesPresent rest fs

/-- ENC of a flat sub-structure, member by member in wire order; a reserved member writes zeros
(spec/41_field_codecs.md R91, R94, R95, R96). -/
def encLeaves (cfg : Config) : List (String × Leaf) → Fields → Nat → Except ValidationReject (List Byte)
  | [], _, _ => .ok []
  | (_, .rsv n) :: rest, fs, off =>
    match encLeaves cfg rest fs (off + n) with
    | .error r => .error r
    | .ok out => .ok (zeros n ++ out)
  | (m, .int k) :: rest, fs, off =>
    match fs.lookup m with
    | some (.int v) =>
      match encScalar cfg k v off with
      | .error r => .error r
      | .ok b =>
        match encLeaves cfg rest fs (off + b.length) with
        | .error r => .error r
        | .ok out => .ok (b ++ out)
    | _ => .error ⟨.shape, 0⟩

/-- DEC of a flat sub-structure; a reserved member is skipped (spec/41_field_codecs.md R91, R94, R95). -/
def decLeaves : List (String × Leaf) → List Byte → Fields
  | [], _ => .nil
  | (_, .rsv n) :: rest, s => decLeaves rest (s.drop n)
  | (m, .int k) :: rest, s => .cons m (.int (decScalar k s)) (decLeaves rest (s.drop k.size))

/-- The record with its members in wire order. -/
def canonLeaves : List (String × Leaf) → Fields → Fields
  | [], _ => .nil
  | (_, .rsv _) :: rest, fs => canonLeaves rest fs
  | (m, .int _) :: rest, fs =>
    match fs.lookup m with
    | some v => .cons m v (canonLeaves rest fs)
    | none => canonLeaves rest fs

/-! ## Lists -/

/-- ENC of the elements of a list, back to back; element `i` is reported at `off + i * size`
(spec/41_field_codecs.md R97, R98). -/
def encElems (f : Value → Nat → Except ValidationReject (List Byte)) (size : Nat) :
    Values → Nat → Except ValidationReject (List Byte)
  | .nil, _ => .ok []
  | .cons v rest, off =>
    match f v off with
    | .error r => .error r
    | .ok b =>
      match encElems f size rest (off + size) with
      | .error r => .error r
      | .ok out => .ok (b ++ out)

/-- DEC of `n` elements of the given size, back to back (spec/41_field_codecs.md R97, R98). -/
def decElems (f : List Byte → Value) (size : Nat) : Nat → List Byte → Values
  | 0, _ => .nil
  | n + 1, s => .cons (f s) (decElems f size n (s.drop size))

/-! ## Sizes -/

/-- The descriptor is a reserved field. -/
def Desc.isRsv : Desc → Bool
  | .rsv _ => true
  | _ => false

mutual

/-- `size(d)`, the wire bytes of a descriptor, where a `VARR` counts nothing, so that this is `fixed(P)` on a payload
descriptor (spec/30_encoding.md R57, R58). -/
def Desc.size : Desc → Nat
  | .int k => k.size
  | .rsv n => n
  | .str32 => 32
  | .hsbk => leavesSize hsbkLeaves
  | .tile => leavesSize tileLeaves
  | .struct ms => ms.size
  | .arr d n => n * d.size
  | .varr _ _ _ => 0

/-- The sum of the members' sizes. -/
def Members.size : Members → Nat
  | .nil => 0
  | .cons _ d rest => d.size + rest.size

end

/-- The last member, if it is a `VARR`: element descriptor and bounds (spec/30_encoding.md R58). -/
def Members.tail : Members → Option (Desc × Nat × Nat)
  | .nil => none
  | .cons _ (.varr d min max) .nil => some (d, min, max)
  | .cons _ _ rest => rest.tail

/-- The trailing `VARR` of a payload descriptor, if it has one. -/
def Desc.tail : Desc → Option (Desc × Nat × Nat)
  | .struct ms => ms.tail
  | _ => none

/-- `maxsize(P)` (spec/30_encoding.md R58). -/
def Desc.maxSize (p : Desc) : Nat :=
  match p.tail with
  | none => p.size
  | some (d, _, max) => p.size + max * d.size

/-- The packet length `size` is in `SIZES` of a type with payload descriptor `p` (spec/30_encoding.md R58,
spec/43_commands.md R143 check 6). -/
def sizesOk (p : Desc) (size : Nat) : Bool :=
  match p.tail with
  | none => size == 36 + p.size
  | some (d, min, max) =>
    36 + p.size ≤ size && (size - 36 - p.size) % d.size == 0 &&
      min ≤ (size - 36 - p.size) / d.size && (size - 36 - p.size) / d.size ≤ max

/-! ## Shape, ENC, DEC -/

/-- How many members of a `STRUCT` take a value. -/
def Members.count : Members → Nat
  | .nil => 0
  | .cons _ d rest => if d.isRsv then rest.count else rest.count + 1

mutual

/-- `shape(d, v)` (spec/41_field_codecs.md R99). A record has exactly the names of the members that are not reserved: each
of these is present and the record lists no more members than that. A reserved field has no value (R91): where a value must stand (an
array of reserved fields) the empty record stands for nothing (log entry 14 (DESIGN CHOICE, safe)). -/
def shape : Desc → Value → Bool
  | .int _, .int _ => true
  | .rsv _, .record .nil => true
  | .str32, .bytes _ => true
  | .hsbk, .record fs => leavesPresent hsbkLeaves fs && fs.length == leavesCount hsbkLeaves
  | .tile, .record fs => leavesPresent tileLeaves fs && fs.length == leavesCount tileLeaves
  | .struct ms, .record fs => shapeMembers ms fs && fs.length == ms.count
  | .arr d _, .list vs => vs.all (shape d)
  | .varr d _ _, .list vs => vs.all (shape d)
  | _, _ => false

/-- Every member that is not reserved is present with its shape (spec/41_field_codecs.md R99). -/
def shapeMembers : Members → Fields → Bool
  | .nil, _ => true
  | .cons n d rest, fs =>
    (if d.isRsv then true
     else
      match fs.lookup n with
      | some v => shape d v
      | none => false) && shapeMembers rest fs

end

mutual

/-- `ENC(d, v, off)` (spec/41_field_codecs.md R85 to R98). A value of the wrong shape is `V_SHAPE` at 0: ENCODE has tested
the shape before (spec/43_commands.md R132). -/
def enc (cfg : Config) : Desc → Value → Nat → Except ValidationReject (List Byte)
  | .int k, .int v, off => encScalar cfg k v off
  | .rsv n, _, _ => .ok (zeros n)
  | .str32, .bytes b, off => encLabel b off
  | .hsbk, .record fs, off => encLeaves cfg hsbkLeaves fs off
  | .tile, .record fs, off => encLeaves cfg tileLeaves fs off
  | .struct ms, .record fs, off => encMembers cfg ms fs off
  | .arr d n, .list vs, off =>
    if vs.length = n then encElems (enc cfg d) d.size vs off else .error ⟨.arrayLen, off⟩
  | .varr d min max, .list vs, off =>
    if vs.length < min ∨ max < vs.length then .error ⟨.arrayLen, off⟩
    else encElems (enc cfg d) d.size vs off
  | _, _, _ => .error ⟨.shape, 0⟩

/-- ENC of the members of a `STRUCT` in list order (spec/41_field_codecs.md R96). -/
def encMembers (cfg : Config) : Members → Fields → Nat → Except ValidationReject (List Byte)
  | .nil, _, _ => .ok []
  | .cons n d rest, fs, off =>
    match (if d.isRsv then some (.record .nil) else fs.lookup n) with
    | none => .error ⟨.shape, 0⟩
    | some v =>
      match enc cfg d v off with
      | .error r => .error r
      | .ok b =>
        match encMembers cfg rest fs (off + b.length) with
        | .error r => .error r
        | .ok out => .ok (b ++ out)

end

mutual

/-- `DEC(d, s, a)`, where the argument is the bytes of `s` from offset `a` to the frame's end
(spec/41_field_codecs.md R85 to R98); it is total (R101). The number of elements of a `VARR` is what the bytes up to the
frame's end give (R98). A reserved field has no value: `decMembers` leaves it out (R91), and the empty record stands for nothing elsewhere. -/
def dec : Desc → List Byte → Value
  | .int k, s => .int (decScalar k s)
  | .rsv _, _ => .record .nil
  | .str32, s => .bytes (decLabel s)
  | .hsbk, s => .record (decLeaves hsbkLeaves s)
  | .tile, s => .record (decLeaves tileLeaves s)
  | .struct ms, s => .record (decMembers ms s)
  | .arr d n, s => .list (decElems (dec d) d.size n s)
  | .varr d _ _, s => .list (decElems (dec d) d.size (s.length / d.size) s)

/-- DEC of the members of a `STRUCT` in list order (spec/41_field_codecs.md R96). -/
def decMembers : Members → List Byte → Fields
  | .nil, _ => .nil
  | .cons n d rest, s =>
    if d.isRsv then decMembers rest (s.drop d.size)
    else .cons n (dec d s) (decMembers rest (s.drop d.size))

end

mutual

/-- The value with the members of every record in wire order. A record is a set of named values (spec/00_scope.md R8);
`DEC` writes its members in wire order, so this is the form in which two records can be compared. Log entry 6 (DESIGN CHOICE, safe). -/
def canon : Desc → Value → Value
  | .hsbk, .record fs => .record (canonLeaves hsbkLeaves fs)
  | .tile, .record fs => .record (canonLeaves tileLeaves fs)
  | .struct ms, .record fs => .record (canonMembers ms fs)
  | .arr d _, .list vs => .list (vs.map (canon d))
  | .varr d _ _, .list vs => .list (vs.map (canon d))
  | _, v => v

/-- The members of a `STRUCT`'s record in wire order. -/
def canonMembers : Members → Fields → Fields
  | .nil, _ => .nil
  | .cons n d rest, fs =>
    if d.isRsv then canonMembers rest fs
    else
      match fs.lookup n with
      | some v => .cons n (canon d v) (canonMembers rest fs)
      | none => canonMembers rest fs

end

/-! ## The header -/

/-- The target's 6 bytes in sequence order (spec/20_memory.md R34, spec/41_field_codecs.md R93). -/
def Mac.bytes (m : Mac) : List Byte := [m.b0, m.b1, m.b2, m.b3, m.b4, m.b5]

/-- The target whose bytes begin the sequence (spec/41_field_codecs.md R93). -/
def Mac.ofBytes (s : List Byte) : Mac :=
  { b0 := s.getD 0 0, b1 := s.getD 1 0, b2 := s.getD 2 0, b3 := s.getD 3 0, b4 := s.getD 4 0, b5 := s.getD 5 0 }

/-- The bitfield word at header bytes 2..3 (spec/20_memory.md R33, spec/40_header.md R71). -/
def headerWord (h : Header) : Nat :=
  h.protocol.toNat + h.addressable.toNat * 2 ^ 12 + h.tagged.toNat * 2 ^ 13 + h.origin.toNat * 2 ^ 14

/-- The flag byte at header offset 22 (spec/20_memory.md R33, spec/40_header.md R71). -/
def headerFlags (cfg : Config) (h : Header) : Nat :=
  h.ackRequired.toNat * 2 ^ cfg.ackBit.val + h.resRequired.toNat * 2 ^ cfg.resBit.val

/-- The 36 bytes of a header: every reserved byte and bit is zero (spec/30_encoding.md R50, R61,
spec/40_header.md R71). -/
def headerBytes (cfg : Config) (h : Header) : List Byte :=
  leBytes 2 h.size.toNat ++ leBytes 2 (headerWord h) ++ leBytes 4 h.source.toNat ++ h.target.bytes ++ zeros 2 ++ zeros 6 ++
    leBytes 1 (headerFlags cfg h) ++ leBytes 1 h.sequence.toNat ++ zeros 8 ++ leBytes 2 h.msgType.toNat ++ zeros 2

/-- The unsigned integer at bytes `a .. a+n` of a header (spec/20_memory.md R32). -/
def headerField (s : List Byte) (a n : Nat) : Nat := unle ((s.drop a).take n)

/-- HDR_DEC: the fields of the header that begins the bytes; total, nothing reserved is looked at
(spec/40_header.md R72). -/
def decodeHeader (cfg : Config) (s : List Byte) : Header :=
  let w := BitVec.ofNat 16 (headerField s 2 2)
  let f := BitVec.ofNat 8 (headerField s 22 1)
  { size := BitVec.ofNat 16 (headerField s 0 2)
    protocol := w.extractLsb' 0 12
    addressable := w.extractLsb' 12 1
    tagged := w.extractLsb' 13 1
    origin := w.extractLsb' 14 2
    source := BitVec.ofNat 32 (headerField s 4 4)
    target := Mac.ofBytes (s.drop 8)
    ackRequired := f.extractLsb' cfg.ackBit.val 1
    resRequired := f.extractLsb' cfg.resBit.val 1
    sequence := BitVec.ofNat 8 (headerField s 23 1)
    msgType := BitVec.ofNat 16 (headerField s 32 2) }

end Sys2Proof
end

