-- ==== Sys2Proof/Machine/Registry.lean ====
section
/-!
DEFINITION. The registry: lookup (spec/00_scope.md R7), well-formedness (spec/30_encoding.md R55, spec/00_scope.md R4), and the
default registry `REG_DEFAULT` with its 14 message types (spec/30_encoding.md R56, spec/42_message_types.md R110 to R123),
each entry a definition of its own. Reserved members carry the table's names (log entry 22 (DESIGN CHOICE, safe)).
-/

namespace Sys2Proof

/-- `lookup_name(REG, n)` (spec/00_scope.md R7). -/
def lookupName (reg : List Entry) (n : String) : Option Entry := reg.find? (fun e => e.name == n)

/-- `lookup_id(REG, t)` (spec/00_scope.md R7). -/
def lookupId (reg : List Entry) (t : Half) : Option Entry := reg.find? (fun e => e.id == t)

/-! ## Well-formedness -/

mutual

/-- No `VARR` occurs in the descriptor. -/
def Desc.noVarr : Desc → Bool
  | .struct ms => ms.noVarr
  | .arr d _ => d.noVarr
  | .varr _ _ _ => false
  | _ => true

/-- No `VARR` occurs in the members. -/
def Members.noVarr : Members → Bool
  | .nil => true
  | .cons _ d rest => d.noVarr && rest.noVarr

end

/-- A `VARR` occurs at most as the last member, and its element descriptor contains none and has at least one byte
(spec/30_encoding.md R55 conditions 5 and 7). -/
def Members.varrLast : Members → Bool
  | .nil => true
  | .cons _ (.varr d _ _) .nil => d.noVarr && 1 ≤ d.size
  | .cons _ d rest => d.noVarr && rest.varrLast

/-- The name occurs among the members that take a value. -/
def Members.hasName (n : String) : Members → Bool
  | .nil => false
  | .cons m d rest => (!d.isRsv && m == n) || rest.hasName n

mutual

/-- Field names inside each `STRUCT` of the descriptor are pairwise distinct (spec/30_encoding.md R55 condition 4). -/
def Desc.namesOk : Desc → Bool
  | .struct ms => ms.namesOk
  | .arr d _ => d.namesOk
  | .varr d _ _ => d.namesOk
  | _ => true

/-- The names of the members that take a value are pairwise distinct, and so are those inside each member. -/
def Members.namesOk : Members → Bool
  | .nil => true
  | .cons n d rest => (d.isRsv || !rest.hasName n) && d.namesOk && rest.namesOk

end

/-- The conditions on one entry: a non-empty name (spec/30_encoding.md R54) and conditions 3 to 7 of
spec/30_encoding.md R55. -/
def Entry.ok (cfg : Config) (e : Entry) : Bool :=
  e.name != "" &&
  match e.desc with
  | .struct ms => ms.namesOk && ms.varrLast && 36 + e.desc.maxSize ≤ min 65535 cfg.txMax
  | _ => false

/-- Names and ids are pairwise distinct (spec/30_encoding.md R55 conditions 1 and 2). -/
def keysDistinct : List Entry → Bool
  | [] => true
  | e :: rest => rest.all (fun f => f.name != e.name && f.id != e.id) && keysDistinct rest

/-- `MZ_MIN <= MZ_MAX` where the registry has the multi-zone type (spec/00_scope.md R4, spec/42_message_types.md R120). Log entry 18 (DEDUCED, safe). -/
def mzOk (reg : List Entry) : Bool :=
  match lookupName reg "stateMultiZone" with
  | none => true
  | some e =>
    match e.desc.tail with
    | none => true
    | some (_, min, max) => min ≤ max

/-- The constraints on the parameters (spec/00_scope.md R4) and on the registry (spec/30_encoding.md R55). -/
def Config.wf (cfg : Config) : Bool :=
  cfg.ackBit != cfg.resBit && cfg.kelvinMin ≤ cfg.kelvinMax && cfg.kelvinMax ≤ 65535 &&
    36 ≤ cfg.rxMax && cfg.rxMax ≤ 65535 && cfg.txMax ≤ 65535 &&
    cfg.reg.all (Entry.ok cfg) && keysDistinct cfg.reg && mzOk cfg.reg

/-- `FMAX`, the capacity of OUTQ (spec/00_scope.md R4). -/
def Config.fmax (cfg : Config) : Nat := cfg.rxMax / 36

/-! ## The default registry -/

/-- `getService`, id 2 (spec/42_message_types.md R110). -/
def entryGetService : Entry := ⟨"getService", 2, .struct .nil⟩

/-- `stateService`, id 3 (spec/42_message_types.md R111). -/
def entryStateService : Entry :=
  ⟨"stateService", 3, .struct (.ofList [("service", .int .u8), ("port", .int .u32)])⟩

/-- `setPower`, id 21 (spec/42_message_types.md R112). -/
def entrySetPower : Entry := ⟨"setPower", 21, .struct (.ofList [("level", .int .u16)])⟩

/-- `statePower`, id 22 (spec/42_message_types.md R113). -/
def entryStatePower : Entry := ⟨"statePower", 22, .struct (.ofList [("level", .int .u16)])⟩

/-- `setLabel`, id 24 (spec/42_message_types.md R114). -/
def entrySetLabel : Entry := ⟨"setLabel", 24, .struct (.ofList [("label", .str32)])⟩

/-- `stateLabel`, id 25 (spec/42_message_types.md R115). -/
def entryStateLabel : Entry := ⟨"stateLabel", 25, .struct (.ofList [("label", .str32)])⟩

/-- `acknowledgement`, id 45 (spec/42_message_types.md R116). -/
def entryAcknowledgement : Entry := ⟨"acknowledgement", 45, .struct .nil⟩

/-- `setColor`, id 102 (spec/42_message_types.md R117). -/
def entrySetColor : Entry :=
  ⟨"setColor", 102, .struct (.ofList [("_rsv0", .rsv 1), ("color", .hsbk), ("duration", .int .u32)])⟩

/-- `getColorZones`, id 502 (spec/42_message_types.md R118). -/
def entryGetColorZones : Entry :=
  ⟨"getColorZones", 502, .struct (.ofList [("startIndex", .int .u8), ("endIndex", .int .u8)])⟩

/-- `stateZone`, id 503 (spec/42_message_types.md R119). -/
def entryStateZone : Entry :=
  ⟨"stateZone", 503, .struct (.ofList [("count", .int .u8), ("index", .int .u8), ("color", .hsbk)])⟩

/-- `stateMultiZone`, id 506, the one variable-size type; its bounds are `MZ_MIN` and `MZ_MAX`
(spec/42_message_types.md R120). -/
def entryStateMultiZone (mzMin mzMax : Nat) : Entry :=
  ⟨"stateMultiZone", 506,
    .struct (.ofList [("count", .int .u8), ("index", .int .u8), ("colors", .varr .hsbk mzMin mzMax)])⟩

/-- `stateDeviceChain`, id 702: `CHAIN_TILES` = 16 Tile records, the total count at the trailing byte
(spec/42_message_types.md R121). -/
def entryStateDeviceChain : Entry :=
  ⟨"stateDeviceChain", 702,
    .struct (.ofList [("startIndex", .int .u8), ("tileDevices", .arr .tile 16), ("totalCount", .int .u8)])⟩

/-- `stateTileState64`, id 711: `TILE_COLORS` = 64 colours (spec/42_message_types.md R122). -/
def entryStateTileState64 : Entry :=
  ⟨"stateTileState64", 711,
    .struct (.ofList [("tileIndex", .int .u8), ("_rsv1", .rsv 1), ("x", .int .u8), ("y", .int .u8),
      ("width", .int .u8), ("colors", .arr .hsbk 64)])⟩

/-- `setTileState64`, id 715 (spec/42_message_types.md R123). -/
def entrySetTileState64 : Entry :=
  ⟨"setTileState64", 715,
    .struct (.ofList [("tileIndex", .int .u8), ("length", .int .u8), ("_rsv2", .rsv 1), ("x", .int .u8),
      ("y", .int .u8), ("width", .int .u8), ("duration", .int .u32), ("colors", .arr .hsbk 64)])⟩

/-- `REG_DEFAULT` with the bounds of the multi-zone colour list (spec/30_encoding.md R56). -/
def regDefault (mzMin mzMax : Nat) : List Entry :=
  [entryGetService, entryStateService, entrySetPower, entryStatePower, entrySetLabel, entryStateLabel,
   entryAcknowledgement, entrySetColor, entryGetColorZones, entryStateZone, entryStateMultiZone mzMin mzMax,
   entryStateDeviceChain, entryStateTileState64, entrySetTileState64]

/-- The default of every parameter (spec/00_scope.md R4), the ones among them that the spec takes from general knowledge
included. Log entry 8 (PRESUMED, unsafe). -/
def Config.default : Config :=
  { protocol := 1024
    addressable := 1
    origin := 0
    ackBit := 0
    resBit := 1
    kelvinMin := 2500
    kelvinMax := 9000
    rxMax := 65535
    txMax := 65535
    reg := regDefault 1 8 }

end Sys2Proof
end

