-- ==== Sys2Proof/Decode.lean ====
section
/-!
DEFINITION. The decoders and the encoder of PKTCODEC. Three things are decoded: a host write to `CMD` (spec/10_state.md R19),
the header that begins a frame (spec/40_header.md R72), and a whole frame, whose type id selects one packet format
(spec/30_encoding.md R53, spec/43_commands.md R143). Each decoder is total and rejects by cause. Last come the encoder and
the two readings of a word of spec/opcode_table.json.
-/

namespace Sys2Proof

/-! ## Commands -/

/-- The command of a `CMD` write: its two low bits; there is no illegal command code and the bits above are ignored
(spec/10_state.md R19). -/
def decodeCommand (w : Nat) : Instr :=
  match w % 4 with
  | 0 => .nop
  | 1 => .encode
  | 2 => .decode
  | _ => .parse

/-! ## Frames -/

/-- Checks 2 to 4 of the frame step, in that order, on the header's `size` and the bytes that remain
(spec/43_commands.md R143). -/
def lengthCheck (single : Bool) (rem : Nat) (h : Header) : Option FormatCause :=
  if h.size.toNat < 36 then some .sizeSmall
  else if rem < h.size.toNat then some .trunc
  else if single && h.size.toNat < rem then some .trailing
  else none

/-- The header instruction at the start of the bytes that remain: check 1, then HDR_DEC (spec/43_commands.md R143,
spec/40_header.md R72). -/
def decodeHdr (cfg : Config) (s : List Byte) : Except FormatReject Instr :=
  if s.length < 36 then .error ⟨.short, 0⟩ else .ok (.hdr (decodeHeader cfg s))

/-- The packet of the frame that begins the bytes that remain: checks 1 to 6 in order, then the payload's `DEC` up to the
frame's end (spec/43_commands.md R143). -/
def decodeFrame (cfg : Config) (single : Bool) (s : List Byte) : Except FormatReject PacketRecord :=
  if s.length < 36 then .error ⟨.short, 0⟩
  else
    let h := decodeHeader cfg s
    match lengthCheck single s.length h with
    | some c => .error ⟨c, 0⟩
    | none =>
      match lookupId cfg.reg h.msgType with
      | none => .error ⟨.unknownType, h.msgType⟩
      | some e =>
        if sizesOk e.desc h.size.toNat then .ok ⟨h, e.name, dec e.desc ((s.take h.size.toNat).drop 36)⟩
        else .error ⟨.length, h.msgType⟩

/-- The row of spec/opcode_table.json that a packet's type name selects. A registry may hold types that the table has no row
for (spec/42_message_types.md R125): for these there is none. -/
def Instr.ofPacket (r : PacketRecord) : Option Instr :=
  if r.name = "getService" then some (.getService r.hdr r.payload)
  else if r.name = "stateService" then some (.stateService r.hdr r.payload)
  else if r.name = "setPower" then some (.setPower r.hdr r.payload)
  else if r.name = "statePower" then some (.statePower r.hdr r.payload)
  else if r.name = "setLabel" then some (.setLabel r.hdr r.payload)
  else if r.name = "stateLabel" then some (.stateLabel r.hdr r.payload)
  else if r.name = "acknowledgement" then some (.acknowledgement r.hdr r.payload)
  else if r.name = "setColor" then some (.setColor r.hdr r.payload)
  else if r.name = "getColorZones" then some (.getColorZones r.hdr r.payload)
  else if r.name = "stateZone" then some (.stateZone r.hdr r.payload)
  else if r.name = "stateMultiZone" then some (.stateMultiZone r.hdr r.payload)
  else if r.name = "stateDeviceChain" then some (.stateDeviceChain r.hdr r.payload)
  else if r.name = "stateTileState64" then some (.stateTileState64 r.hdr r.payload)
  else if r.name = "setTileState64" then some (.setTileState64 r.hdr r.payload)
  else none

/-- The packet an instruction is, if it is one: its header, its type name and its payload. -/
def Instr.packet : Instr → Option PacketRecord
  | .hdr _ => none
  | .getService h p => some ⟨h, "getService", p⟩
  | .stateService h p => some ⟨h, "stateService", p⟩
  | .setPower h p => some ⟨h, "setPower", p⟩
  | .statePower h p => some ⟨h, "statePower", p⟩
  | .setLabel h p => some ⟨h, "setLabel", p⟩
  | .stateLabel h p => some ⟨h, "stateLabel", p⟩
  | .acknowledgement h p => some ⟨h, "acknowledgement", p⟩
  | .setColor h p => some ⟨h, "setColor", p⟩
  | .getColorZones h p => some ⟨h, "getColorZones", p⟩
  | .stateZone h p => some ⟨h, "stateZone", p⟩
  | .stateMultiZone h p => some ⟨h, "stateMultiZone", p⟩
  | .stateDeviceChain h p => some ⟨h, "stateDeviceChain", p⟩
  | .stateTileState64 h p => some ⟨h, "stateTileState64", p⟩
  | .setTileState64 h p => some ⟨h, "setTileState64", p⟩
  | .nop => none
  | .encode => none
  | .decode => none
  | .parse => none

/-! ## The encoder -/

/-- The bytes of a packet: header, then payload by its type's descriptor (spec/30_encoding.md R51). Where the type is not in
the registry or the payload cannot be encoded (no well-formed packet), the header alone. Log entry 21 (DESIGN CHOICE, safe). -/
def packetBytes (cfg : Config) (r : PacketRecord) : List Byte :=
  match lookupName cfg.reg r.name with
  | none => headerBytes cfg r.hdr
  | some e =>
    match enc cfg e.desc r.payload 36 with
    | .error _ => headerBytes cfg r.hdr
    | .ok b => headerBytes cfg r.hdr ++ b

/-- The words of a well-formed instruction: the bytes of a header or of a packet (spec/30_encoding.md R50, R51), the byte of
a `CMD` write (spec/10_state.md R19). -/
def encode (cfg : Config) (i : Instr) : List Byte :=
  match i with
  | .nop => [0]
  | .encode => [1]
  | .decode => [2]
  | .parse => [3]
  | .hdr h => headerBytes cfg h
  | i =>
    match i.packet with
    | some r => packetBytes cfg r
    | none => []

/-! ## The opcode table's words -/

/-- What a row's word is a part of: a `CMD` write, a header, or a frame (spec/30_encoding.md R67). -/
inductive Space where
  | command
  | header
  | packet
  deriving DecidableEq, Repr

/-- The space of a table word: a `CMD` row has its two bits in one byte, a `PKT` row the 16 bits of `type`, and the `HDR` row
the word 0 under the mask 0 (spec/30_encoding.md R67); 288 bits are a header written in full. Log entry 9 (DESIGN CHOICE, safe). -/
def tableSpace (nbits w : Nat) : Option Space :=
  if nbits = 0 then some .header
  else if nbits ≤ 8 then some .command
  else if nbits = 16 then (if w = 0 then some .header else some .packet)
  else if nbits = 288 then some .header
  else none

/-- The least payload length a type declares (spec/30_encoding.md R58). -/
def Desc.minSize (p : Desc) : Nat :=
  match p.tail with
  | none => p.size
  | some (d, min, _) => p.size + min * d.size

/-- The frame a table word stands for: `type` is the word, `size` the least length the type declares (36 where the type is
unknown), every other bit zero. Log entry 9 (DESIGN CHOICE, safe). -/
def tableFrame (cfg : Config) (w : Nat) : List Byte :=
  let n := match lookupId cfg.reg (BitVec.ofNat 16 w) with
    | some e => e.desc.minSize
    | none => 0
  headerBytes cfg
      { size := BitVec.ofNat 16 (36 + n), protocol := 0, addressable := 0, tagged := 0, origin := 0, source := 0,
        target := ⟨0, 0, 0, 0, 0, 0⟩, ackRequired := 0, resRequired := 0, sequence := 0,
        msgType := BitVec.ofNat 16 w } ++
    zeros n

/-- The bytes a table word is laid out as, in the spaces whose instructions stand in RXBUF. -/
def tableBytes (cfg : Config) (nbits w : Nat) : List Byte :=
  if nbits = 288 then leBytes 36 w else tableFrame cfg w

/-- The instruction the decoder reads from a word of spec/opcode_table.json (spec/30_encoding.md R67), with the default
parameters. -/
def decodeTableWord (nbits w : Nat) : Option Instr :=
  match tableSpace nbits w with
  | none => none
  | some .command => some (decodeCommand w)
  | some .header =>
    match decodeHdr Config.default (tableBytes Config.default nbits w) with
    | .ok i => some i
    | .error _ => none
  | some .packet =>
    match decodeFrame Config.default false (tableBytes Config.default nbits w) with
    | .ok r => Instr.ofPacket r
    | .error _ => none

end Sys2Proof
end

