-- ==== Sys2Proof/Machine/State.lean ====
section
/-!
DEFINITION. The state of PKTCODEC as plain data (spec/10_state.md R10 to R23), the reasons a step can stop, and the state
after reset (spec/10_state.md R23, spec/70_reset_and_hazards.md R185 to R187).
-/

namespace Sys2Proof.Machine

/-- A byte memory: the bytes that have a value, as (address, byte) pairs with the addresses strictly rising. An unlisted
address has no value: RXBUF and TXBUF hold nothing specified after reset (spec/10_state.md R12, R13, R23). Log entry 3 (DESIGN CHOICE, safe). -/
abbrev Memory := List Host.Cell

/-- `STATUS` (spec/10_state.md R20), its four fields. Log entry 11 (DESIGN CHOICE, safe). -/
structure Status where
  err : BitVec 2
  cause : BitVec 8
  eoff : Half
  einfo : Half
  deriving DecidableEq, Repr

/-- The encode request register file `ER` (spec/10_state.md R14). Its integer fields hold mathematical integers. -/
structure EncodeRequest where
  name : String
  source : Int
  target : Option (List Byte)
  tagged : Int
  ackRequired : Int
  resRequired : Int
  sequence : Int
  payload : Value
  deriving DecidableEq, Repr

/-- Which fields of `ER` have been written since reset (spec/10_state.md R23 `unwritten`, spec/70_reset_and_hazards.md
R188). -/
structure ErWritten where
  name : Bool
  source : Bool
  target : Bool
  tagged : Bool
  ackRequired : Bool
  resRequired : Bool
  sequence : Bool
  payload : Bool
  deriving DecidableEq, Repr

/-- A host write to one field of `ER` (spec/10_state.md R14). -/
inductive ErWrite where
  | name (v : String)
  | source (v : Int)
  | target (v : Option (List Byte))
  | tagged (v : Int)
  | ackRequired (v : Int)
  | resRequired (v : Int)
  | sequence (v : Int)
  | payload (v : Value)
  deriving DecidableEq, Repr

/-- What the host or the environment does between commands (spec/70_reset_and_hazards.md R185, R190 to R194,
spec/20_memory.md R39). -/
inductive HostAction where
  /-- write the bytes to RXBUF from the address on (spec/10_state.md R12) -/
  | writeRx (address : Nat) (bytes : List Byte)
  /-- write RXLEN (spec/10_state.md R12) -/
  | writeRxLen (n : Nat)
  /-- write a field of `ER` (spec/10_state.md R14) -/
  | writeEr (w : ErWrite)
  /-- write `CMD`, which starts a command (spec/10_state.md R19) -/
  | writeCmd (w : Nat)
  /-- read a byte of TXBUF (spec/70_reset_and_hazards.md R193) -/
  | readTx (address : Nat)
  /-- read a record of OUTQ (spec/70_reset_and_hazards.md R193) -/
  | readOutq (index : Nat)
  /-- read a byte of RXBUF: that there is such an action is the model's choice; log entry 23 (DESIGN CHOICE, unsafe) -/
  | readRx (address : Nat)
  /-- the reset event (spec/70_reset_and_hazards.md R185) -/
  | reset
  deriving DecidableEq, Repr

/-- What the codec engine runs next. Between commands it is `idle`, the only phase the host ever sees; `command` holds from a
write to `CMD` to the end of the command (spec/10_state.md R19, spec/43_commands.md R148). The two frame phases are the two
halves of a frame step, where the header of a frame, then the packet that its type selects, is the next instruction
(spec/30_encoding.md R53, spec/43_commands.md R143); `single` is the argument of FRAME_STEP. They define PARSE and DECODE
and are not states the host can see (spec/20_memory.md R38). The model's own field; log entry 2 (DESIGN CHOICE, safe). -/
inductive Phase where
  | idle
  | command
  | header (single : Bool)
  | payload (single : Bool)
  deriving DecidableEq, Repr

/-- The machine stops with a fault. -/
inductive Fault where
  /-- Raised by a host write to an address at or above `RXMAX`, which RXBUF does not have (spec/10_state.md R12,
  spec/20_memory.md R30). Safe: nothing is claimed of such a write. -/
  | rxAddress
  deriving DecidableEq, Repr

/-- The model gives the situation no meaning. -/
inductive Refusal where
  /-- Raised by an arm of `exec` whose instruction has no meaning yet; no arm does. Safe. -/
  | notModelled (mnemonic : String)
  /-- Raised by ENCODE while a field of `ER` has never been written since reset: the spec refuses it and gives it no meaning
  (spec/70_reset_and_hazards.md R188, spec/93_implementation_defined.md U4 `refuse`, spec/92_eei_decisions.md D31). Safe. -/
  | erUnwritten
  /-- Raised by a host write of RXLEN above `RXMAX` (spec/10_state.md R12). Safe. -/
  | rxlenAboveRxmax
  /-- Raised by a host read of TXBUF at or above TXLEN (spec/70_reset_and_hazards.md R193). Safe. -/
  | readPastTxlen
  /-- Raised by a host read of OUTQ at or above OUTN (spec/70_reset_and_hazards.md R193). Safe. -/
  | readPastOutn
  /-- Raised by a host read of RXBUF at or above RXLEN (spec/93_implementation_defined.md U3). Safe. -/
  | readPastRxlen
  /-- Raised by a step of a machine whose parameters or registry are not well-formed (spec/30_encoding.md R55,
  spec/70_reset_and_hazards.md R189). Safe: no such machine is claimed of. -/
  | illFormedConfig
  deriving DecidableEq, Repr

/-- The state of the block (spec/10_state.md R10). INVENTORY.md lists every field with its rule and reset value. -/
structure State where
  /-- the parameters, the registry `REG` among them; no step changes them (spec/00_scope.md R4, spec/10_state.md R11) -/
  cfg : Config
  /-- `RXBUF` (spec/10_state.md R12) -/
  rxbuf : Memory
  /-- `RXLEN` (spec/10_state.md R12) -/
  rxlen : Half
  /-- `TXBUF` (spec/10_state.md R13) -/
  txbuf : Memory
  /-- `TXLEN` (spec/10_state.md R13) -/
  txlen : Half
  /-- `ER` (spec/10_state.md R14) -/
  er : EncodeRequest
  /-- the written fields of `ER` (spec/10_state.md R23) -/
  erWritten : ErWritten
  /-- the valid records of `OUTQ` in order; a record at or above OUTN has no value (spec/10_state.md R15) -/
  outq : List PacketRecord
  /-- `OUTN` (spec/10_state.md R15) -/
  outn : Half
  /-- `CUR` (spec/10_state.md R17) -/
  cur : Half
  /-- `FCNT` (spec/10_state.md R18) -/
  fcnt : Half
  /-- `CMD.OP` (spec/10_state.md R19) -/
  cmdOp : BitVec 2
  /-- `STATUS` (spec/10_state.md R20) -/
  status : Status
  /-- what runs next; the model's own (log entry 2 (DESIGN CHOICE, safe)) -/
  phase : Phase
  /-- what the host will do, in order; the model's own (log entry 1 (DESIGN CHOICE, safe)) -/
  inbox : List HostAction
  /-- how many resets there have been, which picks the free values; the model's own (log entry 4 (DESIGN CHOICE, safe)) -/
  epoch : Nat
  deriving DecidableEq, Repr

/-- The state after a reset of a machine with the parameters `cfg` (spec/10_state.md R23). `inbox` is what the host will do
afterwards and `epoch` the number of this reset. The values of `ER`'s fields are never read before they are written
(log entry 5 (DESIGN CHOICE, unsafe)). -/
def State.resetWith (cfg : Config) (inbox : List HostAction) (epoch : Nat) : State :=
  { cfg := cfg
    rxbuf := []
    rxlen := 0
    txbuf := []
    txlen := 0
    er := { name := "", source := 0, target := none, tagged := 0, ackRequired := 0, resRequired := 0, sequence := 0,
            payload := .record .nil }
    erWritten := ⟨false, false, false, false, false, false, false, false⟩
    outq := []
    outn := 0
    cur := 0
    fcnt := 0
    cmdOp := 0
    status := ⟨0, 0, 0, 0⟩
    phase := .idle
    inbox := inbox
    epoch := epoch }

/-- The machine right after reset, with the default parameters and a host that does nothing (spec/10_state.md R23,
spec/70_reset_and_hazards.md R186, R187). -/
def State.reset : State := State.resetWith Config.default [] 0

end Sys2Proof.Machine
end

