-- ==== Sys2Proof/Machine/Flags.lean ====
section
/-!
DEFINITION. The values of `STATUS`, the block's only flags (spec/10_state.md R20, R21): the cause codes, the error values of the
two classes and the 42-bit word the host reads.
-/

namespace Sys2Proof.Machine

/-- The code of a FormatError cause (spec/60_exceptions.md R161). -/
def formatCode (c : FormatCause) : BitVec 8 :=
  match c with
  | .short => 0x01
  | .sizeSmall => 0x02
  | .trunc => 0x03
  | .trailing => 0x04
  | .unknownType => 0x05
  | .length => 0x06

/-- The code of a ValidationError cause (spec/60_exceptions.md R162). -/
def validationCode (c : ValidationCause) : BitVec 8 :=
  match c with
  | .unknownName => 0x11
  | .shape => 0x12
  | .range => 0x13
  | .stringLen => 0x14
  | .stringNul => 0x15
  | .arrayLen => 0x16

/-- `STATUS = 0`: no error (spec/10_state.md R20). -/
def statusNone : Status := ⟨0, 0, 0, 0⟩

/-- `STATUS` after `raise FormatError(cause, off, info)` (spec/60_exceptions.md R166). -/
def statusFormat (c : FormatCause) (off info : Half) : Status := ⟨1, formatCode c, off, info⟩

/-- `STATUS` after `raise ValidationError(cause, off)` (spec/60_exceptions.md R167). -/
def statusValidation (c : ValidationCause) (off : Nat) : Status := ⟨2, validationCode c, BitVec.ofNat 16 off, 0⟩

/-- The word of `STATUS` as the host reads it: ERR in bits 1:0, CAUSE in 9:2, EOFF in 25:10, EINFO in 41:26
(spec/10_state.md R20). -/
def statusWord (s : Status) : BitVec 42 := s.einfo ++ s.eoff ++ s.cause ++ s.err

end Sys2Proof.Machine
end

