-- ==== Sys2Proof/Machine/Ops.lean ====
section
/-!
DEFINITION. The named operations over the buffers and registers: reading and writing memory (spec/00_scope.md R7, MemRead and
MemWrite), raising the two errors (spec/60_exceptions.md R166, R167), the result queue and the frame cursor
(spec/43_commands.md R143), and what the host may read (spec/70_reset_and_hazards.md R193).
-/

namespace Sys2Proof.Machine

/-! ## Memory -/

/-- The byte at an address, if it has a value. -/
def Memory.read : Memory → Nat → Option Byte
  | [], _ => none
  | (k, b) :: rest, a => if k = a then some b else Memory.read rest a

/-- The bytes as cells from the address on. -/
def Memory.cells : Nat → List Byte → Memory
  | _, [] => []
  | a, b :: rest => (a, b) :: Memory.cells (a + 1) rest

/-- The bytes written to the addresses from `a` on (spec/00_scope.md R7 MemWrite). -/
def Memory.write (m : Memory) (a : Nat) (bs : List Byte) : Memory :=
  m.filter (fun c => c.1 < a) ++ Memory.cells a bs ++ m.filter (fun c => a + bs.length ≤ c.1)

/-- The memory with no value at or above the address. -/
def Memory.forgetFrom (m : Memory) (a : Nat) : Memory := m.filter (fun c => c.1 < a)

/-- The canonical form: addresses strictly rise. An unlisted address has no value, so no entry equals what an unlisted
address reads as, and equal memories are equal lists. -/
abbrev Memory.wf (m : Memory) : Prop := List.Pairwise (fun x y => x.1 < y.1) m

/-- The `n` bytes from `a` on of a memory whose entries below `a` are gone; a byte that has no value reads as the free value. -/
def Memory.take (free : Nat → Byte) : Nat → Nat → Memory → List Byte
  | 0, _, _ => []
  | n + 1, a, [] => free a :: Memory.take free n (a + 1) []
  | n + 1, a, (k, b) :: rest =>
    if k = a then b :: Memory.take free n (a + 1) rest else free a :: Memory.take free n (a + 1) ((k, b) :: rest)

/-- The byte of RXBUF at an address as a command reads it: unspecified where nothing has written it since reset
(spec/10_state.md R23, spec/93_implementation_defined.md U3). Log entry 4 (DESIGN CHOICE, safe). -/
def rxByte (s : State) (a : Nat) : Byte := (Memory.read s.rxbuf a).getD (Config.freeRxByte s.epoch a)

/-- `MemRead(a, n)`: the bytes `RXBUF[a .. a+n)` (spec/00_scope.md R7). `memRead_eq_rxByte` in Laws says that it is `rxByte`
at each address. -/
def memRead (s : State) (a n : Nat) : List Byte :=
  Memory.take (Config.freeRxByte s.epoch) n a (s.rxbuf.dropWhile (fun c => c.1 < a))

/-- The bytes of the datagram that remain from the frame cursor on, `rem = RXLEN - CUR` of them (spec/43_commands.md R143,
spec/20_memory.md R31). -/
def rxRest (s : State) : List Byte := memRead s s.cur.toNat (s.rxlen.toNat - s.cur.toNat)

/-! ## Raising an error: the one entry of each class -/

/-- `raise FormatError(cause, CUR, info)`: STATUS is written, OUTN is 0 and no record of OUTQ is valid; CUR and FCNT keep
their values and the command ends (spec/60_exceptions.md R166). There is no handler and nothing to return from (R168). -/
def raiseFormat (r : FormatReject) (s : State) : State :=
  { s with status := statusFormat r.cause s.cur r.info, outn := 0, outq := [], phase := .idle }

/-- `raise ValidationError(cause, off)`: STATUS is written, TXLEN is 0, TXBUF is not written and the command ends
(spec/60_exceptions.md R167). -/
def raiseValidation (r : ValidationReject) (s : State) : State :=
  { s with status := statusValidation r.cause r.off, txlen := 0, phase := .idle }

/-- The end of a command that raised nothing: the block waits for the next one (spec/43_commands.md R148,
spec/60_exceptions.md R168). -/
def endCommand (s : State) : State := { s with phase := .idle }

/-! ## The frame step -/

/-- The `single` argument of the frame step that is running (spec/43_commands.md R140, R142). -/
def Phase.isSingle : Phase → Bool
  | .header single => single
  | .payload single => single
  | _ => false

/-- What DECODE and PARSE do before their first frame step: STATUS, OUTN, CUR and FCNT are 0 and no record of OUTQ is valid
(spec/43_commands.md R140, R142). -/
def startFrames (single : Bool) (s : State) : State :=
  { s with status := statusNone, outq := [], outn := 0, cur := 0, fcnt := 0, phase := .header single }

/-- `OUTQ[OUTN] <- rec` and `OUTN <- OUTN + 1` (spec/43_commands.md R143). Records at or above OUTN had no value
(spec/10_state.md R15). Log entry 10 (DEDUCED, safe). -/
def pushRecord (r : PacketRecord) (s : State) : State :=
  { s with outq := s.outq.take s.outn.toNat ++ [r], outn := s.outn + 1 }

/-- The end of a frame step: FCNT counts the frame and CUR passes it (spec/43_commands.md R143); DECODE ends after one frame,
PARSE when CUR = RXLEN (R140, R142). -/
def advanceFrame (h : Header) (s : State) : State :=
  { s with
    fcnt := s.fcnt + 1
    cur := s.cur + h.size
    phase := if s.phase.isSingle || s.cur + h.size == s.rxlen then .idle else .header false }

/-- What a frame that passed every check does: its record is stored and the cursor passes it
(spec/43_commands.md R143). -/
def storePacket (r : PacketRecord) (s : State) : State := advanceFrame r.hdr (pushRecord r s)

/-- FRAME_STEP (spec/43_commands.md R143). -/
def frameStep (s : State) : State :=
  match decodeFrame s.cfg s.phase.isSingle (rxRest s) with
  | .error r => raiseFormat r s
  | .ok r => storePacket r s

/-- The loop of PARSE: frame steps until the command has ended (spec/43_commands.md R142). The bound on the number of steps
is never what ends it (spec/43_commands.md R144). -/
def frameLoop : Nat → State → State
  | 0, s => s
  | n + 1, s => if s.phase = .idle then s else frameLoop n (frameStep s)

/-- A bound on the frame steps of one command, `floor(RXLEN / 36) + 1` (spec/43_commands.md R144). -/
def frameBound (s : State) : Nat := s.rxlen.toNat / 36 + 1

/-! ## ENCODE's parts -/

/-- Every field of `ER` has been written since reset (spec/70_reset_and_hazards.md R188). -/
def ErWritten.complete (w : ErWritten) : Bool :=
  w.name && w.source && w.target && w.tagged && w.ackRequired && w.resRequired && w.sequence && w.payload

/-- SHAPE_OK: the target is `none` or 6 bytes and the payload has the shape of the type (spec/43_commands.md R132). The header
operands are integers by the type of `ER` (spec/10_state.md R14). Log entry 13 (DEDUCED, safe). -/
def shapeOk (e : Entry) (er : EncodeRequest) : Bool :=
  (match er.target with
    | none => true
    | some t => t.length == 6) && shape e.desc er.payload

/-- HDR_CHECK: the first header operand out of range, in wire order (spec/40_header.md R70). -/
def hdrCheck (er : EncodeRequest) : Option ValidationReject :=
  if er.tagged ≠ 0 ∧ er.tagged ≠ 1 then some ⟨.range, 2⟩
  else if er.source < 0 ∨ 2 ^ 32 - 1 < er.source then some ⟨.range, 4⟩
  else if er.ackRequired ≠ 0 ∧ er.ackRequired ≠ 1 then some ⟨.range, 22⟩
  else if er.resRequired ≠ 0 ∧ er.resRequired ≠ 1 then some ⟨.range, 22⟩
  else if er.sequence < 0 ∨ 255 < er.sequence then some ⟨.range, 23⟩
  else none

/-- The header HDR_BUILD writes for a type id and a payload length (spec/40_header.md R71). -/
def requestHeader (cfg : Config) (er : EncodeRequest) (tid : Half) (plen : Nat) : Header :=
  { size := BitVec.ofNat 16 (36 + plen)
    protocol := cfg.protocol
    addressable := cfg.addressable
    tagged := BitVec.ofInt 1 er.tagged
    origin := cfg.origin
    source := BitVec.ofInt 32 er.source
    target := Mac.ofBytes (er.target.getD (zeros 6))
    ackRequired := BitVec.ofInt 1 er.ackRequired
    resRequired := BitVec.ofInt 1 er.resRequired
    sequence := BitVec.ofInt 8 er.sequence
    msgType := tid }

/-- Steps 1 to 5 of ENCODE: the first check that fails, or the packet (spec/43_commands.md R131). -/
def encodeRequest (cfg : Config) (er : EncodeRequest) : Except ValidationReject (List Byte) :=
  match lookupName cfg.reg er.name with
  | none => .error ⟨.unknownName, 0⟩
  | some e =>
    if shapeOk e er then
      match hdrCheck er with
      | some r => .error r
      | none =>
        match enc cfg e.desc er.payload 36 with
        | .error r => .error r
        | .ok payload => .ok (headerBytes cfg (requestHeader cfg er e.id payload.length) ++ payload)
    else .error ⟨.shape, 0⟩

/-- Step 6 of ENCODE: the packet is written to TXBUF from address 0 and TXLEN is its length (spec/43_commands.md R131). The
bytes at or above TXLEN have no value then (spec/10_state.md R13). Log entry 7 (DEDUCED, safe). -/
def writePacket (pkt : List Byte) (s : State) : State :=
  { s with
    txbuf := Memory.forgetFrom (Memory.write s.txbuf 0 pkt) pkt.length
    txlen := BitVec.ofNat 16 pkt.length }

/-! ## What the host may read -/

/-- The byte the host reads from TXBUF: only below TXLEN (spec/10_state.md R13, spec/70_reset_and_hazards.md R193). -/
def hostTx (s : State) (a : Nat) : Option Byte := if a < s.txlen.toNat then Memory.read s.txbuf a else none

/-- The packet the host takes from TXBUF, `TXBUF[0 .. TXLEN)` (spec/10_state.md R13). -/
def txPacket (s : State) : List (Option Byte) := (List.range s.txlen.toNat).map (Memory.read s.txbuf)

/-- The record the host reads from OUTQ: only below OUTN (spec/10_state.md R15, spec/70_reset_and_hazards.md R193). -/
def hostRecord (s : State) (k : Nat) : Option PacketRecord := if k < s.outn.toNat then s.outq[k]? else none

/-- The datagram a command sees, `RXBUF[0 .. RXLEN)` (spec/10_state.md R12). -/
def datagram (s : State) : List Byte := memRead s 0 s.rxlen.toNat

end Sys2Proof.Machine
end

