-- ==== Sys2Proof/Machine/Commands.lean ====
section
/-!
DEFINITION. The four host commands, each one atomic transition of the state (spec/43_commands.md R130, R131, R140, R142,
spec/20_memory.md R38).
-/

namespace Sys2Proof.Machine

/-- NOP: STATUS is 0 and nothing else changes (spec/43_commands.md R130). -/
def execNop (s : State) : Host.Outcome State Fault Refusal :=
  .next (endCommand { s with status := statusNone })

/-- ENCODE: the first check that fails is raised; else the packet is in TXBUF (spec/43_commands.md R131). It is refused while
a field of `ER` has never been written, as the spec says (spec/70_reset_and_hazards.md R188, spec/10_state.md R23 `unwritten`,
spec/93_implementation_defined.md U4 `refuse`, spec/92_eei_decisions.md D31). -/
def execEncode (s : State) : Host.Outcome State Fault Refusal :=
  if s.erWritten.complete then
    match encodeRequest s.cfg s.er with
    | .error r => .next (raiseValidation r { s with status := statusNone })
    | .ok pkt => .next (endCommand (writePacket pkt { s with status := statusNone }))
  else .refused .erUnwritten

/-- DECODE: one frame step on a buffer that must hold exactly one packet (spec/43_commands.md R140). -/
def execDecode (s : State) : Host.Outcome State Fault Refusal :=
  .next (frameStep (startFrames true s))

/-- PARSE: frame steps until CUR = RXLEN or one raises (spec/43_commands.md R142). -/
def execParse (s : State) : Host.Outcome State Fault Refusal :=
  .next (frameLoop (frameBound s) (startFrames false s))

end Sys2Proof.Machine
end

