-- ==== Sys2Proof/Machine/HeaderUnit.lean ====
section
/-!
DEFINITION. The header row of spec/opcode_table.json: the first half of a frame step (spec/43_commands.md R143 checks 2 to 4,
spec/40_header.md R72).
-/

namespace Sys2Proof.Machine

/-- HDR: the header of the frame at CUR has been read (check 1 and HDR_DEC are its decoding); its `size` is checked against
the bytes that remain, and the packet that its type selects comes next (spec/43_commands.md R143, spec/30_encoding.md
R53). Log entry 12 (DESIGN CHOICE, safe). -/
def execHdr (h : Header) (s : State) : Host.Outcome State Fault Refusal :=
  match lengthCheck s.phase.isSingle (s.rxlen.toNat - s.cur.toNat) h with
  | some c => .next (raiseFormat ⟨c, 0⟩ s)
  | none => .next { s with phase := .payload s.phase.isSingle }

end Sys2Proof.Machine
end

