-- ==== Sys2Proof/Machine/Packets.lean ====
section
/-!
DEFINITION. The 14 packet rows of spec/opcode_table.json, on the side of the receiver: a frame of the type has passed every
check of the frame step and its payload has been decoded by the type's descriptor; its record is stored in OUTQ and the
cursor passes it (spec/42_message_types.md R110 to R123, spec/43_commands.md R143). The descriptors are the entries of
Machine/Registry.lean; the sender's side is `encodeRequest`, which ENCODE runs with the same descriptors. Log entry 12 (DESIGN CHOICE, safe).
-/

namespace Sys2Proof.Machine

/-- `getService` received (spec/42_message_types.md R110, spec/43_commands.md R143). -/
def execGetService (h : Header) (p : Value) (s : State) : Host.Outcome State Fault Refusal :=
  .next (storePacket ⟨h, "getService", p⟩ s)

/-- `stateService` received (spec/42_message_types.md R111, spec/43_commands.md R143). -/
def execStateService (h : Header) (p : Value) (s : State) : Host.Outcome State Fault Refusal :=
  .next (storePacket ⟨h, "stateService", p⟩ s)

/-- `setPower` received (spec/42_message_types.md R112, spec/43_commands.md R143). -/
def execSetPower (h : Header) (p : Value) (s : State) : Host.Outcome State Fault Refusal :=
  .next (storePacket ⟨h, "setPower", p⟩ s)

/-- `statePower` received (spec/42_message_types.md R113, spec/43_commands.md R143). -/
def execStatePower (h : Header) (p : Value) (s : State) : Host.Outcome State Fault Refusal :=
  .next (storePacket ⟨h, "statePower", p⟩ s)

/-- `setLabel` received (spec/42_message_types.md R114, spec/43_commands.md R143). -/
def execSetLabel (h : Header) (p : Value) (s : State) : Host.Outcome State Fault Refusal :=
  .next (storePacket ⟨h, "setLabel", p⟩ s)

/-- `stateLabel` received (spec/42_message_types.md R115, spec/43_commands.md R143). -/
def execStateLabel (h : Header) (p : Value) (s : State) : Host.Outcome State Fault Refusal :=
  .next (storePacket ⟨h, "stateLabel", p⟩ s)

/-- `acknowledgement` received (spec/42_message_types.md R116, spec/43_commands.md R143). -/
def execAcknowledgement (h : Header) (p : Value) (s : State) : Host.Outcome State Fault Refusal :=
  .next (storePacket ⟨h, "acknowledgement", p⟩ s)

/-- `setColor` received (spec/42_message_types.md R117, spec/43_commands.md R143). -/
def execSetColor (h : Header) (p : Value) (s : State) : Host.Outcome State Fault Refusal :=
  .next (storePacket ⟨h, "setColor", p⟩ s)

/-- `getColorZones` received (spec/42_message_types.md R118, spec/43_commands.md R143). -/
def execGetColorZones (h : Header) (p : Value) (s : State) : Host.Outcome State Fault Refusal :=
  .next (storePacket ⟨h, "getColorZones", p⟩ s)

/-- `stateZone` received (spec/42_message_types.md R119, spec/43_commands.md R143). -/
def execStateZone (h : Header) (p : Value) (s : State) : Host.Outcome State Fault Refusal :=
  .next (storePacket ⟨h, "stateZone", p⟩ s)

/-- `stateMultiZone` received (spec/42_message_types.md R120, spec/43_commands.md R143). -/
def execStateMultiZone (h : Header) (p : Value) (s : State) : Host.Outcome State Fault Refusal :=
  .next (storePacket ⟨h, "stateMultiZone", p⟩ s)

/-- `stateDeviceChain` received (spec/42_message_types.md R121, spec/43_commands.md R143). -/
def execStateDeviceChain (h : Header) (p : Value) (s : State) : Host.Outcome State Fault Refusal :=
  .next (storePacket ⟨h, "stateDeviceChain", p⟩ s)

/-- `stateTileState64` received (spec/42_message_types.md R122, spec/43_commands.md R143). -/
def execStateTileState64 (h : Header) (p : Value) (s : State) : Host.Outcome State Fault Refusal :=
  .next (storePacket ⟨h, "stateTileState64", p⟩ s)

/-- `setTileState64` received (spec/42_message_types.md R123, spec/43_commands.md R143). -/
def execSetTileState64 (h : Header) (p : Value) (s : State) : Host.Outcome State Fault Refusal :=
  .next (storePacket ⟨h, "setTileState64", p⟩ s)

end Sys2Proof.Machine
end

