-- ==== Sys2Proof/Machine/Dispatch.lean ====
section
/-!
DEFINITION. One arm per instruction: each row of spec/opcode_table.json to its meaning.
-/

namespace Sys2Proof.Machine

def exec (i : Instr) (s : State) : Host.Outcome State Fault Refusal :=
  match i with
  | .hdr h => Sys2Proof.Machine.execHdr h s
  | .getService h p => Sys2Proof.Machine.execGetService h p s
  | .stateService h p => Sys2Proof.Machine.execStateService h p s
  | .setPower h p => Sys2Proof.Machine.execSetPower h p s
  | .statePower h p => Sys2Proof.Machine.execStatePower h p s
  | .setLabel h p => Sys2Proof.Machine.execSetLabel h p s
  | .stateLabel h p => Sys2Proof.Machine.execStateLabel h p s
  | .acknowledgement h p => Sys2Proof.Machine.execAcknowledgement h p s
  | .setColor h p => Sys2Proof.Machine.execSetColor h p s
  | .getColorZones h p => Sys2Proof.Machine.execGetColorZones h p s
  | .stateZone h p => Sys2Proof.Machine.execStateZone h p s
  | .stateMultiZone h p => Sys2Proof.Machine.execStateMultiZone h p s
  | .stateDeviceChain h p => Sys2Proof.Machine.execStateDeviceChain h p s
  | .stateTileState64 h p => Sys2Proof.Machine.execStateTileState64 h p s
  | .setTileState64 h p => Sys2Proof.Machine.execSetTileState64 h p s
  | .nop => Sys2Proof.Machine.execNop s
  | .encode => Sys2Proof.Machine.execEncode s
  | .decode => Sys2Proof.Machine.execDecode s
  | .parse => Sys2Proof.Machine.execParse s

end Sys2Proof.Machine
end

