-- ==== Sys2Proof/Machine/HostPort.lean ====
section
/-!
DEFINITION. What the host and the environment do between commands (spec/70_reset_and_hazards.md R185, R190 to R194,
spec/20_memory.md R39, spec/10_state.md R12, R14, R19).
-/

namespace Sys2Proof.Machine

/-- A host write to a field of `ER`; the field is written from now on (spec/10_state.md R14, R23). -/
def writeEr (w : ErWrite) (s : State) : State :=
  match w with
  | .name v => { s with er := { s.er with name := v }, erWritten := { s.erWritten with name := true } }
  | .source v => { s with er := { s.er with source := v }, erWritten := { s.erWritten with source := true } }
  | .target v => { s with er := { s.er with target := v }, erWritten := { s.erWritten with target := true } }
  | .tagged v => { s with er := { s.er with tagged := v }, erWritten := { s.erWritten with tagged := true } }
  | .ackRequired v =>
    { s with er := { s.er with ackRequired := v }, erWritten := { s.erWritten with ackRequired := true } }
  | .resRequired v =>
    { s with er := { s.er with resRequired := v }, erWritten := { s.erWritten with resRequired := true } }
  | .sequence v => { s with er := { s.er with sequence := v }, erWritten := { s.erWritten with sequence := true } }
  | .payload v => { s with er := { s.er with payload := v }, erWritten := { s.erWritten with payload := true } }

/-- One host action (spec/70_reset_and_hazards.md R185, R190, R193). A read changes nothing (spec/20_memory.md R36); one at
or above a valid length is refused (spec/93_implementation_defined.md U3), and so is a length above `RXMAX` (U7); a write past
the end of RXBUF faults. Log entries 15 and 20 (DEDUCED, safe). A read of RXBUF below RXLEN completes, of a byte that nothing
has written since reset too: spec/20_memory.md R30, spec/10_state.md R10 and spec/70_reset_and_hazards.md R190 list no host read
of RXBUF, while U3 and spec/60_exceptions.md R163 imply one. Log entry 23 (DESIGN CHOICE, unsafe). -/
def hostAct (a : HostAction) (s : State) : Host.Outcome State Fault Refusal :=
  match a with
  | .writeRx address bytes =>
    if address + bytes.length ≤ s.cfg.rxMax then .next { s with rxbuf := Memory.write s.rxbuf address bytes }
    else .fault .rxAddress
  | .writeRxLen n =>
    if n ≤ s.cfg.rxMax then .next { s with rxlen := BitVec.ofNat 16 n } else .refused .rxlenAboveRxmax
  | .writeEr w => .next (writeEr w s)
  | .writeCmd w => .next { s with cmdOp := BitVec.ofNat 2 w, phase := .command }
  | .readTx address => if address < s.txlen.toNat then .next s else .refused .readPastTxlen
  | .readOutq index => if index < s.outn.toNat then .next s else .refused .readPastOutn
  | .readRx address => if address < s.rxlen.toNat then .next s else .refused .readPastRxlen
  | .reset => .next (State.resetWith s.cfg s.inbox (s.epoch + 1))

/-- What the block does between commands: it takes the host's next action, and where there is none it does nothing
(spec/70_reset_and_hazards.md R187). Log entry 16 (DEDUCED, safe). -/
def idleStep (s : State) : Host.Outcome State Fault Refusal :=
  match s.inbox with
  | [] => .next s
  | a :: rest => hostAct a { s with inbox := rest }

end Sys2Proof.Machine
end

