-- ==== Sys2Proof/Machine/Fetch.lean ====
section
/-!
DEFINITION. Fetching: what the codec engine runs next, from its phase, `CMD` and the bytes of RXBUF at the frame cursor
(spec/10_state.md R17, R19, spec/30_encoding.md R53).
-/

namespace Sys2Proof.Machine

/-- What a step runs. -/
inductive Fetched where
  /-- nothing: the host acts -/
  | idle
  /-- a frame that the frame step refuses -/
  | reject (r : FormatReject)
  /-- a packet of a registered type that the opcode table has no row for -/
  | unlisted (r : PacketRecord)
  /-- an instruction -/
  | instr (i : Instr)
  deriving DecidableEq, Repr

/-- The fetched instruction: the command in `CMD` (spec/10_state.md R19), the header at CUR, or the packet at CUR
(spec/30_encoding.md R53, spec/43_commands.md R143). -/
def fetch (s : State) : Fetched :=
  match s.phase with
  | .idle => .idle
  | .command => .instr (decodeCommand s.cmdOp.toNat)
  | .header _ =>
    match decodeHdr s.cfg (rxRest s) with
    | .error r => .reject r
    | .ok i => .instr i
  | .payload single =>
    match decodeFrame s.cfg single (rxRest s) with
    | .error r => .reject r
    | .ok r =>
      match Instr.ofPacket r with
      | some i => .instr i
      | none => .unlisted r

/-- `s` with the frame in RXBUF at CUR and RXLEN at its end. -/
def placeFrame (frame : List Byte) (s : State) : State :=
  { s with
    rxbuf := Memory.write s.rxbuf s.cur.toNat frame
    rxlen := BitVec.ofNat 16 (s.cur.toNat + frame.length) }

end Sys2Proof.Machine
end

