-- ==== Sys2Proof/Machine/Step.lean ====
section
/-!
DEFINITION. One step of the block: what the host does next where it is idle; else the instruction that is fetched, the command
in `CMD`, the header at CUR or the packet at CUR.
-/

namespace Sys2Proof.Machine

/-- One step. A machine whose parameters are not well-formed is outside the spec (spec/30_encoding.md R55). A frame whose
decoding rejects it raises FormatError (spec/43_commands.md R143). A packet of a registered type that spec/opcode_table.json
has no row for does what every packet does (spec/42_message_types.md R125). Log entry 17 (DEDUCED, safe). -/
def step (s : State) : Host.Outcome State Fault Refusal :=
  if s.cfg.wf then
    match fetch s with
    | .idle => idleStep s
    | .reject r => .next (raiseFormat r s)
    | .unlisted r => .next (storePacket r s)
    | .instr i => exec i s
  else .refused .illFormedConfig

/-- `s` with the instruction of a table word where the next step fetches it: in `CMD` for a command, at CUR of RXBUF for a
header or a packet, with RXLEN at its end (spec/30_encoding.md R67). Log entry 9 (DESIGN CHOICE, safe). -/
def State.withFetchWord (s : State) (nbits w : Nat) : State :=
  match tableSpace nbits w with
  | none => s
  | some .command => { s with cmdOp := BitVec.ofNat 2 w, phase := .command }
  | some .header => placeFrame (tableBytes s.cfg nbits w) { s with phase := .header false }
  | some .packet => placeFrame (tableBytes s.cfg nbits w) { s with phase := .payload false }

end Sys2Proof.Machine
end

