-- ==== Sys2Proof/WellFormed.lean ====
section
/-!
DEFINITION. Well-formed instructions: those the encoder writes and the decoder reads back. Every check rests on the shape
and range checks ENCODE makes (spec/43_commands.md R131, R132, spec/41_field_codecs.md R85 to R99).
-/

namespace Sys2Proof

/-- Why a packet is not well-formed. -/
inductive IllFormed where
  /-- the type name is in no registry entry (spec/60_exceptions.md R162 `V_UNKNOWN_NAME`) -/
  | unknownName
  /-- the header's `type` is not the id of the entry (spec/40_header.md R71) -/
  | wrongType
  /-- the payload does not have the shape of the type (spec/41_field_codecs.md R99) -/
  | shape
  /-- a payload member is rejected by its codec (spec/41_field_codecs.md R85 to R98) -/
  | field (r : ValidationReject)
  /-- the header's `size` is not 36 plus the payload length (spec/30_encoding.md R51) -/
  | wrongSize
  /-- the payload's members do not stand in wire order (log entry 6 (DESIGN CHOICE, safe)) -/
  | memberOrder
  deriving DecidableEq, Repr

/-- The first check that a packet fails. -/
def packetProblem (cfg : Config) (r : PacketRecord) : Option IllFormed :=
  match lookupName cfg.reg r.name with
  | none => some .unknownName
  | some e =>
    if r.hdr.msgType ≠ e.id then some .wrongType
    else if shape e.desc r.payload = false then some .shape
    else
      match enc cfg e.desc r.payload 36 with
      | .error v => some (.field v)
      | .ok b =>
        if r.hdr.size.toNat ≠ 36 + b.length then some .wrongSize
        else if canon e.desc r.payload ≠ r.payload then some .memberOrder
        else none

/-- The first check that an instruction fails: a packet is checked as above; a header and a command have no ill-formed
form, their fields being as wide as the word's. -/
def Instr.problem (cfg : Config) (i : Instr) : Option IllFormed :=
  match i.packet with
  | some r => packetProblem cfg r
  | none => none

/-- The instruction is well-formed. -/
def Instr.wellFormed (cfg : Config) (i : Instr) : Bool := i.problem cfg == none

end Sys2Proof
end

