-- ==== Sys2Proof/Safety.lean ====
section
/-!
DEFINITION. What a good state and a good outcome of PKTCODEC are, in the terms the statements use: a legal STATUS
(spec/10_state.md R20, spec/60_exceptions.md R161, R162), a record that its type admits (spec/10_state.md R16), the invariant
of the machine, and the parts of the state that a command leaves alone.
-/

namespace Sys2Proof.Machine

/-- A value of STATUS that a command can write: no error; a FormatError whose EINFO is 0 unless the cause is F_UNKNOWN_TYPE or
F_LENGTH; a ValidationError whose EOFF is 0 where the cause is V_UNKNOWN_NAME or V_SHAPE (spec/10_state.md R20). -/
def StatusLegal (st : Status) : Prop :=
  st = statusNone ∨
    (∃ c off info, st = statusFormat c off info ∧ (c ≠ .unknownType → c ≠ .length → info = 0)) ∨
    (∃ c off, st = statusValidation c off ∧ (c = .unknownName ∨ c = .shape → off = 0))

/-- A packet record as the frame step stores it: its type is in the registry under its name, its size is one the type declares
and its payload has the shape of the type (spec/10_state.md R16, spec/41_field_codecs.md R101). -/
def recordOk (cfg : Config) (r : PacketRecord) : Bool :=
  match lookupId cfg.reg r.hdr.msgType with
  | none => false
  | some e => e.name == r.name && sizesOk e.desc r.hdr.size.toNat && shape e.desc r.payload

/-- The sum of the `size` fields of the records (spec/43_commands.md R145). -/
def sizeSum : List PacketRecord → Nat
  | [] => 0
  | r :: rest => r.hdr.size.toNat + sizeSum rest

/-- The engine is inside a DECODE or PARSE: a phase the host never sees (spec/20_memory.md R38). -/
def Phase.inFrames : Phase → Bool
  | .header _ => true
  | .payload _ => true
  | _ => false

/-- The two memories are in canonical form and inside their address spaces (spec/20_memory.md R30). -/
structure MemoryOk (s : State) : Prop where
  rxCanonical : Memory.wf s.rxbuf
  rxInside : ∀ c ∈ s.rxbuf, c.1 < s.cfg.rxMax
  txCanonical : Memory.wf s.txbuf
  txInside : ∀ c ∈ s.txbuf, c.1 < s.cfg.txMax

/-- The invariant of the machine. -/
structure Inv (s : State) : Prop where
  /-- the parameters and the registry are well-formed (spec/00_scope.md R4, spec/30_encoding.md R55) -/
  config : s.cfg.wf = true
  memory : MemoryOk s
  /-- `RXLEN <= RXMAX` (spec/10_state.md R12) -/
  rxlen : s.rxlen.toNat ≤ s.cfg.rxMax
  /-- TXLEN is 0 or at least 36 and fits TXBUF (spec/10_state.md R13, spec/43_commands.md R133) -/
  txlen : s.txlen.toNat ≤ s.cfg.txMax ∧ (s.txlen = 0 ∨ 36 ≤ s.txlen.toNat)
  /-- every byte of the packet in TXBUF has a value (spec/10_state.md R13) -/
  packet : ∀ a, a < s.txlen.toNat → (Memory.read s.txbuf a).isSome = true
  /-- OUTN counts the valid records and is at most FMAX (spec/10_state.md R15) -/
  queue : s.outq.length = s.outn.toNat ∧ s.outn.toNat ≤ s.cfg.fmax
  records : ∀ r ∈ s.outq, recordOk s.cfg r = true
  status : StatusLegal s.status
  /-- after a FormatError no record is valid and EOFF is CUR (spec/60_exceptions.md R166, spec/10_state.md R17) -/
  formatError : s.status.err = 1 → s.outn = 0 ∧ s.status.eoff = s.cur
  /-- after a ValidationError there is no packet (spec/60_exceptions.md R167) -/
  validationError : s.status.err = 2 → s.txlen = 0
  /-- inside DECODE or PARSE: no error yet, CUR is at most RXLEN, FCNT = OUTN, and the frames passed fill the bytes below CUR
  (spec/10_state.md R17, R18, spec/43_commands.md R142, R143) -/
  frames : s.phase.inFrames = true →
    s.status = statusNone ∧ s.cur.toNat ≤ s.rxlen.toNat ∧ s.fcnt = s.outn ∧ sizeSum s.outq = s.cur.toNat

/-- Nothing that ENCODE must leave alone differs: the parameters, RXBUF, RXLEN, `ER`, OUTQ, OUTN, CUR, FCNT
(spec/43_commands.md R134), nor CMD and the model's own fields but the phase. -/
structure SameButTx (s t : State) : Prop where
  cfg : t.cfg = s.cfg
  rxbuf : t.rxbuf = s.rxbuf
  rxlen : t.rxlen = s.rxlen
  er : t.er = s.er
  erWritten : t.erWritten = s.erWritten
  outq : t.outq = s.outq
  outn : t.outn = s.outn
  cur : t.cur = s.cur
  fcnt : t.fcnt = s.fcnt
  cmdOp : t.cmdOp = s.cmdOp
  inbox : t.inbox = s.inbox
  epoch : t.epoch = s.epoch

/-- Nothing that DECODE and PARSE must leave alone differs: the parameters, RXBUF, RXLEN, `ER`, TXBUF, TXLEN
(spec/43_commands.md R141, R145), nor CMD and the model's own fields but the phase. -/
structure SameButOut (s t : State) : Prop where
  cfg : t.cfg = s.cfg
  rxbuf : t.rxbuf = s.rxbuf
  rxlen : t.rxlen = s.rxlen
  txbuf : t.txbuf = s.txbuf
  txlen : t.txlen = s.txlen
  er : t.er = s.er
  erWritten : t.erWritten = s.erWritten
  cmdOp : t.cmdOp = s.cmdOp
  inbox : t.inbox = s.inbox
  epoch : t.epoch = s.epoch

/-- The frames `rs` stand back to back at the start of the bytes and `rest` follows them (spec/30_encoding.md R52,
spec/43_commands.md R142). -/
inductive Frames (cfg : Config) : List Byte → List PacketRecord → List Byte → Prop where
  | none (s : List Byte) : Frames cfg s [] s
  | frame {s rest : List Byte} {r : PacketRecord} {rs : List PacketRecord} (h : decodeFrame cfg false s = .ok r)
      (t : Frames cfg (s.drop r.hdr.size.toNat) rs rest) : Frames cfg s (r :: rs) rest

/-- The record of an HSBK colour (spec/41_field_codecs.md R94). -/
def hsbkValue (hue saturation brightness kelvin : Int) : Value :=
  .record (.ofList [("hue", .int hue), ("saturation", .int saturation), ("brightness", .int brightness),
    ("kelvin", .int kelvin)])

/-- The parameters with the whole 16-bit range for kelvin: what a receiver accepts (spec/90_conflicts.md C3). -/
def anyKelvin (cfg : Config) : Config := { cfg with kelvinMin := 0, kelvinMax := 65535 }

/-- A good outcome of a command: a next state in which the block is ready for the next command (spec/43_commands.md R148). -/
def Completes (o : Host.Outcome State Fault Refusal) : Prop := ∃ t, o = .next t ∧ t.phase = .idle

end Sys2Proof.Machine
end

