-- ==== Sys2Proof/Certificates/Slice0/Obligations.lean ====
section
/-!
DEFINITION. The statements about the model. Each docstring names the rules of spec/ it formalises, and says where it rests on
a choice of the model.
-/

open Sys2Proof Sys2Proof.Machine

/-! ## Reset, registers, host -/

/-- Spec R23, R186: the state after reset, for every parameter record: the registers are 0, no field of ER is written, there
is no datagram to read, and the host can read no byte of a packet and no record. The model's choices in it: `State.reset` is the
reset state with the default parameters (log entry 8), no host action to come (log entry 1) and the epoch 0 (log entry 4). That
the default parameters are well-formed is the spec's own inference (R55: `REG_DEFAULT` satisfies all seven). -/
def Obligations.ResetLeavesEveryElementAtItsValue : Prop :=
  ∀ (cfg : Config) (l : List HostAction) (n : Nat),
    let s := State.resetWith cfg l n
    s.cfg = cfg ∧ s.rxlen = 0 ∧ datagram s = [] ∧ s.txlen = 0 ∧ (∀ a, hostTx s a = none) ∧
      s.erWritten = ⟨false, false, false, false, false, false, false, false⟩ ∧ s.outn = 0 ∧
      (∀ k, hostRecord s k = none) ∧ s.cur = 0 ∧ s.fcnt = 0 ∧ s.cmdOp = 0 ∧ statusWord s.status = 0 ∧
      State.reset = State.resetWith Config.default [] 0 ∧ Config.default.wf = true

/-- Spec R185, R187: the reset event between commands puts the block in the reset state, and a block for which the host does
nothing does nothing. The model's choices in it: the host's actions as a list (log entry 1), the epoch (log entry 4), the
values in ER's unwritten fields (log entry 5), what reset keeps (log entry 20), the step that stays as it is (log entry 16). -/
def Obligations.ResetEventStartsNothing : Prop :=
  ∀ (s : State) (rest : List HostAction), s.cfg.wf = true → s.phase = .idle → s.inbox = .reset :: rest →
    ∃ t, step s = .next t ∧ t = State.resetWith s.cfg rest (s.epoch + 1) ∧ (rest = [] → step t = .next t)

/-- Spec R56, R58: names, ids and packet sizes of the default registry (log entry 8); that it is well-formed is the spec's own
inference (R55). -/
def Obligations.DefaultRegistryNamesIdsAndSizes : Prop :=
  Config.default.reg.map (fun e => (e.name, e.id.toNat, 36 + e.desc.minSize, 36 + e.desc.maxSize)) =
    [("getService", 2, 36, 36), ("stateService", 3, 41, 41), ("setPower", 21, 38, 38), ("statePower", 22, 38, 38),
     ("setLabel", 24, 68, 68), ("stateLabel", 25, 68, 68), ("acknowledgement", 45, 36, 36), ("setColor", 102, 49, 49),
     ("getColorZones", 502, 38, 38), ("stateZone", 503, 46, 46), ("stateMultiZone", 506, 46, 102),
     ("stateDeviceChain", 702, 918, 918), ("stateTileState64", 711, 553, 553), ("setTileState64", 715, 558, 558)] ∧
    Config.default.wf = true

/-- Spec R20: the places of the fields in the word the host reads. -/
def Obligations.StatusWordHasItsFieldsInPlace : Prop :=
  ∀ st : Status,
    (statusWord st).extractLsb' 0 2 = st.err ∧ (statusWord st).extractLsb' 2 8 = st.cause ∧
      (statusWord st).extractLsb' 10 16 = st.eoff ∧ (statusWord st).extractLsb' 26 16 = st.einfo

/-- Spec R19: a write to CMD starts the command its two low bits name; the next step runs the whole command. -/
def Obligations.CmdWriteRunsTheNamedCommand : Prop :=
  ∀ (s : State) (w : Nat) (rest : List HostAction),
    s.cfg.wf = true → s.phase = .idle → s.inbox = .writeCmd w :: rest →
      ∃ t, step s = .next t ∧
        t = { s with inbox := rest, cmdOp := BitVec.ofNat 2 w, phase := .command } ∧
        (w % 4 = 0 → step t = exec .nop t) ∧ (w % 4 = 1 → step t = exec .encode t) ∧
        (w % 4 = 2 → step t = exec .decode t) ∧ (w % 4 = 3 → step t = exec .parse t)

/-- Spec R12, R30, R14, R39, U7: a host write to RXBUF changes the bytes it names and nothing else; a write of RXLEN above RXMAX
is refused; a write to a field of ER gives it the value, marks it written, and changes nothing else. The fault of a write that
passes the end of RXBUF (rxAddress) is the model's (log entry 15); so is the list of host actions (log entry 1). -/
def Obligations.HostWritesOfTheDatagram : Prop :=
  ∀ (s : State) (rest : List HostAction), s.cfg.wf = true → s.phase = .idle →
    (∀ a bs, s.inbox = .writeRx a bs :: rest →
      (a + bs.length ≤ s.cfg.rxMax →
        ∃ t, step s = .next t ∧ t = { s with inbox := rest, rxbuf := t.rxbuf } ∧
          ∀ x, Memory.read t.rxbuf x = if a ≤ x ∧ x < a + bs.length then bs[x - a]? else Memory.read s.rxbuf x) ∧
      (s.cfg.rxMax < a + bs.length → step s = .fault .rxAddress)) ∧
    (∀ n, s.inbox = .writeRxLen n :: rest →
      (n ≤ s.cfg.rxMax → ∃ t, step s = .next t ∧ t = { s with inbox := rest, rxlen := t.rxlen } ∧ t.rxlen.toNat = n) ∧
      (s.cfg.rxMax < n → step s = .refused .rxlenAboveRxmax)) ∧
    (∀ v, s.inbox = .writeEr (.name v) :: rest → step s =
      .next { s with inbox := rest, er := { s.er with name := v }, erWritten := { s.erWritten with name := true } }) ∧
    (∀ v, s.inbox = .writeEr (.source v) :: rest → step s =
      .next { s with inbox := rest, er := { s.er with source := v }, erWritten := { s.erWritten with source := true } }) ∧
    (∀ v, s.inbox = .writeEr (.target v) :: rest → step s =
      .next { s with inbox := rest, er := { s.er with target := v }, erWritten := { s.erWritten with target := true } }) ∧
    (∀ v, s.inbox = .writeEr (.tagged v) :: rest → step s =
      .next { s with inbox := rest, er := { s.er with tagged := v }, erWritten := { s.erWritten with tagged := true } }) ∧
    (∀ v, s.inbox = .writeEr (.ackRequired v) :: rest → step s =
      .next { s with
        inbox := rest, er := { s.er with ackRequired := v }, erWritten := { s.erWritten with ackRequired := true } }) ∧
    (∀ v, s.inbox = .writeEr (.resRequired v) :: rest → step s =
      .next { s with
        inbox := rest, er := { s.er with resRequired := v }, erWritten := { s.erWritten with resRequired := true } }) ∧
    (∀ v, s.inbox = .writeEr (.sequence v) :: rest → step s =
      .next { s with inbox := rest, er := { s.er with sequence := v }, erWritten := { s.erWritten with sequence := true } }) ∧
    (∀ v, s.inbox = .writeEr (.payload v) :: rest → step s =
      .next { s with inbox := rest, er := { s.er with payload := v }, erWritten := { s.erWritten with payload := true } })

/-- Spec R193, U3: a host read at or above a valid length is refused; one below it changes nothing. That a read of RXBUF is
an action, accepted at every address below RXLEN (of a byte that nothing has written since reset too), is the model's choice
(log entry 23). -/
def Obligations.HostReadsOnlyValidResults : Prop :=
  ∀ (s : State) (rest : List HostAction) (k : Nat), s.cfg.wf = true → s.phase = .idle →
    (s.inbox = .readTx k :: rest →
      (k < s.txlen.toNat → step s = .next { s with inbox := rest }) ∧
      (s.txlen.toNat ≤ k → step s = .refused .readPastTxlen)) ∧
    (s.inbox = .readOutq k :: rest →
      (k < s.outn.toNat → step s = .next { s with inbox := rest }) ∧
      (s.outn.toNat ≤ k → step s = .refused .readPastOutn)) ∧
    (s.inbox = .readRx k :: rest →
      (k < s.rxlen.toNat → step s = .next { s with inbox := rest }) ∧
      (s.rxlen.toNat ≤ k → step s = .refused .readPastRxlen))

/-! ## Codecs -/

/-- Spec R32, R100 laws 2 and 3: little-endian bytes and two's complement lose nothing. -/
def Obligations.IntegerByteLaws : Prop :=
  (∀ n v, v < 256 ^ n → unle (leBytes n v) = v ∧ (leBytes n v).length = n ∧
    ∀ i, i < n → (leBytes n v)[i]? = some (BitVec.ofNat 8 (v / 256 ^ i))) ∧
  (∀ s : List Byte, leBytes s.length (unle s) = s) ∧
  (∀ v : Int, -32768 ≤ v → v ≤ 32767 → sext 16 (twos 16 v) = v)

/-- Spec R85 to R90: the integer codecs. An integer in range gives its little-endian bytes and decodes back; one out of range
is V_RANGE at the field's offset. -/
def Obligations.IntegerCodecsCheckEncodeAndDecode : Prop :=
  ∀ (cfg : Config) (v : Int) (off : Nat) (rest : List Byte) (k : Scalar) (lo hi : Int) (n : Nat),
    (k, lo, hi, n) ∈
      [(Scalar.u8, (0 : Int), (255 : Int), 1), (Scalar.u16, 0, 65535, 2), (Scalar.u32, 0, 4294967295, 4),
       (Scalar.u64, 0, 18446744073709551615, 8), (Scalar.i16, -32768, 32767, 2), (Scalar.f32, 0, 4294967295, 4)] →
    (lo ≤ v ∧ v ≤ hi →
      enc cfg (.int k) (.int v) off = .ok (leBytes n (twos (8 * n) v)) ∧
        dec (.int k) (leBytes n (twos (8 * n) v) ++ rest) = .int v) ∧
    (¬(lo ≤ v ∧ v ≤ hi) → enc cfg (.int k) (.int v) off = .error ⟨.range, off⟩) ∧
    dec (.int k) rest = .int (if lo < 0 then sext 16 (unle (rest.take n)) else unle (rest.take n))

/-- Spec R96, R91, R99: the members of a STRUCT are written in list order, each at the offset where the bytes before it end, and
the first that is rejected is the one reported; DEC reads them in the same order. A reserved member takes no value, is written
as zeros and skipped whatever it holds. A value has the shape of a STRUCT with distinct names exactly when it is a record of
the names of the members that are not reserved, each with its shape: one that misses a member, has another, has a value for a
reserved member or has one of the wrong kind does not; and so for the other descriptors. ENCODE tests the shape before any
range. -/
def Obligations.StructAndReservedCodecs : Prop :=
  (∀ (cfg : Config) (fs : Fields) (off : Nat), enc cfg (.struct .nil) (.record fs) off = .ok []) ∧
  (∀ s, dec (.struct .nil) s = .record .nil) ∧
  (∀ (cfg : Config) (n : String) (d : Desc) (rest : Members) (fs : Fields) (v : Value) (off : Nat), d.isRsv = false →
    fs.lookup n = some v →
      (∀ r, enc cfg d v off = .error r → enc cfg (.struct (.cons n d rest)) (.record fs) off = .error r) ∧
      ∀ b, enc cfg d v off = .ok b →
        (∀ r, enc cfg (.struct rest) (.record fs) (off + b.length) = .error r →
          enc cfg (.struct (.cons n d rest)) (.record fs) off = .error r) ∧
        ∀ out, enc cfg (.struct rest) (.record fs) (off + b.length) = .ok out →
          enc cfg (.struct (.cons n d rest)) (.record fs) off = .ok (b ++ out)) ∧
  (∀ (n : String) (d : Desc) (rest : Members) (s : List Byte), d.isRsv = false → ∃ fs,
    dec (.struct rest) (s.drop d.size) = .record fs ∧
      dec (.struct (.cons n d rest)) s = .record (.cons n (dec d s) fs)) ∧
  (∀ (cfg : Config) (name : String) (k off : Nat) (v : Value) (rest : Members) (fs : Fields),
    enc cfg (.rsv k) v off = .ok (List.replicate k 0) ∧
    (∀ r, enc cfg (.struct rest) (.record fs) (off + k) = .error r →
      enc cfg (.struct (.cons name (.rsv k) rest)) (.record fs) off = .error r) ∧
    (∀ out, enc cfg (.struct rest) (.record fs) (off + k) = .ok out →
      enc cfg (.struct (.cons name (.rsv k) rest)) (.record fs) off = .ok (List.replicate k 0 ++ out)) ∧
    (∀ a s : List Byte, a.length = k →
      dec (.struct (.cons name (.rsv k) rest)) (a ++ s) = dec (.struct rest) s)) ∧
  (∀ (ms : List (String × Desc)) (fs : List (String × Value)),
    let taken := ms.filter (fun m => !m.2.isRsv)
    ((taken.map Prod.fst).Nodup →
      (shape (.struct (.ofList ms)) (.record (.ofList fs)) = true ↔
        (fs.map Prod.fst).Perm (taken.map Prod.fst) ∧
          ∀ n d v, (n, d) ∈ taken → (n, v) ∈ fs → shape d v = true)) ∧
    ∀ n k v, (ms.map Prod.fst).Nodup → (n, .rsv k) ∈ ms → (n, v) ∈ fs →
      shape (.struct (.ofList ms)) (.record (.ofList fs)) = false) ∧
  (∀ (d : Desc) (names : List String),
    (d, names) ∈
      [(Desc.hsbk, ["hue", "saturation", "brightness", "kelvin"]),
       (.tile, ["accelMeasX", "accelMeasY", "accelMeasZ", "userX", "userY", "width", "height", "deviceVersionVendor",
         "deviceVersionProduct", "deviceVersionVersion", "firmwareBuild", "firmwareVersionMinor",
         "firmwareVersionMajor"])] →
    ∀ fs : List (String × Value), shape d (.record (.ofList fs)) = true ↔
      (fs.map Prod.fst).Perm names ∧ ∀ n v, (n, v) ∈ fs → ∃ i, v = .int i) ∧
  (∀ d v, d = .hsbk ∨ d = .tile ∨ (∃ ms, d = .struct ms) → shape d v = true → ∃ fs, v = .record (.ofList fs)) ∧
  (∀ k v, shape (.int k) v = true ↔ ∃ i, v = .int i) ∧
  (∀ v, shape .str32 v = true ↔ ∃ b, v = .bytes b) ∧
  (∀ e d v, (∃ n, e = .arr d n) ∨ (∃ min max, e = .varr d min max) →
    (shape e v = true ↔ ∃ vs : List Value, v = .list (.ofList vs) ∧ ∀ x ∈ vs, shape d x = true)) ∧
  ∀ (cfg : Config) (er : EncodeRequest) (e : Entry), lookupName cfg.reg er.name = some e →
    shape e.desc er.payload = false → encodeRequest cfg er = .error ⟨.shape, 0⟩

/-- Spec R92: labels. -/
def Obligations.LabelCodec : Prop :=
  ∀ (cfg : Config) (b rest : List Byte) (off : Nat),
    (32 < b.length → enc cfg .str32 (.bytes b) off = .error ⟨.stringLen, off⟩) ∧
    (b.length ≤ 32 → 0 ∈ b → enc cfg .str32 (.bytes b) off = .error ⟨.stringNul, off⟩) ∧
    (b.length ≤ 32 → 0 ∉ b →
      enc cfg .str32 (.bytes b) off = .ok (b ++ List.replicate (32 - b.length) 0) ∧
        dec .str32 (b ++ List.replicate (32 - b.length) 0 ++ rest) = .bytes b ∧
        ∀ c : List Byte, b.length < 32 → dec .str32 (b ++ 0 :: c) = .bytes b)

/-- Spec R94: the HSBK colour and the kelvin codec on its own; the kelvin range is checked on encode only. -/
def Obligations.HsbkCodec : Prop :=
  (∀ (cfg : Config) (k : Int) (off : Nat),
    enc cfg (.int .kelvin) (.int k) off =
      if (cfg.kelvinMin : Int) ≤ k ∧ k ≤ cfg.kelvinMax then .ok (leBytes 2 k.toNat) else .error ⟨.range, off⟩) ∧
  (∀ s, dec (.int .kelvin) s = .int (unle (s.take 2))) ∧
  ∀ (cfg : Config) (h s b k : Int) (off : Nat),
    (enc cfg .hsbk (hsbkValue h s b k) off =
      if ¬(0 ≤ h ∧ h ≤ 65535) then .error ⟨.range, off⟩
      else if ¬(0 ≤ s ∧ s ≤ 65535) then .error ⟨.range, off + 2⟩
      else if ¬(0 ≤ b ∧ b ≤ 65535) then .error ⟨.range, off + 4⟩
      else if ¬((cfg.kelvinMin : Int) ≤ k ∧ k ≤ cfg.kelvinMax) then .error ⟨.range, off + 6⟩
      else .ok (leBytes 2 h.toNat ++ leBytes 2 s.toNat ++ leBytes 2 b.toNat ++ leBytes 2 k.toNat)) ∧
    ∀ t : List Byte,
      dec .hsbk t =
        hsbkValue (unle (t.take 2)) (unle ((t.drop 2).take 2)) (unle ((t.drop 4).take 2)) (unle ((t.drop 6).take 2))

/-- Spec R95: TILE is the STRUCT of the rule's table, 55 bytes; the spec's example record encodes to the spec's 55 bytes and
decodes back. -/
def Obligations.TileIsTheStructOfItsTable : Prop :=
  let table : Desc := .struct (.ofList
    [("accelMeasX", .int .i16), ("accelMeasY", .int .i16), ("accelMeasZ", .int .i16), ("_6", .rsv 2),
     ("userX", .int .f32), ("userY", .int .f32), ("width", .int .u8), ("height", .int .u8), ("_18", .rsv 1),
     ("deviceVersionVendor", .int .u32), ("deviceVersionProduct", .int .u32), ("deviceVersionVersion", .int .u32),
     ("firmwareBuild", .int .u64), ("_39", .rsv 8), ("firmwareVersionMinor", .int .u16),
     ("firmwareVersionMajor", .int .u16), ("_51", .rsv 4)])
  let tile : Value := .record (.ofList
    [("accelMeasX", .int (-1)), ("accelMeasY", .int 2), ("accelMeasZ", .int (-32768)), ("userX", .int 0x3F800000),
     ("userY", .int 0xBF000000), ("width", .int 8), ("height", .int 8), ("deviceVersionVendor", .int 1),
     ("deviceVersionProduct", .int 55), ("deviceVersionVersion", .int 10), ("firmwareBuild", .int 0x0102030405060708),
     ("firmwareVersionMinor", .int 50), ("firmwareVersionMajor", .int 3)])
  let bytes : List Byte :=
    [0xff, 0xff, 0x02, 0x00, 0x00, 0x80, 0x00, 0x00, 0x00, 0x00, 0x80, 0x3f, 0x00, 0x00, 0x00, 0xbf, 0x08, 0x08, 0x00,
     0x01, 0x00, 0x00, 0x00, 0x37, 0x00, 0x00, 0x00, 0x0a, 0x00, 0x00, 0x00, 0x08, 0x07, 0x06, 0x05, 0x04, 0x03, 0x02,
     0x01, 0x00, 0x00, 0x00, 0x00, 0x00, 0x00, 0x00, 0x00, 0x32, 0x00, 0x03, 0x00, 0x00, 0x00, 0x00, 0x00]
  table.size = 55 ∧ Desc.tile.size = 55 ∧
    (∀ (cfg : Config) (v : Value) (off : Nat), enc cfg .tile v off = enc cfg table v off ∧ shape .tile v = shape table v) ∧
    (∀ s, dec .tile s = dec table s) ∧
    (∀ off, enc Config.default .tile tile off = .ok bytes) ∧ dec .tile bytes = tile

/-- Spec R97, R98: arrays. A wrong number of elements is V_ARRAY_LEN at the array's offset before any element is looked at;
the first element that is rejected, each at its own offset, is the one reported; else the elements stand back to back. DEC
takes `n` elements, or as many as the bytes up to the frame's end give. -/
def Obligations.ArrayCodecs : Prop :=
  ∀ (cfg : Config) (d : Desc) (vs : List Value) (off : Nat),
    (∀ n, vs.length ≠ n → enc cfg (.arr d n) (.list (.ofList vs)) off = .error ⟨.arrayLen, off⟩) ∧
    (∀ min max, vs.length < min ∨ max < vs.length →
      enc cfg (.varr d min max) (.list (.ofList vs)) off = .error ⟨.arrayLen, off⟩) ∧
    (∀ x, (∃ n, n = vs.length ∧ x = enc cfg (.arr d n) (.list (.ofList vs)) off) ∨
        (∃ min max, min ≤ vs.length ∧ vs.length ≤ max ∧ x = enc cfg (.varr d min max) (.list (.ofList vs)) off) →
      (∀ outs : List (List Byte), outs.length = vs.length →
        (∀ i (h : i < vs.length) (h' : i < outs.length), enc cfg d vs[i] (off + i * d.size) = .ok outs[i]) →
        x = .ok outs.flatten) ∧
      (∀ i (h : i < vs.length) r, enc cfg d vs[i] (off + i * d.size) = .error r →
        (∀ j (h' : j < vs.length), j < i → ∃ b, enc cfg d vs[j] (off + j * d.size) = .ok b) → x = .error r)) ∧
    (∀ n s, dec (.arr d n) s = .list (.ofList ((List.range n).map (fun i => dec d (s.drop (i * d.size)))))) ∧
    (∀ min max m s, 1 ≤ d.size → s.length = m * d.size →
      dec (.varr d min max) s = .list (.ofList ((List.range m).map (fun i => dec d (s.drop (i * d.size))))))

/-- Spec R101: no payload content can make a decode fail: DEC gives a value of the descriptor's shape, each of whose integers is
in its declared width (ENC takes it, if kelvin may be any 16-bit value). -/
def Obligations.DecodedPayloadHasShapeAndWidths : Prop :=
  ∀ (cfg : Config) (d : Desc) (s : List Byte) (off : Nat), d.noVarr = true → d.namesOk = true →
    d.size ≤ s.length → shape d (dec d s) = true ∧ ∃ b, enc (anyKelvin cfg) d (dec d s) off = .ok b

/-- Spec R102: what ENC wrote, DEC reads back. Records are compared with their members in wire order (the model's form of
a record, log entry 6). -/
def Obligations.PayloadRoundTrip : Prop :=
  ∀ (cfg : Config) (d : Desc) (v : Value) (off : Nat) (s : List Byte), cfg.kelvinMax ≤ 65535 →
    shape d v = true → enc cfg d v off = .ok s →
      (d.noVarr = true → ∀ rest, dec d (s ++ rest) = canon d v) ∧
      (∀ e min max, d = .varr e min max → e.noVarr = true → 1 ≤ e.size → dec d s = canon d v) ∧
      (∀ ms, d = .struct ms → ms.varrLast = true → dec d s = canon d v)

/-- Model's choice of log entry 6, from spec R8: putting a record's members in wire order changes neither its shape nor what
ENC makes of it, and once is enough. -/
def Obligations.WireOrderIsTheSameRecord : Prop :=
  ∀ (cfg : Config) (d : Desc) (v : Value) (off : Nat), d.namesOk = true → shape d v = true →
    shape d (canon d v) = true ∧ enc cfg d (canon d v) off = enc cfg d v off ∧ canon d (canon d v) = canon d v

/-! ## Headers and frames -/

/-- Spec R70: the header operands are checked in wire order. -/
def Obligations.HeaderOperandsAreCheckedInWireOrder : Prop :=
  ∀ er : EncodeRequest,
    let tagged := er.tagged = 0 ∨ er.tagged = 1
    let source := 0 ≤ er.source ∧ er.source ≤ 2 ^ 32 - 1
    let ack := er.ackRequired = 0 ∨ er.ackRequired = 1
    let res := er.resRequired = 0 ∨ er.resRequired = 1
    let sequence := 0 ≤ er.sequence ∧ er.sequence ≤ 255
    (¬tagged → hdrCheck er = some ⟨.range, 2⟩) ∧
    (tagged → ¬source → hdrCheck er = some ⟨.range, 4⟩) ∧
    (tagged → source → ¬ack → hdrCheck er = some ⟨.range, 22⟩) ∧
    (tagged → source → ack → ¬res → hdrCheck er = some ⟨.range, 22⟩) ∧
    (tagged → source → ack → res → ¬sequence → hdrCheck er = some ⟨.range, 23⟩) ∧
    (tagged → source → ack → res → sequence → hdrCheck er = none)

/-- Spec R71: the 36 bytes HDR_BUILD writes, from the operands as integers. -/
def Obligations.HeaderBuildWritesTheSpecifiedBytes : Prop :=
  ∀ (cfg : Config) (er : EncodeRequest) (tid : Half) (plen : Nat) (t : List Byte),
    hdrCheck er = none → 36 + plen ≤ 65535 → t.length = 6 → (er.target = none ∧ t = zeros 6 ∨ er.target = some t) →
      headerBytes cfg (requestHeader cfg er tid plen) =
        leBytes 2 (36 + plen) ++
          leBytes 2 (cfg.protocol.toNat + cfg.addressable.toNat * 2 ^ 12 + er.tagged.toNat * 2 ^ 13 +
            cfg.origin.toNat * 2 ^ 14) ++
          leBytes 4 er.source.toNat ++ t ++ zeros 2 ++ zeros 6 ++
          leBytes 1 (er.ackRequired.toNat * 2 ^ cfg.ackBit.val + er.resRequired.toNat * 2 ^ cfg.resBit.val) ++
          leBytes 1 er.sequence.toNat ++ zeros 8 ++ leBytes 2 tid.toNat ++ zeros 2

/-- Spec R73: HDR_DEC reads back what HDR_BUILD wrote. -/
def Obligations.HeaderRoundTrip : Prop :=
  ∀ (cfg : Config) (er : EncodeRequest) (tid : Half) (plen : Nat) (rest : List Byte),
    cfg.ackBit ≠ cfg.resBit → hdrCheck er = none → 36 + plen ≤ 65535 → (∀ t, er.target = some t → t.length = 6) →
      let h := decodeHeader cfg (headerBytes cfg (requestHeader cfg er tid plen) ++ rest)
      h.size.toNat = 36 + plen ∧ h.protocol = cfg.protocol ∧ h.addressable = cfg.addressable ∧
        (h.tagged.toNat : Int) = er.tagged ∧ h.origin = cfg.origin ∧ (h.source.toNat : Int) = er.source ∧
        h.target.bytes = er.target.getD (zeros 6) ∧ (h.ackRequired.toNat : Int) = er.ackRequired ∧
        (h.resRequired.toNat : Int) = er.resRequired ∧ (h.sequence.toNat : Int) = er.sequence ∧ h.msgType = tid

/-- Spec R72, R33, and R61 for the header: each field that HDR_DEC returns is read from its own bytes and bits, and from no
reserved one; the reserved bytes and bits are written as zero. -/
def Obligations.HeaderFieldsComeFromTheirBitsAlone : Prop :=
  ∀ cfg : Config, cfg.ackBit ≠ cfg.resBit →
    (∀ s : List Byte, 36 ≤ s.length →
      let h := decodeHeader cfg s
      let w := unle ((s.drop 2).take 2)
      let f := unle ((s.drop 22).take 1)
      h.size.toNat = unle (s.take 2) ∧ h.protocol.toNat = w % 2 ^ 12 ∧ h.addressable.toNat = w / 2 ^ 12 % 2 ∧
        h.tagged.toNat = w / 2 ^ 13 % 2 ∧ h.origin.toNat = w / 2 ^ 14 ∧ h.source.toNat = unle ((s.drop 4).take 4) ∧
        h.target.bytes = (s.drop 8).take 6 ∧ h.ackRequired.toNat = f / 2 ^ cfg.ackBit.val % 2 ∧
        h.resRequired.toNat = f / 2 ^ cfg.resBit.val % 2 ∧ h.sequence.toNat = unle ((s.drop 23).take 1) ∧
        h.msgType.toNat = unle ((s.drop 32).take 2)) ∧
    (∀ (h : Header) (i : Nat), i ∈ [14, 15, 16, 17, 18, 19, 20, 21, 24, 25, 26, 27, 28, 29, 30, 31, 34, 35] →
      (headerBytes cfg h)[i]? = some 0) ∧
    (∀ (h : Header) (j : Fin 8), j ≠ cfg.ackBit → j ≠ cfg.resBit →
      ∃ f : Byte, (headerBytes cfg h)[22]? = some f ∧ f.getLsbD j.val = false)

/-- Spec R143, R161, R60, R64: the checks of the frame step, on the bytes that remain; `size` is bytes 0..1 and `type` bytes
32..33. -/
def Obligations.FrameChecksInOrder : Prop :=
  ∀ (cfg : Config) (single : Bool) (s : List Byte),
    let size := unle (s.take 2)
    let type := BitVec.ofNat 16 (unle ((s.drop 32).take 2))
    (s.length < 36 → decodeFrame cfg single s = .error ⟨.short, 0⟩) ∧
    (36 ≤ s.length → size < 36 → decodeFrame cfg single s = .error ⟨.sizeSmall, 0⟩) ∧
    (36 ≤ s.length → 36 ≤ size → s.length < size → decodeFrame cfg single s = .error ⟨.trunc, 0⟩) ∧
    (36 ≤ size → size < s.length → single = true → decodeFrame cfg single s = .error ⟨.trailing, 0⟩) ∧
    (36 ≤ size → size ≤ s.length → (single = true → size = s.length) →
      (lookupId cfg.reg type = none → decodeFrame cfg single s = .error ⟨.unknownType, type⟩) ∧
      ∀ e, lookupId cfg.reg type = some e →
        (sizesOk e.desc size = false → decodeFrame cfg single s = .error ⟨.length, type⟩) ∧
        (sizesOk e.desc size = true →
          decodeFrame cfg single s = .ok ⟨decodeHeader cfg s, e.name, dec e.desc ((s.take size).drop 36)⟩))

/-- Spec R62, R101: only `size` and `type` decide whether a frame is refused, and how. -/
def Obligations.OnlySizeAndTypeAreChecked : Prop :=
  ∀ (cfg : Config) (single : Bool) (s t : List Byte), s.length = t.length →
    (∀ i, i = 0 ∨ i = 1 ∨ i = 32 ∨ i = 33 → s[i]? = t[i]?) →
      ∀ r, decodeFrame cfg single s = .error r → decodeFrame cfg single t = .error r

/-- Spec R58: the declared sizes of a type. -/
def Obligations.DeclaredSizes : Prop :=
  ∀ (p : Desc) (size : Nat),
    (p.tail = none → (sizesOk p size = true ↔ size = 36 + p.size)) ∧
    (∀ d min max, p.tail = some (d, min, max) → 1 ≤ d.size →
      (sizesOk p size = true ↔ ∃ m, min ≤ m ∧ m ≤ max ∧ size = 36 + p.size + m * d.size))

/-- Spec R67, R53: every well-formed instruction is read back from its words: a packet of every row with every operand, a
header with every operand, and the commands. -/
def Obligations.DecodeReadsEncodedInstructions : Prop :=
  ∀ (cfg : Config) (i : Instr), cfg.wf = true → i.wellFormed cfg = true →
    (∀ r, i.packet = some r →
      ∀ single, decodeFrame cfg single (encode cfg i) = .ok r ∧ Instr.ofPacket r = some i) ∧
    (∀ h, i = .hdr h → ∀ rest, decodeHdr cfg (encode cfg i ++ rest) = .ok i) ∧
    (i ∈ [Instr.nop, .encode, .decode, .parse] →
      ∀ upper, decodeCommand (unle (encode cfg i) + 4 * upper) = i)

/-! ## Packet formats -/

/-- Spec R110, R116: `getService` and `acknowledgement` have an empty payload; a payload that is not the empty record is
V_SHAPE. -/
def Obligations.EmptyPayloadFormats : Prop :=
  ∀ (cfg : Config) (e : Entry), e = entryGetService ∨ e = entryAcknowledgement →
    (e = entryGetService → e.name = "getService" ∧ e.id = 2) ∧
    (e = entryAcknowledgement → e.name = "acknowledgement" ∧ e.id = 45) ∧
    (∀ size, sizesOk e.desc size = true ↔ size = 36) ∧
    (∀ v, shape e.desc v = true ↔ v = .record .nil) ∧ enc cfg e.desc (.record .nil) 36 = .ok [] ∧
    (∀ s, dec e.desc s = .record .nil) ∧
    ∀ (er : EncodeRequest) (v : Value), v ≠ .record .nil → lookupName cfg.reg er.name = some e → er.payload = v →
      encodeRequest cfg er = .error ⟨.shape, 0⟩

/-- Spec R112, R113: `setPower` and `statePower`. -/
def Obligations.PowerFormats : Prop :=
  ∀ (cfg : Config) (e : Entry), e = entrySetPower ∨ e = entryStatePower →
    (e = entrySetPower → e.name = "setPower" ∧ e.id = 21) ∧
    (e = entryStatePower → e.name = "statePower" ∧ e.id = 22) ∧
    (∀ size, sizesOk e.desc size = true ↔ size = 38) ∧
    (∀ level : Int,
      enc cfg e.desc (.record (.ofList [("level", .int level)])) 36 =
        if 0 ≤ level ∧ level ≤ 65535 then .ok (leBytes 2 level.toNat) else .error ⟨.range, 36⟩) ∧
    ∀ s, dec e.desc s = .record (.ofList [("level", .int (unle (s.take 2)))])

/-- Spec R114, R115: `setLabel` and `stateLabel`. -/
def Obligations.LabelFormats : Prop :=
  ∀ (cfg : Config) (e : Entry), e = entrySetLabel ∨ e = entryStateLabel →
    (e = entrySetLabel → e.name = "setLabel" ∧ e.id = 24) ∧
    (e = entryStateLabel → e.name = "stateLabel" ∧ e.id = 25) ∧
    (∀ size, sizesOk e.desc size = true ↔ size = 68) ∧
    (∀ b : List Byte,
      enc cfg e.desc (.record (.ofList [("label", .bytes b)])) 36 =
        if 32 < b.length then .error ⟨.stringLen, 36⟩
        else if 0 ∈ b then .error ⟨.stringNul, 36⟩
        else .ok (b ++ List.replicate (32 - b.length) 0)) ∧
    ∀ s, dec e.desc s = .record (.ofList [("label", .bytes ((s.take 32).takeWhile (fun b => b != 0)))])

/-- Spec R111, R118: `stateService` and `getColorZones`. -/
def Obligations.ServiceAndZoneRequestFormats : Prop :=
  ∀ cfg : Config,
    (entryStateService.name = "stateService" ∧ entryStateService.id = 3 ∧
      (∀ size, sizesOk entryStateService.desc size = true ↔ size = 41) ∧
      (∀ service port : Int,
        enc cfg entryStateService.desc (.record (.ofList [("service", .int service), ("port", .int port)])) 36 =
          if ¬(0 ≤ service ∧ service ≤ 255) then .error ⟨.range, 36⟩
          else if ¬(0 ≤ port ∧ port ≤ 4294967295) then .error ⟨.range, 37⟩
          else .ok (leBytes 1 service.toNat ++ leBytes 4 port.toNat)) ∧
      ∀ s, dec entryStateService.desc s =
        .record (.ofList [("service", .int (unle (s.take 1))), ("port", .int (unle ((s.drop 1).take 4)))])) ∧
    (entryGetColorZones.name = "getColorZones" ∧ entryGetColorZones.id = 502 ∧
      (∀ size, sizesOk entryGetColorZones.desc size = true ↔ size = 38) ∧
      (∀ first last : Int,
        enc cfg entryGetColorZones.desc (.record (.ofList [("startIndex", .int first), ("endIndex", .int last)])) 36 =
          if ¬(0 ≤ first ∧ first ≤ 255) then .error ⟨.range, 36⟩
          else if ¬(0 ≤ last ∧ last ≤ 255) then .error ⟨.range, 37⟩
          else .ok (leBytes 1 first.toNat ++ leBytes 1 last.toNat)) ∧
      ∀ s, dec entryGetColorZones.desc s =
        .record (.ofList [("startIndex", .int (unle (s.take 1))), ("endIndex", .int (unle ((s.drop 1).take 1)))]))

/-- Spec R117, R119: `setColor` and `stateZone`, each with an HSBK colour inside. -/
def Obligations.ColorFormats : Prop :=
  ∀ cfg : Config,
    (entrySetColor.name = "setColor" ∧ entrySetColor.id = 102 ∧
      (∀ size, sizesOk entrySetColor.desc size = true ↔ size = 49) ∧
      (∀ h s b k duration : Int,
        enc cfg entrySetColor.desc (.record (.ofList [("color", hsbkValue h s b k), ("duration", .int duration)])) 36 =
          if ¬(0 ≤ h ∧ h ≤ 65535) then .error ⟨.range, 37⟩
          else if ¬(0 ≤ s ∧ s ≤ 65535) then .error ⟨.range, 39⟩
          else if ¬(0 ≤ b ∧ b ≤ 65535) then .error ⟨.range, 41⟩
          else if ¬((cfg.kelvinMin : Int) ≤ k ∧ k ≤ cfg.kelvinMax) then .error ⟨.range, 43⟩
          else if ¬(0 ≤ duration ∧ duration ≤ 4294967295) then .error ⟨.range, 45⟩
          else .ok (zeros 1 ++ leBytes 2 h.toNat ++ leBytes 2 s.toNat ++ leBytes 2 b.toNat ++ leBytes 2 k.toNat ++
            leBytes 4 duration.toNat)) ∧
      ∀ t, dec entrySetColor.desc t =
        .record (.ofList [("color", dec .hsbk (t.drop 1)), ("duration", .int (unle ((t.drop 9).take 4)))])) ∧
    (entryStateZone.name = "stateZone" ∧ entryStateZone.id = 503 ∧
      (∀ size, sizesOk entryStateZone.desc size = true ↔ size = 46) ∧
      (∀ count index h s b k : Int,
        enc cfg entryStateZone.desc
            (.record (.ofList [("count", .int count), ("index", .int index), ("color", hsbkValue h s b k)])) 36 =
          if ¬(0 ≤ count ∧ count ≤ 255) then .error ⟨.range, 36⟩
          else if ¬(0 ≤ index ∧ index ≤ 255) then .error ⟨.range, 37⟩
          else if ¬(0 ≤ h ∧ h ≤ 65535) then .error ⟨.range, 38⟩
          else if ¬(0 ≤ s ∧ s ≤ 65535) then .error ⟨.range, 40⟩
          else if ¬(0 ≤ b ∧ b ≤ 65535) then .error ⟨.range, 42⟩
          else if ¬((cfg.kelvinMin : Int) ≤ k ∧ k ≤ cfg.kelvinMax) then .error ⟨.range, 44⟩
          else .ok (leBytes 1 count.toNat ++ leBytes 1 index.toNat ++ leBytes 2 h.toNat ++ leBytes 2 s.toNat ++
            leBytes 2 b.toNat ++ leBytes 2 k.toNat)) ∧
      ∀ t, dec entryStateZone.desc t =
        .record (.ofList [("count", .int (unle (t.take 1))), ("index", .int (unle ((t.drop 1).take 1))),
          ("color", dec .hsbk (t.drop 2))]))

/-- Spec R120: `stateMultiZone`, the variable-size type, for every pair of bounds. -/
def Obligations.MultiZoneFormat : Prop :=
  ∀ (cfg : Config) (mzMin mzMax : Nat),
    let p := (entryStateMultiZone mzMin mzMax).desc
    (entryStateMultiZone mzMin mzMax).name = "stateMultiZone" ∧ (entryStateMultiZone mzMin mzMax).id = 506 ∧
    (∀ size, sizesOk p size = true ↔ ∃ m, mzMin ≤ m ∧ m ≤ mzMax ∧ size = 38 + 8 * m) ∧
    (∀ (count index : Int) (colors : List Value),
      let x := enc cfg p
        (.record (.ofList [("count", .int count), ("index", .int index), ("colors", .list (.ofList colors))])) 36
      (¬(0 ≤ count ∧ count ≤ 255) → x = .error ⟨.range, 36⟩) ∧
      (0 ≤ count ∧ count ≤ 255 → ¬(0 ≤ index ∧ index ≤ 255) → x = .error ⟨.range, 37⟩) ∧
      (0 ≤ count ∧ count ≤ 255 → 0 ≤ index ∧ index ≤ 255 →
        (colors.length < mzMin ∨ mzMax < colors.length → x = .error ⟨.arrayLen, 38⟩) ∧
        (mzMin ≤ colors.length → colors.length ≤ mzMax →
          (∀ outs : List (List Byte), outs.length = colors.length →
            (∀ i (h : i < colors.length) (h' : i < outs.length), enc cfg .hsbk colors[i] (38 + 8 * i) = .ok outs[i]) →
            x = .ok (leBytes 1 count.toNat ++ leBytes 1 index.toNat ++ outs.flatten)) ∧
          (∀ i (h : i < colors.length) r, enc cfg .hsbk colors[i] (38 + 8 * i) = .error r →
            (∀ j (h' : j < colors.length), j < i → ∃ b, enc cfg .hsbk colors[j] (38 + 8 * j) = .ok b) →
            x = .error r)))) ∧
    ∀ m t, t.length = 2 + 8 * m →
      dec p t =
        .record (.ofList [("count", .int (unle (t.take 1))), ("index", .int (unle ((t.drop 1).take 1))),
          ("colors", .list (.ofList ((List.range m).map (fun i => dec .hsbk (t.drop (2 + 8 * i))))))])

/-- Spec R121, R122, R123: where the members of the three tile formats stand: the sizes, the packet offset of every array
and of the trailing count, and the reserved bytes. -/
def Obligations.TileFormats : Prop :=
  ∀ cfg : Config,
    (entryStateDeviceChain.name = "stateDeviceChain" ∧ entryStateDeviceChain.id = 702 ∧
      (∀ size, sizesOk entryStateDeviceChain.desc size = true ↔ size = 918) ∧
      (∀ (first total : Int) (tiles : Value),
        enc cfg entryStateDeviceChain.desc
            (.record (.ofList [("startIndex", .int first), ("tileDevices", tiles), ("totalCount", .int total)])) 36 =
          if ¬(0 ≤ first ∧ first ≤ 255) then .error ⟨.range, 36⟩
          else match enc cfg (.arr .tile 16) tiles 37 with
            | .error r => .error r
            | .ok out =>
              if ¬(0 ≤ total ∧ total ≤ 255) then .error ⟨.range, 917⟩
              else .ok (leBytes 1 first.toNat ++ out ++ leBytes 1 total.toNat)) ∧
      ∀ t, dec entryStateDeviceChain.desc t =
        .record (.ofList [("startIndex", .int (unle (t.take 1))), ("tileDevices", dec (.arr .tile 16) (t.drop 1)),
          ("totalCount", .int (unle ((t.drop 881).take 1)))])) ∧
    (entryStateTileState64.name = "stateTileState64" ∧ entryStateTileState64.id = 711 ∧
      (∀ size, sizesOk entryStateTileState64.desc size = true ↔ size = 553) ∧
      (∀ (tile x y width : Int) (colors : Value),
        enc cfg entryStateTileState64.desc
            (.record (.ofList [("tileIndex", .int tile), ("x", .int x), ("y", .int y), ("width", .int width),
              ("colors", colors)])) 36 =
          if ¬(0 ≤ tile ∧ tile ≤ 255) then .error ⟨.range, 36⟩
          else if ¬(0 ≤ x ∧ x ≤ 255) then .error ⟨.range, 38⟩
          else if ¬(0 ≤ y ∧ y ≤ 255) then .error ⟨.range, 39⟩
          else if ¬(0 ≤ width ∧ width ≤ 255) then .error ⟨.range, 40⟩
          else match enc cfg (.arr .hsbk 64) colors 41 with
            | .error r => .error r
            | .ok out => .ok (leBytes 1 tile.toNat ++ zeros 1 ++ leBytes 1 x.toNat ++ leBytes 1 y.toNat ++
                leBytes 1 width.toNat ++ out)) ∧
      ∀ t, dec entryStateTileState64.desc t =
        .record (.ofList [("tileIndex", .int (unle (t.take 1))), ("x", .int (unle ((t.drop 2).take 1))),
          ("y", .int (unle ((t.drop 3).take 1))), ("width", .int (unle ((t.drop 4).take 1))),
          ("colors", dec (.arr .hsbk 64) (t.drop 5))])) ∧
    (entrySetTileState64.name = "setTileState64" ∧ entrySetTileState64.id = 715 ∧
      (∀ size, sizesOk entrySetTileState64.desc size = true ↔ size = 558) ∧
      (∀ (tile length x y width duration : Int) (colors : Value),
        enc cfg entrySetTileState64.desc
            (.record (.ofList [("tileIndex", .int tile), ("length", .int length), ("x", .int x), ("y", .int y),
              ("width", .int width), ("duration", .int duration), ("colors", colors)])) 36 =
          if ¬(0 ≤ tile ∧ tile ≤ 255) then .error ⟨.range, 36⟩
          else if ¬(0 ≤ length ∧ length ≤ 255) then .error ⟨.range, 37⟩
          else if ¬(0 ≤ x ∧ x ≤ 255) then .error ⟨.range, 39⟩
          else if ¬(0 ≤ y ∧ y ≤ 255) then .error ⟨.range, 40⟩
          else if ¬(0 ≤ width ∧ width ≤ 255) then .error ⟨.range, 41⟩
          else if ¬(0 ≤ duration ∧ duration ≤ 4294967295) then .error ⟨.range, 42⟩
          else match enc cfg (.arr .hsbk 64) colors 46 with
            | .error r => .error r
            | .ok out => .ok (leBytes 1 tile.toNat ++ leBytes 1 length.toNat ++ zeros 1 ++ leBytes 1 x.toNat ++
                leBytes 1 y.toNat ++ leBytes 1 width.toNat ++ leBytes 4 duration.toNat ++ out)) ∧
      ∀ t, dec entrySetTileState64.desc t =
        .record (.ofList [("tileIndex", .int (unle (t.take 1))), ("length", .int (unle ((t.drop 1).take 1))),
          ("x", .int (unle ((t.drop 3).take 1))), ("y", .int (unle ((t.drop 4).take 1))),
          ("width", .int (unle ((t.drop 5).take 1))), ("duration", .int (unle ((t.drop 6).take 4))),
          ("colors", dec (.arr .hsbk 64) (t.drop 10))]))

/-! ## Commands -/

/-- Spec R130: NOP clears STATUS and writes nothing else; the command ends (R148; the phase is the model's, log entry 2). -/
def Obligations.NopClearsStatusOnly : Prop :=
  ∀ s : State, ∃ t, exec .nop s = .next t ∧ t.status = statusNone ∧ SameButTx s t ∧ t.txbuf = s.txbuf ∧
    t.txlen = s.txlen ∧ t.phase = .idle

/-- Spec R131, R165: the order of ENCODE's checks, and the packet where all pass. -/
def Obligations.EncodeChecksInOrder : Prop :=
  ∀ (cfg : Config) (er : EncodeRequest),
    (lookupName cfg.reg er.name = none → encodeRequest cfg er = .error ⟨.unknownName, 0⟩) ∧
    ∀ e, lookupName cfg.reg er.name = some e →
      ((∃ t, er.target = some t ∧ t.length ≠ 6) ∨ shape e.desc er.payload = false →
        encodeRequest cfg er = .error ⟨.shape, 0⟩) ∧
      ((∀ t, er.target = some t → t.length = 6) → shape e.desc er.payload = true →
        (∀ r, hdrCheck er = some r → encodeRequest cfg er = .error r) ∧
        (hdrCheck er = none →
          (∀ r, enc cfg e.desc er.payload 36 = .error r → encodeRequest cfg er = .error r) ∧
          (∀ b, enc cfg e.desc er.payload 36 = .ok b →
            encodeRequest cfg er = .ok (headerBytes cfg (requestHeader cfg er e.id b.length) ++ b))))

/-- Spec R134, R13: the state after ENCODE, on success and on failure. That a byte of TXBUF at or above the packet's end has no
value is the model's reading of R13 (log entry 7). -/
def Obligations.StateAfterEncode : Prop :=
  ∀ s : State, s.cfg.wf = true → s.erWritten.complete = true →
    ∃ t, exec .encode s = .next t ∧ SameButTx s t ∧ t.phase = .idle ∧
      (∀ pkt, encodeRequest s.cfg s.er = .ok pkt →
        t.status = statusNone ∧ t.txlen.toNat = pkt.length ∧
          (∀ a, a < pkt.length → Memory.read t.txbuf a = pkt[a]?) ∧
          ∀ a, pkt.length ≤ a → Memory.read t.txbuf a = none) ∧
      (∀ r, encodeRequest s.cfg s.er = .error r →
        t.status = statusValidation r.cause r.off ∧ t.txlen = 0 ∧ t.txbuf = s.txbuf)

/-- Spec R167, R162: what raising a ValidationError does, with the codes. -/
def Obligations.RaisingValidationError : Prop :=
  ∀ (s : State) (r : ValidationReject) (code : BitVec 8), s.erWritten.complete = true →
    encodeRequest s.cfg s.er = .error r →
    (r.cause, code) ∈
      [(ValidationCause.unknownName, (0x11 : BitVec 8)), (.shape, 0x12), (.range, 0x13), (.stringLen, 0x14),
       (.stringNul, 0x15), (.arrayLen, 0x16)] →
    ∃ t, exec .encode s = .next t ∧ t.status.err = 2 ∧ t.status.cause = code ∧
      t.status.eoff = BitVec.ofNat 16 r.off ∧ t.status.einfo = 0 ∧ t.txlen = 0 ∧ t.txbuf = s.txbuf ∧ SameButTx s t

/-- Spec R133, which the spec derives from R55: the payload that ENCODE writes has at most the bytes that its entry's descriptor
allows; so the packet, 36 bytes more, fits TXBUF and its 16-bit size field, which holds its length. -/
def Obligations.EncodedPacketFits : Prop :=
  ∀ (cfg : Config) (er : EncodeRequest) (pkt : List Byte), cfg.wf = true → encodeRequest cfg er = .ok pkt →
    (∃ e b, lookupName cfg.reg er.name = some e ∧ enc cfg e.desc er.payload 36 = .ok b ∧ b.length ≤ e.desc.maxSize ∧
      pkt.length = 36 + b.length) ∧
    36 ≤ pkt.length ∧ pkt.length ≤ 65535 ∧ pkt.length ≤ cfg.txMax ∧ unle (pkt.take 2) = pkt.length

/-- Spec R135: ENCODE is a function of ER. -/
def Obligations.EncodeIsAFunctionOfEr : Prop :=
  ∀ s u t v : State, s.cfg.wf = true → s.cfg = u.cfg → s.er = u.er → exec .encode s = .next t →
    exec .encode u = .next v →
      t.txlen = v.txlen ∧ t.status = v.status ∧
        ∀ a, a < t.txlen.toNat → Memory.read t.txbuf a = Memory.read v.txbuf a

/-- Spec R188: ENCODE is refused while any field of ER has never been written since reset, and only then. -/
def Obligations.EncodeNeedsEveryFieldWritten : Prop :=
  ∀ s : State,
    (s.erWritten.name = false ∨ s.erWritten.source = false ∨ s.erWritten.target = false ∨ s.erWritten.tagged = false ∨
        s.erWritten.ackRequired = false ∨ s.erWritten.resRequired = false ∨ s.erWritten.sequence = false ∨
        s.erWritten.payload = false → exec .encode s = .refused .erUnwritten) ∧
    (s.erWritten = ⟨true, true, true, true, true, true, true, true⟩ → ∃ t, exec .encode s = .next t) ∧
    ∀ (a : Option (List Byte)) (x y z u w : Int) (n : String) (p : Value),
      (writeEr (.name n) (writeEr (.source x) (writeEr (.target a) (writeEr (.tagged y) (writeEr (.ackRequired z)
        (writeEr (.resRequired u) (writeEr (.sequence w) (writeEr (.payload p) s)))))))).erWritten =
          ⟨true, true, true, true, true, true, true, true⟩

/-- Spec R141, R140: the state after DECODE, on success and on failure. That OUTQ is empty after a failure (the spec leaves its
contents unspecified then) is the model's form of OUTQ (log entry 10). -/
def Obligations.StateAfterDecode : Prop :=
  ∀ s : State, ∃ t, exec .decode s = .next t ∧ SameButOut s t ∧ t.phase = .idle ∧
    (∀ r, decodeFrame s.cfg true (datagram s) = .ok r →
      t.status = statusNone ∧ t.outn = 1 ∧ t.outq = [r] ∧ t.cur = s.rxlen ∧ t.fcnt = 1) ∧
    (∀ r, decodeFrame s.cfg true (datagram s) = .error r →
      t.status = statusFormat r.cause 0 r.info ∧ t.outn = 0 ∧ t.outq = [] ∧ t.cur = 0 ∧ t.fcnt = 0)

/-- Spec R142, R145, R52: PARSE. Either the datagram is one or more frames back to back and their records are in OUTQ in
order, or some frame is refused, the records before it are dropped and CUR, FCNT and STATUS say which frame it was. That OUTQ
is empty after a failure is the model's form of OUTQ (log entry 10). -/
def Obligations.StateAfterParse : Prop :=
  ∀ s : State, Memory.wf s.rxbuf →
    ∃ t, exec .parse s = .next t ∧ SameButOut s t ∧ t.phase = .idle ∧
      ((∃ rs, rs ≠ [] ∧ Frames s.cfg (datagram s) rs [] ∧ t.status = statusNone ∧ t.outq = rs ∧
          t.outn.toNat = rs.length ∧ t.fcnt = t.outn ∧ t.cur = s.rxlen ∧ sizeSum rs = s.rxlen.toNat) ∨
        (∃ rs rest r, Frames s.cfg (datagram s) rs rest ∧ (rs ≠ [] → rest ≠ []) ∧
          decodeFrame s.cfg false rest = .error r ∧ t.status = statusFormat r.cause t.cur r.info ∧ t.outn = 0 ∧
          t.outq = [] ∧ t.fcnt.toNat = rs.length ∧ t.cur.toNat = sizeSum rs))

/-- Spec R146: PARSE and DECODE agree on a single packet. -/
def Obligations.ParseAndDecodeAgreeOnOnePacket : Prop :=
  ∀ s : State, ∃ d p, exec .decode s = .next d ∧ exec .parse s = .next p ∧
    (∀ r, (d.status = statusNone ∧ d.outq = [r]) ↔ (p.status = statusNone ∧ p.outn = 1 ∧ p.outq = [r])) ∧
    (d.status ≠ statusNone →
      p.status ≠ statusNone ∨ (2 ≤ p.outn.toNat ∧ d.status.cause = formatCode .trailing))

/-- Spec R147: a packet that ENCODE built, copied to RXBUF, comes back from DECODE and from PARSE as the request it was built
from. The payload is compared with its members in wire order (log entry 6). -/
def Obligations.PacketRoundTrip : Prop :=
  ∀ s t u : State, s.cfg.wf = true → exec .encode s = .next t → t.status = statusNone → u.cfg = s.cfg →
    Memory.wf u.rxbuf → u.rxlen = t.txlen →
    (∀ a, a < t.txlen.toNat → Memory.read t.txbuf a = some (rxByte u a)) →
      ∀ c, c = Instr.decode ∨ c = Instr.parse →
        ∃ v r e, exec c u = .next v ∧ v.status = statusNone ∧ v.outn = 1 ∧ v.outq = [r] ∧
          lookupName s.cfg.reg s.er.name = some e ∧ r.name = s.er.name ∧ r.payload = canon e.desc s.er.payload ∧
          (r.hdr.source.toNat : Int) = s.er.source ∧ r.hdr.target.bytes = s.er.target.getD (zeros 6) ∧
          (r.hdr.tagged.toNat : Int) = s.er.tagged ∧ (r.hdr.ackRequired.toNat : Int) = s.er.ackRequired ∧
          (r.hdr.resRequired.toNat : Int) = s.er.resRequired ∧ (r.hdr.sequence.toNat : Int) = s.er.sequence ∧
          r.hdr.size = t.txlen ∧ r.hdr.msgType = e.id ∧ r.hdr.protocol = s.cfg.protocol ∧
          r.hdr.addressable = s.cfg.addressable ∧ r.hdr.origin = s.cfg.origin

/-- Spec R10: the result of DECODE and of PARSE is a function of the datagram and the parameters. -/
def Obligations.ReceiveResultDependsOnDatagramOnly : Prop :=
  ∀ s u : State, Memory.wf s.rxbuf → Memory.wf u.rxbuf → s.cfg = u.cfg → s.rxlen = u.rxlen →
    (∀ a, a < s.rxlen.toNat → rxByte s a = rxByte u a) →
      ∀ c, c = Instr.decode ∨ c = Instr.parse →
        ∃ t v, exec c s = .next t ∧ exec c u = .next v ∧ t.outq = v.outq ∧ t.outn = v.outn ∧ t.cur = v.cur ∧
          t.fcnt = v.fcnt ∧ t.status = v.status

/-- Spec R166, R161: what raising a FormatError does, with the codes; the command ends (the phase is the model's, log
entry 2). -/
def Obligations.RaisingFormatError : Prop :=
  ∀ (s : State) (r : FormatReject) (code : BitVec 8), s.phase.inFrames = true →
    decodeFrame s.cfg s.phase.isSingle (rxRest s) = .error r →
    (r.cause, code) ∈
      [(FormatCause.short, (0x01 : BitVec 8)), (.sizeSmall, 0x02), (.trunc, 0x03), (.trailing, 0x04),
       (.unknownType, 0x05), (.length, 0x06)] →
    (frameStep s).status.err = 1 ∧ (frameStep s).status.cause = code ∧ (frameStep s).status.eoff = s.cur ∧
      (frameStep s).status.einfo = r.info ∧ (frameStep s).outn = 0 ∧ (frameStep s).cur = s.cur ∧
      (frameStep s).fcnt = s.fcnt ∧ (frameStep s).phase = .idle ∧ SameButOut s (frameStep s)

/-- Spec R144: the loop of PARSE ends within `floor(RXLEN / 36) + 1` frame steps. -/
def Obligations.FrameLoopEndsWithinBound : Prop :=
  ∀ (s : State) (single : Bool) (n : Nat), frameBound s ≤ n →
    (frameLoop n (startFrames single s)).phase = .idle ∧
      frameLoop n (startFrames single s) = frameLoop (frameBound s) (startFrames single s)

/-! ## Steps and instructions -/

/-- A step runs the instruction its phase fetches: the command in CMD, the header at CUR, the packet at CUR; a frame that the
decoder rejects raises FormatError (spec R19, R53, R143; the phases are the model's, log entry 2). A packet of a registered
type that has no row is stored as every packet is (spec R125, log entry 17). -/
def Obligations.StepRunsTheDecodedInstruction : Prop :=
  ∀ s : State, s.cfg.wf = true →
    (s.phase = .command → step s = exec (decodeCommand s.cmdOp.toNat) s) ∧
    (∀ single, s.phase = .header single →
      (∀ i, decodeHdr s.cfg (rxRest s) = .ok i → step s = exec i s) ∧
      (∀ r, decodeHdr s.cfg (rxRest s) = .error r → step s = .next (raiseFormat r s))) ∧
    (∀ single, s.phase = .payload single →
      (∀ r i, decodeFrame s.cfg single (rxRest s) = .ok r → Instr.ofPacket r = some i → step s = exec i s) ∧
      (∀ r, decodeFrame s.cfg single (rxRest s) = .ok r → Instr.ofPacket r = none → step s = .next (storePacket r s)) ∧
      (∀ r, decodeFrame s.cfg single (rxRest s) = .error r → step s = .next (raiseFormat r s)))

/-- The words of the spec's examples decode to the instructions they stand for: the header of R71's example, the setPower packet
of S1, the stateService packet of R111, the four commands. -/
def Obligations.SpecExampleWordsDecode : Prop :=
  let header : List Byte :=
    [0x26, 0x00, 0x00, 0x14, 0x0d, 0x0c, 0x0b, 0x0a, 0xd0, 0x73, 0xd5, 0x01, 0x02, 0x03, 0x00, 0x00, 0x00, 0x00, 0x00,
     0x00, 0x00, 0x00, 0x02, 0x07, 0x00, 0x00, 0x00, 0x00, 0x00, 0x00, 0x00, 0x00, 0x15, 0x00, 0x00, 0x00]
  let service : List Byte :=
    [0x29, 0x00, 0x00, 0x14, 0x0d, 0x0c, 0x0b, 0x0a, 0xd0, 0x73, 0xd5, 0x01, 0x02, 0x03, 0x00, 0x00, 0x00, 0x00, 0x00,
     0x00, 0x00, 0x00, 0x00, 0x00, 0x00, 0x00, 0x00, 0x00, 0x00, 0x00, 0x00, 0x00, 0x03, 0x00, 0x00, 0x00, 0x01, 0x7c,
     0xdd, 0x00, 0x00]
  let h : Header := ⟨38, 1024, 1, 0, 0, 168496141, ⟨0xd0, 0x73, 0xd5, 0x01, 0x02, 0x03⟩, 0, 1, 7, 21⟩
  let p : Value := .record (.ofList [("level", .int 65535)])
  let q : Value := .record (.ofList [("service", .int 1), ("port", .int 56700)])
  decodeHdr Config.default header = .ok (.hdr h) ∧
    (decodeFrame Config.default true (header ++ [0xff, 0xff])).map Instr.ofPacket = .ok (some (.setPower h p)) ∧
    (decodeFrame Config.default true service).map Instr.ofPacket =
      .ok (some (.stateService { h with size := 41, resRequired := 0, sequence := 0, msgType := 3 } q)) ∧
    [0, 1, 2, 3].map decodeCommand = [.nop, .encode, .decode, .parse]

/-- Spec R143, last lines, for the 14 packet formats (getService, stateService, setPower, statePower, setLabel, stateLabel,
acknowledgement, setColor, getColorZones, stateZone, stateMultiZone, stateDeviceChain, stateTileState64, setTileState64):
each stores its record at OUTQ[OUTN], counts it, passes the frame, and changes nothing else. -/
def Obligations.PacketFormatsStoreTheirRecord : Prop :=
  ∀ (i : Instr) (r : PacketRecord) (s : State), i.packet = some r → s.outq.length = s.outn.toNat →
    ∃ t, exec i s = .next t ∧ t.outq = s.outq ++ [r] ∧ t.outn = s.outn + 1 ∧ t.fcnt = s.fcnt + 1 ∧
      t.cur = s.cur + r.hdr.size ∧ t.status = s.status ∧ SameButOut s t

/-- Spec R143 checks 2 to 4 passed: HDR leaves everything but what runs next, which is the packet (log entry 2). -/
def Obligations.HeaderAcceptsAFittingFrame : Prop :=
  ∀ (h : Header) (s : State), 36 ≤ h.size.toNat → h.size.toNat ≤ s.rxlen.toNat - s.cur.toNat →
    (s.phase.isSingle = true → h.size.toNat = s.rxlen.toNat - s.cur.toNat) →
      exec (.hdr h) s = .next { s with phase := .payload s.phase.isSingle }

/-- Spec R143 checks 2 to 4 failed: HDR raises FormatError with the cause of the first that fails. That the header row is the
half of the frame step that makes these checks is the model's choice (log entries 2 and 12). -/
def Obligations.HeaderRaisesOnABadSize : Prop :=
  ∀ (h : Header) (s : State),
    let rem := s.rxlen.toNat - s.cur.toNat
    (h.size.toNat < 36 → exec (.hdr h) s = .next (raiseFormat ⟨.sizeSmall, 0⟩ s)) ∧
    (36 ≤ h.size.toNat → rem < h.size.toNat → exec (.hdr h) s = .next (raiseFormat ⟨.trunc, 0⟩ s)) ∧
    (36 ≤ h.size.toNat → h.size.toNat < rem → s.phase.isSingle = true →
      exec (.hdr h) s = .next (raiseFormat ⟨.trailing, 0⟩ s))

/-- Spec R148, R168: every instruction completes, but for an ENCODE on an unwritten ER; a command leaves the block ready for
the next one. -/
def Obligations.EveryInstructionCompletes : Prop :=
  ∀ (i : Instr) (s : State), (i = .encode → s.erWritten.complete = true) →
    (∃ t, exec i s = .next t) ∧ (i ∈ [Instr.nop, .encode, .decode, .parse] → Completes (exec i s))

/-- Spec R11, R12, R13, R14: no instruction changes the registry and the parameters, nor what only the host writes; only ENCODE
writes TXBUF and TXLEN. -/
def Obligations.InstructionsLeaveTheHostsInputs : Prop :=
  ∀ (i : Instr) (s t : State), exec i s = .next t →
    t.cfg = s.cfg ∧ t.rxbuf = s.rxbuf ∧ t.rxlen = s.rxlen ∧ t.er = s.er ∧ t.erWritten = s.erWritten ∧
      t.cmdOp = s.cmdOp ∧ t.inbox = s.inbox ∧ t.epoch = s.epoch ∧ (i ≠ .encode → t.txbuf = s.txbuf ∧ t.txlen = s.txlen)

/-- Spec R11: no step changes the registry or a parameter, a host action and a reset included. -/
def Obligations.NoStepChangesTheRegistry : Prop :=
  ∀ s t : State, step s = .next t → t.cfg = s.cfg

/-- Spec R168, U3, U4, U6, U7: the only steps that stop are those the spec gives no meaning. That `refuse` is a refusal by
name, and that a host write past the end of RXBUF faults, is the model's (log entry 15). -/
def Obligations.StepStopsOnlyWhereTheSpecSays : Prop :=
  ∀ s : State,
    (∀ f, step s = .fault f →
      ∃ a bs rest, s.phase = .idle ∧ s.inbox = .writeRx a bs :: rest ∧ s.cfg.rxMax < a + bs.length) ∧
    (∀ r, step s = .refused r →
      (r = .illFormedConfig ∧ s.cfg.wf = false) ∨
      (r = .erUnwritten ∧ s.phase = .command ∧ s.cmdOp = 1 ∧ s.erWritten.complete = false) ∨
      (s.phase = .idle ∧ ∃ k rest,
        (r = .rxlenAboveRxmax ∧ s.inbox = .writeRxLen k :: rest ∧ s.cfg.rxMax < k) ∨
        (r = .readPastTxlen ∧ s.inbox = .readTx k :: rest ∧ s.txlen.toNat ≤ k) ∨
        (r = .readPastOutn ∧ s.inbox = .readOutq k :: rest ∧ s.outn.toNat ≤ k) ∨
        (r = .readPastRxlen ∧ s.inbox = .readRx k :: rest ∧ s.rxlen.toNat ≤ k)))

/-- Spec R38: the frame steps define PARSE and DECODE. From the state in which a command has cleared its registers, single
steps of headers and packets reach exactly the state that the command reaches in one (the phases are the model's, log
entry 2). -/
def Obligations.CommandsAreTheirFrameSteps : Prop :=
  ∀ (s : State) (single : Bool), s.cfg.wf = true →
    ∃ n t, exec (if single then .decode else .parse) s = .next t ∧
      Sys2Proof.core.run n (startFrames single s) = .next t

/-! ## Invariants -/

/-- The machine right after reset satisfies the invariant, whatever its well-formed parameters and what the host will do. -/
def Obligations.ResetSatisfiesTheInvariant : Prop :=
  ∀ (cfg : Config) (l : List HostAction) (n : Nat), cfg.wf = true → Inv (State.resetWith cfg l n)

/-- Every step keeps the invariant. -/
def Obligations.EveryStepKeepsTheInvariant : Prop :=
  ∀ s t : State, Inv s → step s = .next t → Inv t

/-- Every step keeps the two memories canonical and inside their address spaces (spec R30). -/
def Obligations.EveryStepKeepsMemoryCanonical : Prop :=
  ∀ s t : State, MemoryOk s → step s = .next t → MemoryOk t

/-- Every step leaves a STATUS value that the spec names (spec R20, R161, R162, U12). -/
def Obligations.EveryStepKeepsStatusLegal : Prop :=
  ∀ s t : State, StatusLegal s.status → step s = .next t → StatusLegal t.status ∧ t.status.err ≠ 3
end

