-- ==== Sys2Proof/Laws/Codec.lean ====
section
/-!
SUPPORT. The laws of the codecs' parts: little-endian bytes, two's complement, labels, and how many bytes `ENC` writes.
-/

namespace Sys2Proof

/-! ## Induction over the elements of a list value and the members of a record -/

theorem Values.ind {P : Values → Prop} (nil : P .nil) (cons : ∀ v rest, P rest → P (.cons v rest)) : ∀ vs, P vs
  | .nil => nil
  | .cons v rest => cons v rest (Values.ind nil cons rest)

theorem Fields.ind {P : Fields → Prop} (nil : P .nil) (cons : ∀ n v rest, P rest → P (.cons n v rest)) : ∀ fs, P fs
  | .nil => nil
  | .cons n v rest => cons n v rest (Fields.ind nil cons rest)

theorem Members.ind {P : Members → Prop} (nil : P .nil) (cons : ∀ n d rest, P rest → P (.cons n d rest)) : ∀ ms, P ms
  | .nil => nil
  | .cons n d rest => cons n d rest (Members.ind nil cons rest)

/-! ## Little-endian bytes -/

@[simp] theorem leBytes_length (n v : Nat) : (leBytes n v).length = n := by
  induction n generalizing v with
  | zero => rfl
  | succ n ih => simp [leBytes, ih]

@[simp] theorem zeros_length (n : Nat) : (zeros n).length = n := by simp [zeros]

@[simp] theorem unle_nil : unle [] = 0 := rfl

theorem unle_cons (b : Byte) (s : List Byte) : unle (b :: s) = b.toNat + 256 * unle s := rfl

theorem unle_leBytes (n v : Nat) (h : v < 256 ^ n) : unle (leBytes n v) = v := by
  induction n generalizing v with
  | zero => simp [leBytes]; simp at h; omega
  | succ n ih =>
    have h1 : v / 256 < 256 ^ n := by
      rw [Nat.div_lt_iff_lt_mul (by norm_num)]
      rwa [pow_succ] at h
    simp only [leBytes, unle_cons, ih _ h1, BitVec.toNat_ofNat]
    omega

theorem unle_lt (s : List Byte) : unle s < 256 ^ s.length := by
  induction s with
  | nil => simp
  | cons b s ih =>
    have hb := b.isLt
    rw [unle_cons, List.length_cons, pow_succ]
    omega

theorem leBytes_unle (s : List Byte) : leBytes s.length (unle s) = s := by
  induction s with
  | nil => rfl
  | cons b s ih =>
    have hb := b.isLt
    simp only [List.length_cons, leBytes, unle_cons]
    congr 1
    · refine BitVec.eq_of_toNat_eq ?_
      simp only [BitVec.toNat_ofNat]
      omega
    · have : (b.toNat + 256 * unle s) / 256 = unle s := by omega
      rw [this, ih]

/-! ## Two's complement -/

theorem twos_lt (n : Nat) (v : Int) : twos n v < 2 ^ n := by
  have hpos : (0 : Int) < (2 ^ n : Nat) := by exact_mod_cast Nat.two_pow_pos n
  have h1 := Int.emod_nonneg v (ne_of_gt hpos)
  have h2 := Int.emod_lt_of_pos v hpos
  unfold twos
  omega

theorem sext_twos_16 (v : Int) (h1 : -32768 ≤ v) (h2 : v ≤ 32767) : sext 16 (twos 16 v) = v := by
  unfold sext twos
  norm_num
  split <;> omega

theorem sext_16_range (v : Nat) (h : v < 65536) : -32768 ≤ sext 16 v ∧ sext 16 v ≤ 32767 := by
  unfold sext
  norm_num
  split <;> omega

/-! ## Headers -/

@[simp] theorem Mac.bytes_length (m : Mac) : m.bytes.length = 6 := rfl

@[simp] theorem headerBytes_length (cfg : Config) (h : Header) : (headerBytes cfg h).length = 36 := by
  simp [headerBytes]

/-! ## Labels -/

theorem encLabel_ok {b out : List Byte} {off : Nat} (h : encLabel b off = .ok out) :
    b.length ≤ 32 ∧ b.contains 0 = false ∧ out = b ++ zeros (32 - b.length) := by
  unfold encLabel at h
  split at h
  · cases h
  · split at h
    · cases h
    · cases h
      refine ⟨by omega, by simp_all, rfl⟩

theorem encLabel_length {b out : List Byte} {off : Nat} (h : encLabel b off = .ok out) : out.length = 32 := by
  obtain ⟨h1, _, rfl⟩ := encLabel_ok h
  simp
  omega

theorem decLabel_spec (s : List Byte) : (decLabel s).length ≤ 32 ∧ (decLabel s).contains 0 = false := by
  unfold decLabel
  constructor
  · have h1 := (List.takeWhile_sublist (fun b : Byte => b != 0) (l := s.take 32)).length_le
    simp only [List.length_take] at h1
    omega
  · by_contra h
    simp only [Bool.not_eq_false, List.contains_iff_mem] at h
    have := List.mem_takeWhile_imp h
    simp at this

/-! ## How many bytes ENC writes -/

theorem encUnsigned_ok {n off : Nat} {v : Int} {b : List Byte} (h : encUnsigned n v off = .ok b) :
    0 ≤ v ∧ v < (2 ^ (8 * n) : Nat) ∧ b = leBytes n v.toNat := by
  unfold encUnsigned at h
  split at h
  · cases h
  · cases h
    refine ⟨by omega, by omega, rfl⟩

theorem encScalar_length {cfg : Config} {k : Scalar} {v : Int} {off : Nat} {b : List Byte}
    (h : encScalar cfg k v off = .ok b) : b.length = k.size := by
  cases k
  case i16 =>
    simp only [encScalar, encI16] at h
    split at h <;> cases h
    simp [Scalar.size]
  case kelvin =>
    simp only [encScalar, encKelvin] at h
    split at h <;> cases h
    simp [Scalar.size]
  all_goals
    obtain ⟨_, _, rfl⟩ := encUnsigned_ok h
    simp [Scalar.size]

theorem encLeaves_length {cfg : Config} {ls : List (String × Leaf)} {fs : Fields} {off : Nat} {b : List Byte}
    (h : encLeaves cfg ls fs off = .ok b) : b.length = leavesSize ls := by
  induction ls generalizing off b with
  | nil => cases h; rfl
  | cons l ls ih =>
    obtain ⟨m, l⟩ := l
    cases l with
    | rsv n =>
      simp only [encLeaves] at h
      split at h
      · cases h
      · next hr =>
        cases h
        simp [leavesSize, Leaf.size, ih hr]
    | int k =>
      simp only [encLeaves] at h
      split at h
      · split at h
        · cases h
        · next hk =>
          split at h
          · cases h
          · next hr =>
            cases h
            simp [leavesSize, Leaf.size, ih hr, encScalar_length hk]
      · cases h

theorem encElems_length {f : Value → Nat → Except ValidationReject (List Byte)} {sz : Nat}
    (hf : ∀ v off b, f v off = .ok b → b.length = sz) {vs : Values} {off : Nat} {b : List Byte}
    (h : encElems f sz vs off = .ok b) : b.length = vs.length * sz := by
  induction vs using Values.ind generalizing off b with
  | nil => cases h; simp [Values.length]
  | cons v rest ih =>
    simp only [encElems] at h
    split at h
    · cases h
    · next hv =>
      split at h
      · cases h
      · next hr =>
        cases h
        simp [Values.length, hf _ _ _ hv, ih hr]
        ring

mutual

/-- A descriptor without a `VARR` is written as `size(d)` bytes (spec/30_encoding.md R58). -/
theorem enc_length {cfg : Config} {d : Desc} {v : Value} {off : Nat} {b : List Byte} (hd : d.noVarr = true)
    (h : enc cfg d v off = .ok b) : b.length = d.size := by
  match d, v with
  | .int k, .int v => exact encScalar_length (by simpa [enc] using h)
  | .rsv n, v => simp only [enc] at h; cases h; simp [Desc.size]
  | .str32, .bytes b' => exact encLabel_length (by simpa [enc] using h)
  | .hsbk, .record fs => exact encLeaves_length (by simpa [enc] using h)
  | .tile, .record fs => exact encLeaves_length (by simpa [enc] using h)
  | .struct ms, .record fs =>
    simp only [enc] at h
    simp only [Desc.noVarr] at hd
    simpa [Desc.size] using encMembers_length hd h
  | .arr d n, .list vs =>
    simp only [enc] at h
    simp only [Desc.noVarr] at hd
    split at h
    · next hn =>
      rw [encElems_length (fun v off b hv => enc_length hd hv) h, hn, Desc.size]
    · cases h
  | .varr d mn mx, v => simp [Desc.noVarr] at hd
  | .int _, .bytes _ => simp [enc] at h
  | .int _, .record _ => simp [enc] at h
  | .int _, .list _ => simp [enc] at h
  | .str32, .int _ => simp [enc] at h
  | .str32, .record _ => simp [enc] at h
  | .str32, .list _ => simp [enc] at h
  | .hsbk, .int _ => simp [enc] at h
  | .hsbk, .bytes _ => simp [enc] at h
  | .hsbk, .list _ => simp [enc] at h
  | .tile, .int _ => simp [enc] at h
  | .tile, .bytes _ => simp [enc] at h
  | .tile, .list _ => simp [enc] at h
  | .struct _, .int _ => simp [enc] at h
  | .struct _, .bytes _ => simp [enc] at h
  | .struct _, .list _ => simp [enc] at h
  | .arr _ _, .int _ => simp [enc] at h
  | .arr _ _, .bytes _ => simp [enc] at h
  | .arr _ _, .record _ => simp [enc] at h

/-- The members of a `STRUCT` without a `VARR` are written as the sum of their sizes. -/
theorem encMembers_length {cfg : Config} {ms : Members} {fs : Fields} {off : Nat} {b : List Byte}
    (hd : ms.noVarr = true) (h : encMembers cfg ms fs off = .ok b) : b.length = ms.size := by
  match ms with
  | .nil => simp only [encMembers] at h; cases h; simp [Members.size]
  | .cons n d rest =>
    simp only [Members.noVarr, Bool.and_eq_true] at hd
    simp only [encMembers] at h
    split at h
    · cases h
    · split at h
      · cases h
      · next hv =>
        split at h
        · cases h
        · next hr =>
          cases h
          simp [Members.size, enc_length hd.1 hv, encMembers_length hd.2 hr]

end

/-! ## DEC after ENC, for the parts -/

theorem take_append_leBytes (n v : Nat) (rest : List Byte) : (leBytes n v ++ rest).take n = leBytes n v := by
  rw [List.take_append_of_le_length (by simp), List.take_of_length_le (by simp)]

theorem decScalar_encScalar {cfg : Config} (hk : cfg.kelvinMax ≤ 65535) {k : Scalar} {v : Int} {off : Nat}
    {b : List Byte} (rest : List Byte) (h : encScalar cfg k v off = .ok b) : decScalar k (b ++ rest) = v := by
  have hu : ∀ n, encUnsigned n v off = .ok b → ((unle ((b ++ rest).take n) : Nat) : Int) = v := by
    intro n hn
    obtain ⟨h1, h2, rfl⟩ := encUnsigned_ok hn
    have h3 : (256 : Nat) ^ n = 2 ^ (8 * n) := by rw [pow_mul]; norm_num
    rw [take_append_leBytes, unle_leBytes _ _ (by rw [h3]; omega)]
    omega
  cases k
  case i16 =>
    simp only [encScalar, encI16] at h
    split at h <;> cases h
    have h1 := twos_lt 16 v
    simp only [decScalar]
    rw [take_append_leBytes, unle_leBytes _ _ (by norm_num; omega), sext_twos_16] <;> omega
  case kelvin =>
    simp only [encScalar, encKelvin] at h
    split at h <;> cases h
    simp only [decScalar]
    rw [take_append_leBytes, unle_leBytes _ _ (by norm_num; omega)]
    omega
  all_goals exact hu _ h

theorem decLabel_encLabel {b out : List Byte} {off : Nat} (rest : List Byte) (h : encLabel b off = .ok out) :
    decLabel (out ++ rest) = b := by
  obtain ⟨h1, h2, rfl⟩ := encLabel_ok h
  have h3 : (b ++ zeros (32 - b.length) ++ rest).take 32 = b ++ zeros (32 - b.length) := by
    rw [List.take_append_of_le_length (by simp; omega), List.take_of_length_le (by simp; omega)]
  have h4 : ∀ x ∈ b, (x != 0) = true := by
    intro x hx
    simp only [bne_iff_ne]
    rintro rfl
    rw [← List.contains_iff_mem, h2] at hx
    cases hx
  unfold decLabel
  rw [h3, List.takeWhile_append_of_pos h4]
  cases 32 - b.length <;> simp [zeros, List.replicate_succ]

end Sys2Proof
end

