-- ==== Sys2Proof/Laws/Memory.lean ====
section
/-!
SUPPORT. The laws of the byte memories: what a read gives after each operation, that every operation keeps the canonical
form, and that MemRead is the byte at each address.
-/

namespace Sys2Proof.Machine

theorem Memory.wf_reset : Memory.wf State.reset.rxbuf ∧ Memory.wf State.reset.txbuf := by decide

/-! ## Cells -/

@[simp] theorem Memory.cells_nil (a : Nat) : Memory.cells a [] = [] := rfl

@[simp] theorem Memory.cells_cons (a : Nat) (b : Byte) (bs : List Byte) :
    Memory.cells a (b :: bs) = (a, b) :: Memory.cells (a + 1) bs := rfl

theorem Memory.cells_addr {a : Nat} {bs : List Byte} {c : Host.Cell} (h : c ∈ Memory.cells a bs) :
    a ≤ c.1 ∧ c.1 < a + bs.length := by
  induction bs generalizing a with
  | nil => simp at h
  | cons b bs ih =>
    rw [Memory.cells_cons, List.mem_cons] at h
    rcases h with rfl | h
    · simp
    · have := ih h
      simp only [List.length_cons]
      omega

theorem Memory.cells_wf (a : Nat) (bs : List Byte) : Memory.wf (Memory.cells a bs) := by
  induction bs generalizing a with
  | nil => simp
  | cons b bs ih =>
    rw [Memory.cells_cons]
    refine List.Pairwise.cons (fun c hc => ?_) (ih (a + 1))
    have := (Memory.cells_addr hc).1
    simp only
    omega

/-! ## The canonical form -/

theorem Memory.write_wf {m : Memory} (hm : Memory.wf m) (a : Nat) (bs : List Byte) :
    Memory.wf (Memory.write m a bs) := by
  unfold Memory.write
  refine List.pairwise_append.2 ⟨List.pairwise_append.2 ⟨hm.filter _, Memory.cells_wf a bs, ?_⟩, hm.filter _, ?_⟩
  · intro x hx y hy
    have h1 := (List.mem_filter.1 hx).2
    have h2 := Memory.cells_addr hy
    simp only [decide_eq_true_eq] at h1
    omega
  · intro x hx y hy
    have h2 := (List.mem_filter.1 hy).2
    simp only [decide_eq_true_eq] at h2
    rcases List.mem_append.1 hx with hx | hx
    · have h1 := (List.mem_filter.1 hx).2
      simp only [decide_eq_true_eq] at h1
      omega
    · have h1 := Memory.cells_addr hx
      omega

theorem Memory.forgetFrom_wf {m : Memory} (hm : Memory.wf m) (a : Nat) : Memory.wf (Memory.forgetFrom m a) :=
  hm.filter _

/-! ## Reads -/

@[simp] theorem Memory.read_nil (a : Nat) : Memory.read [] a = none := rfl

theorem Memory.read_cons (k : Nat) (b : Byte) (m : Memory) (a : Nat) :
    Memory.read ((k, b) :: m) a = if k = a then some b else Memory.read m a := rfl

theorem Memory.read_append (m n : Memory) (a : Nat) :
    Memory.read (m ++ n) a = (Memory.read m a).or (Memory.read n a) := by
  induction m with
  | nil => simp
  | cons c m ih =>
    obtain ⟨k, b⟩ := c
    rw [List.cons_append, Memory.read_cons, Memory.read_cons, ih]
    split <;> simp

theorem Memory.read_filter (p : Nat → Bool) (m : Memory) (a : Nat) :
    Memory.read (m.filter (fun c => p c.1)) a = if p a then Memory.read m a else none := by
  induction m with
  | nil => simp
  | cons c m ih =>
    obtain ⟨k, b⟩ := c
    rw [List.filter_cons, Memory.read_cons]
    by_cases hk : k = a
    · subst hk
      by_cases hp : p k = true
      · simp [hp, Memory.read_cons]
      · simp only [hp, ih, Bool.false_eq_true, if_false]
    · by_cases hp : p k = true
      · simp only [hp, if_true, Memory.read_cons, hk, if_false, ih]
      · simp only [hp, Bool.false_eq_true, if_false, hk, ih]

theorem Memory.read_cells (a : Nat) (bs : List Byte) (x : Nat) :
    Memory.read (Memory.cells a bs) x = if a ≤ x then bs[x - a]? else none := by
  induction bs generalizing a with
  | nil => simp
  | cons b bs ih =>
    rw [Memory.cells_cons, Memory.read_cons, ih]
    by_cases h : a = x
    · simp [h]
    · by_cases h2 : a ≤ x
      · have h3 : a + 1 ≤ x := by omega
        have h4 : x - a = x - (a + 1) + 1 := by omega
        simp [h, h2, h3, h4]
      · have h3 : ¬ a + 1 ≤ x := by omega
        simp [h, h2, h3]

theorem Memory.read_write (m : Memory) (a : Nat) (bs : List Byte) (x : Nat) :
    Memory.read (Memory.write m a bs) x =
      if a ≤ x ∧ x < a + bs.length then bs[x - a]? else Memory.read m x := by
  unfold Memory.write
  rw [Memory.read_append, Memory.read_append, Memory.read_filter (fun k => decide (k < a)), Memory.read_cells,
    Memory.read_filter (fun k => decide (a + bs.length ≤ k))]
  by_cases h1 : x < a
  · have h2 : ¬ a ≤ x := by omega
    have h3 : ¬ a + bs.length ≤ x := by omega
    simp [h1, h2, h3]
  · have h2 : a ≤ x := by omega
    by_cases h3 : x < a + bs.length
    · have h4 : ¬ a + bs.length ≤ x := by omega
      simp [h1, h2, h3, h4]
    · have h4 : a + bs.length ≤ x := by omega
      have h5 : bs[x - a]? = none := List.getElem?_eq_none (by omega)
      simp [h1, h3, h4, h5]

theorem Memory.read_forgetFrom (m : Memory) (a x : Nat) :
    Memory.read (Memory.forgetFrom m a) x = if x < a then Memory.read m x else none := by
  unfold Memory.forgetFrom
  rw [Memory.read_filter (fun k => decide (k < a))]
  simp

/-- An address that is below every entry reads as no value. -/
theorem Memory.read_below {m : Memory} {a : Nat} (h : ∀ c ∈ m, a < c.1) : Memory.read m a = none := by
  induction m with
  | nil => rfl
  | cons c m ih =>
    obtain ⟨k, b⟩ := c
    have h1 := h (k, b) (by simp)
    rw [Memory.read_cons, if_neg (by simp only at h1; omega)]
    exact ih (fun c hc => h c (by simp [hc]))

/-- Memories in canonical form that read alike are equal. -/
theorem Memory.ext_of_read {m n : Memory} (hm : Memory.wf m) (hn : Memory.wf n)
    (h : ∀ a, Memory.read m a = Memory.read n a) : m = n := by
  induction m generalizing n with
  | nil =>
    cases n with
    | nil => rfl
    | cons c n =>
      obtain ⟨k, b⟩ := c
      have := h k
      simp [Memory.read_cons] at this
  | cons c m ih =>
    obtain ⟨k, b⟩ := c
    cases n with
    | nil =>
      have := h k
      simp [Memory.read_cons] at this
    | cons d n =>
      obtain ⟨l, e⟩ := d
      have hm' := List.pairwise_cons.1 hm
      have hn' := List.pairwise_cons.1 hn
      have hkl : k = l := by
        rcases Nat.lt_trichotomy k l with hlt | heq | hgt
        · have h1 := h k
          rw [Memory.read_cons, if_pos rfl, Memory.read_cons, if_neg (by omega),
            Memory.read_below (fun c hc => lt_trans hlt (hn'.1 c hc))] at h1
          simp at h1
        · exact heq
        · have h1 := h l
          rw [Memory.read_cons, if_neg (by omega), Memory.read_cons, if_pos rfl,
            Memory.read_below (fun c hc => lt_trans hgt (hm'.1 c hc))] at h1
          simp at h1
      subst hkl
      have hbe : b = e := by
        have h1 := h k
        simpa [Memory.read_cons] using h1
      subst hbe
      congr 1
      refine ih hm'.2 hn'.2 (fun a => ?_)
      by_cases ha : k = a
      · subst ha
        rw [Memory.read_below (fun c hc => hm'.1 c hc), Memory.read_below (fun c hc => hn'.1 c hc)]
      · have h1 := h a
        rwa [Memory.read_cons, if_neg ha, Memory.read_cons, if_neg ha] at h1

/-! ## MemRead -/

@[simp] theorem Memory.take_length (free : Nat → Byte) (n a : Nat) (m : Memory) :
    (Memory.take free n a m).length = n := by
  induction n generalizing a m with
  | zero => simp [Memory.take]
  | succ n ih =>
    cases m with
    | nil => simp [Memory.take, ih]
    | cons c m =>
      obtain ⟨k, b⟩ := c
      simp only [Memory.take]
      split <;> simp [ih]

theorem Memory.take_getElem? (free : Nat → Byte) {m : Memory} (hm : Memory.wf m) (n a : Nat)
    (h : ∀ c ∈ m, a ≤ c.1) (i : Nat) (hi : i < n) :
    (Memory.take free n a m)[i]? = some ((Memory.read m (a + i)).getD (free (a + i))) := by
  induction n generalizing a m i with
  | zero => omega
  | succ n ih =>
    cases m with
    | nil =>
      cases i with
      | zero => simp [Memory.take]
      | succ i =>
        have h1 := ih (m := []) (by simp) (a + 1) (by simp) i (by omega)
        have h2 : a + 1 + i = a + (i + 1) := by omega
        rw [h2] at h1
        simpa [Memory.take] using h1
    | cons c m =>
      obtain ⟨k, b⟩ := c
      have hm' := List.pairwise_cons.1 hm
      have hk := h (k, b) (by simp)
      simp only at hk
      by_cases hka : k = a
      · subst hka
        have h0 : ∀ c ∈ m, k + 1 ≤ c.1 := fun c hc => hm'.1 c hc
        cases i with
        | zero => simp [Memory.take, Memory.read_cons]
        | succ i =>
          have h1 := ih hm'.2 (k + 1) h0 i (by omega)
          have h2 : k + 1 + i = k + (i + 1) := by omega
          rw [h2] at h1
          have h3 : k ≠ k + (i + 1) := by omega
          simp [Memory.take, Memory.read_cons, h1]
      · have h0 : ∀ c ∈ ((k, b) :: m : Memory), a + 1 ≤ c.1 := by
          intro c hc
          rcases List.mem_cons.1 hc with rfl | hc
          · simp only; omega
          · have := hm'.1 c hc
            simp only at this
            omega
        cases i with
        | zero =>
          have h3 : Memory.read ((k, b) :: m) a = none := Memory.read_below (fun c hc => h0 c hc)
          simp [Memory.take, hka, h3]
        | succ i =>
          have h1 := ih hm (a + 1) h0 i (by omega)
          have h2 : a + 1 + i = a + (i + 1) := by omega
          rw [h2] at h1
          simp [Memory.take, hka, h1]

theorem Memory.dropWhile_wf {m : Memory} (hm : Memory.wf m) (a : Nat) :
    Memory.wf (m.dropWhile (fun c => c.1 < a)) :=
  hm.sublist (List.dropWhile_sublist _)

theorem Memory.dropWhile_spec {m : Memory} (hm : Memory.wf m) (a : Nat) :
    (∀ c ∈ m.dropWhile (fun c => c.1 < a), a ≤ c.1) ∧
      ∀ x, a ≤ x → Memory.read (m.dropWhile (fun c => c.1 < a)) x = Memory.read m x := by
  induction m with
  | nil => simp
  | cons c m ih =>
    obtain ⟨k, b⟩ := c
    have hm' := List.pairwise_cons.1 hm
    by_cases hk : k < a
    · simp only [List.dropWhile_cons, hk, decide_true, if_true]
      refine ⟨(ih hm'.2).1, fun x hx => ?_⟩
      rw [(ih hm'.2).2 x hx, Memory.read_cons, if_neg (by omega)]
    · simp only [List.dropWhile_cons, hk, decide_false, Bool.false_eq_true, if_false]
      refine ⟨fun c hc => ?_, fun x _ => trivial⟩
      rcases List.mem_cons.1 hc with rfl | hc
      · simp only; omega
      · have := hm'.1 c hc
        simp only at this
        omega

@[simp] theorem memRead_length (s : State) (a n : Nat) : (memRead s a n).length = n := by
  simp [memRead]

@[simp] theorem datagram_length (s : State) : (datagram s).length = s.rxlen.toNat := by
  simp [datagram]

@[simp] theorem rxRest_length (s : State) : (rxRest s).length = s.rxlen.toNat - s.cur.toNat := by
  simp [rxRest]

/-- Byte `i` of MemRead is the byte of RXBUF at that address. -/
theorem memRead_getElem? {s : State} (h : Memory.wf s.rxbuf) (a n i : Nat) (hi : i < n) :
    (memRead s a n)[i]? = some (rxByte s (a + i)) := by
  have h1 := Memory.dropWhile_spec h a
  unfold memRead rxByte
  rw [Memory.take_getElem? _ (Memory.dropWhile_wf h a) n a h1.1 i hi, h1.2 _ (by omega)]

/-- MemRead is the byte of RXBUF at each address. -/
theorem memRead_eq_rxByte {s : State} (h : Memory.wf s.rxbuf) (a n : Nat) :
    memRead s a n = (List.range n).map (fun i => rxByte s (a + i)) := by
  refine List.ext_getElem? (fun i => ?_)
  by_cases hi : i < n
  · rw [memRead_getElem? h a n i hi]
    simp [hi]
  · rw [List.getElem?_eq_none (by simp; omega), List.getElem?_eq_none (by simp; omega)]

/-- What is left of the bytes of MemRead after the first `k` is MemRead from `k` further on. -/
theorem memRead_drop {s : State} (h : Memory.wf s.rxbuf) (a n k : Nat) :
    (memRead s a n).drop k = memRead s (a + k) (n - k) := by
  refine List.ext_getElem? (fun i => ?_)
  rw [List.getElem?_drop]
  by_cases hi : i < n - k
  · rw [memRead_getElem? h _ _ _ (by omega), memRead_getElem? h _ _ _ hi, Nat.add_assoc]
  · rw [List.getElem?_eq_none (by simp; omega), List.getElem?_eq_none (by simp; omega)]

/-- The frames that remain are the datagram from CUR on. -/
theorem rxRest_eq_drop {s : State} (h : Memory.wf s.rxbuf) : rxRest s = (datagram s).drop s.cur.toNat := by
  rw [datagram, memRead_drop h, Nat.zero_add, rxRest]

/-- After an ENCODE that succeeds TXBUF holds the packet and nothing else. -/
theorem writePacket_read (pkt : List Byte) (s : State) (a : Nat) :
    Memory.read (writePacket pkt s).txbuf a = pkt[a]? := by
  show Memory.read (Memory.forgetFrom (Memory.write s.txbuf 0 pkt) pkt.length) a = _
  rw [Memory.read_forgetFrom, Memory.read_write]
  by_cases h : a < pkt.length
  · simp [h]
  · rw [if_neg h, List.getElem?_eq_none (by omega)]

end Sys2Proof.Machine
end

