-- ==== Sys2Proof/Laws/State.lean ====
section
/-!
SUPPORT. What each state update leaves in each field, true by `rfl`, so that no proof unfolds a record update.
-/

namespace Sys2Proof.Machine

/-! ## `raiseFormat` -/

@[simp] theorem raiseFormat_cfg (r : FormatReject) (s : State) : (raiseFormat r s).cfg = s.cfg := rfl
@[simp] theorem raiseFormat_rxbuf (r : FormatReject) (s : State) : (raiseFormat r s).rxbuf = s.rxbuf := rfl
@[simp] theorem raiseFormat_rxlen (r : FormatReject) (s : State) : (raiseFormat r s).rxlen = s.rxlen := rfl
@[simp] theorem raiseFormat_txbuf (r : FormatReject) (s : State) : (raiseFormat r s).txbuf = s.txbuf := rfl
@[simp] theorem raiseFormat_txlen (r : FormatReject) (s : State) : (raiseFormat r s).txlen = s.txlen := rfl
@[simp] theorem raiseFormat_er (r : FormatReject) (s : State) : (raiseFormat r s).er = s.er := rfl
@[simp] theorem raiseFormat_erWritten (r : FormatReject) (s : State) :
    (raiseFormat r s).erWritten = s.erWritten := rfl
@[simp] theorem raiseFormat_outq (r : FormatReject) (s : State) : (raiseFormat r s).outq = [] := rfl
@[simp] theorem raiseFormat_outn (r : FormatReject) (s : State) : (raiseFormat r s).outn = 0 := rfl
@[simp] theorem raiseFormat_cur (r : FormatReject) (s : State) : (raiseFormat r s).cur = s.cur := rfl
@[simp] theorem raiseFormat_fcnt (r : FormatReject) (s : State) : (raiseFormat r s).fcnt = s.fcnt := rfl
@[simp] theorem raiseFormat_cmdOp (r : FormatReject) (s : State) : (raiseFormat r s).cmdOp = s.cmdOp := rfl
@[simp] theorem raiseFormat_status (r : FormatReject) (s : State) :
    (raiseFormat r s).status = statusFormat r.cause s.cur r.info := rfl
@[simp] theorem raiseFormat_phase (r : FormatReject) (s : State) : (raiseFormat r s).phase = .idle := rfl
@[simp] theorem raiseFormat_inbox (r : FormatReject) (s : State) : (raiseFormat r s).inbox = s.inbox := rfl
@[simp] theorem raiseFormat_epoch (r : FormatReject) (s : State) : (raiseFormat r s).epoch = s.epoch := rfl

/-! ## `raiseValidation` -/

@[simp] theorem raiseValidation_cfg (r : ValidationReject) (s : State) : (raiseValidation r s).cfg = s.cfg := rfl
@[simp] theorem raiseValidation_rxbuf (r : ValidationReject) (s : State) :
    (raiseValidation r s).rxbuf = s.rxbuf := rfl
@[simp] theorem raiseValidation_rxlen (r : ValidationReject) (s : State) :
    (raiseValidation r s).rxlen = s.rxlen := rfl
@[simp] theorem raiseValidation_txbuf (r : ValidationReject) (s : State) :
    (raiseValidation r s).txbuf = s.txbuf := rfl
@[simp] theorem raiseValidation_txlen (r : ValidationReject) (s : State) : (raiseValidation r s).txlen = 0 := rfl
@[simp] theorem raiseValidation_er (r : ValidationReject) (s : State) : (raiseValidation r s).er = s.er := rfl
@[simp] theorem raiseValidation_erWritten (r : ValidationReject) (s : State) :
    (raiseValidation r s).erWritten = s.erWritten := rfl
@[simp] theorem raiseValidation_outq (r : ValidationReject) (s : State) : (raiseValidation r s).outq = s.outq := rfl
@[simp] theorem raiseValidation_outn (r : ValidationReject) (s : State) : (raiseValidation r s).outn = s.outn := rfl
@[simp] theorem raiseValidation_cur (r : ValidationReject) (s : State) : (raiseValidation r s).cur = s.cur := rfl
@[simp] theorem raiseValidation_fcnt (r : ValidationReject) (s : State) : (raiseValidation r s).fcnt = s.fcnt := rfl
@[simp] theorem raiseValidation_cmdOp (r : ValidationReject) (s : State) :
    (raiseValidation r s).cmdOp = s.cmdOp := rfl
@[simp] theorem raiseValidation_status (r : ValidationReject) (s : State) :
    (raiseValidation r s).status = statusValidation r.cause r.off := rfl
@[simp] theorem raiseValidation_phase (r : ValidationReject) (s : State) : (raiseValidation r s).phase = .idle := rfl
@[simp] theorem raiseValidation_inbox (r : ValidationReject) (s : State) :
    (raiseValidation r s).inbox = s.inbox := rfl
@[simp] theorem raiseValidation_epoch (r : ValidationReject) (s : State) :
    (raiseValidation r s).epoch = s.epoch := rfl

/-! ## `endCommand` -/

@[simp] theorem endCommand_cfg (s : State) : (endCommand s).cfg = s.cfg := rfl
@[simp] theorem endCommand_rxbuf (s : State) : (endCommand s).rxbuf = s.rxbuf := rfl
@[simp] theorem endCommand_rxlen (s : State) : (endCommand s).rxlen = s.rxlen := rfl
@[simp] theorem endCommand_txbuf (s : State) : (endCommand s).txbuf = s.txbuf := rfl
@[simp] theorem endCommand_txlen (s : State) : (endCommand s).txlen = s.txlen := rfl
@[simp] theorem endCommand_er (s : State) : (endCommand s).er = s.er := rfl
@[simp] theorem endCommand_erWritten (s : State) : (endCommand s).erWritten = s.erWritten := rfl
@[simp] theorem endCommand_outq (s : State) : (endCommand s).outq = s.outq := rfl
@[simp] theorem endCommand_outn (s : State) : (endCommand s).outn = s.outn := rfl
@[simp] theorem endCommand_cur (s : State) : (endCommand s).cur = s.cur := rfl
@[simp] theorem endCommand_fcnt (s : State) : (endCommand s).fcnt = s.fcnt := rfl
@[simp] theorem endCommand_cmdOp (s : State) : (endCommand s).cmdOp = s.cmdOp := rfl
@[simp] theorem endCommand_status (s : State) : (endCommand s).status = s.status := rfl
@[simp] theorem endCommand_phase (s : State) : (endCommand s).phase = .idle := rfl
@[simp] theorem endCommand_inbox (s : State) : (endCommand s).inbox = s.inbox := rfl
@[simp] theorem endCommand_epoch (s : State) : (endCommand s).epoch = s.epoch := rfl

/-! ## `startFrames` -/

@[simp] theorem startFrames_cfg (b : Bool) (s : State) : (startFrames b s).cfg = s.cfg := rfl
@[simp] theorem startFrames_rxbuf (b : Bool) (s : State) : (startFrames b s).rxbuf = s.rxbuf := rfl
@[simp] theorem startFrames_rxlen (b : Bool) (s : State) : (startFrames b s).rxlen = s.rxlen := rfl
@[simp] theorem startFrames_txbuf (b : Bool) (s : State) : (startFrames b s).txbuf = s.txbuf := rfl
@[simp] theorem startFrames_txlen (b : Bool) (s : State) : (startFrames b s).txlen = s.txlen := rfl
@[simp] theorem startFrames_er (b : Bool) (s : State) : (startFrames b s).er = s.er := rfl
@[simp] theorem startFrames_erWritten (b : Bool) (s : State) : (startFrames b s).erWritten = s.erWritten := rfl
@[simp] theorem startFrames_outq (b : Bool) (s : State) : (startFrames b s).outq = [] := rfl
@[simp] theorem startFrames_outn (b : Bool) (s : State) : (startFrames b s).outn = 0 := rfl
@[simp] theorem startFrames_cur (b : Bool) (s : State) : (startFrames b s).cur = 0 := rfl
@[simp] theorem startFrames_fcnt (b : Bool) (s : State) : (startFrames b s).fcnt = 0 := rfl
@[simp] theorem startFrames_cmdOp (b : Bool) (s : State) : (startFrames b s).cmdOp = s.cmdOp := rfl
@[simp] theorem startFrames_status (b : Bool) (s : State) : (startFrames b s).status = statusNone := rfl
@[simp] theorem startFrames_phase (b : Bool) (s : State) : (startFrames b s).phase = .header b := rfl
@[simp] theorem startFrames_inbox (b : Bool) (s : State) : (startFrames b s).inbox = s.inbox := rfl
@[simp] theorem startFrames_epoch (b : Bool) (s : State) : (startFrames b s).epoch = s.epoch := rfl

/-! ## `pushRecord` -/

@[simp] theorem pushRecord_cfg (r : PacketRecord) (s : State) : (pushRecord r s).cfg = s.cfg := rfl
@[simp] theorem pushRecord_rxbuf (r : PacketRecord) (s : State) : (pushRecord r s).rxbuf = s.rxbuf := rfl
@[simp] theorem pushRecord_rxlen (r : PacketRecord) (s : State) : (pushRecord r s).rxlen = s.rxlen := rfl
@[simp] theorem pushRecord_txbuf (r : PacketRecord) (s : State) : (pushRecord r s).txbuf = s.txbuf := rfl
@[simp] theorem pushRecord_txlen (r : PacketRecord) (s : State) : (pushRecord r s).txlen = s.txlen := rfl
@[simp] theorem pushRecord_er (r : PacketRecord) (s : State) : (pushRecord r s).er = s.er := rfl
@[simp] theorem pushRecord_erWritten (r : PacketRecord) (s : State) : (pushRecord r s).erWritten = s.erWritten := rfl
@[simp] theorem pushRecord_outq (r : PacketRecord) (s : State) :
    (pushRecord r s).outq = s.outq.take s.outn.toNat ++ [r] := rfl
@[simp] theorem pushRecord_outn (r : PacketRecord) (s : State) : (pushRecord r s).outn = s.outn + 1 := rfl
@[simp] theorem pushRecord_cur (r : PacketRecord) (s : State) : (pushRecord r s).cur = s.cur := rfl
@[simp] theorem pushRecord_fcnt (r : PacketRecord) (s : State) : (pushRecord r s).fcnt = s.fcnt := rfl
@[simp] theorem pushRecord_cmdOp (r : PacketRecord) (s : State) : (pushRecord r s).cmdOp = s.cmdOp := rfl
@[simp] theorem pushRecord_status (r : PacketRecord) (s : State) : (pushRecord r s).status = s.status := rfl
@[simp] theorem pushRecord_phase (r : PacketRecord) (s : State) : (pushRecord r s).phase = s.phase := rfl
@[simp] theorem pushRecord_inbox (r : PacketRecord) (s : State) : (pushRecord r s).inbox = s.inbox := rfl
@[simp] theorem pushRecord_epoch (r : PacketRecord) (s : State) : (pushRecord r s).epoch = s.epoch := rfl

/-! ## `advanceFrame` -/

@[simp] theorem advanceFrame_cfg (h : Header) (s : State) : (advanceFrame h s).cfg = s.cfg := rfl
@[simp] theorem advanceFrame_rxbuf (h : Header) (s : State) : (advanceFrame h s).rxbuf = s.rxbuf := rfl
@[simp] theorem advanceFrame_rxlen (h : Header) (s : State) : (advanceFrame h s).rxlen = s.rxlen := rfl
@[simp] theorem advanceFrame_txbuf (h : Header) (s : State) : (advanceFrame h s).txbuf = s.txbuf := rfl
@[simp] theorem advanceFrame_txlen (h : Header) (s : State) : (advanceFrame h s).txlen = s.txlen := rfl
@[simp] theorem advanceFrame_er (h : Header) (s : State) : (advanceFrame h s).er = s.er := rfl
@[simp] theorem advanceFrame_erWritten (h : Header) (s : State) : (advanceFrame h s).erWritten = s.erWritten := rfl
@[simp] theorem advanceFrame_outq (h : Header) (s : State) : (advanceFrame h s).outq = s.outq := rfl
@[simp] theorem advanceFrame_outn (h : Header) (s : State) : (advanceFrame h s).outn = s.outn := rfl
@[simp] theorem advanceFrame_cur (h : Header) (s : State) : (advanceFrame h s).cur = s.cur + h.size := rfl
@[simp] theorem advanceFrame_fcnt (h : Header) (s : State) : (advanceFrame h s).fcnt = s.fcnt + 1 := rfl
@[simp] theorem advanceFrame_cmdOp (h : Header) (s : State) : (advanceFrame h s).cmdOp = s.cmdOp := rfl
@[simp] theorem advanceFrame_status (h : Header) (s : State) : (advanceFrame h s).status = s.status := rfl
@[simp] theorem advanceFrame_phase (h : Header) (s : State) :
    (advanceFrame h s).phase = if s.phase.isSingle || s.cur + h.size == s.rxlen then .idle else .header false := rfl
@[simp] theorem advanceFrame_inbox (h : Header) (s : State) : (advanceFrame h s).inbox = s.inbox := rfl
@[simp] theorem advanceFrame_epoch (h : Header) (s : State) : (advanceFrame h s).epoch = s.epoch := rfl

/-! ## `storePacket` -/

@[simp] theorem storePacket_cfg (r : PacketRecord) (s : State) : (storePacket r s).cfg = s.cfg := rfl
@[simp] theorem storePacket_rxbuf (r : PacketRecord) (s : State) : (storePacket r s).rxbuf = s.rxbuf := rfl
@[simp] theorem storePacket_rxlen (r : PacketRecord) (s : State) : (storePacket r s).rxlen = s.rxlen := rfl
@[simp] theorem storePacket_txbuf (r : PacketRecord) (s : State) : (storePacket r s).txbuf = s.txbuf := rfl
@[simp] theorem storePacket_txlen (r : PacketRecord) (s : State) : (storePacket r s).txlen = s.txlen := rfl
@[simp] theorem storePacket_er (r : PacketRecord) (s : State) : (storePacket r s).er = s.er := rfl
@[simp] theorem storePacket_erWritten (r : PacketRecord) (s : State) :
    (storePacket r s).erWritten = s.erWritten := rfl
@[simp] theorem storePacket_outq (r : PacketRecord) (s : State) :
    (storePacket r s).outq = s.outq.take s.outn.toNat ++ [r] := rfl
@[simp] theorem storePacket_outn (r : PacketRecord) (s : State) : (storePacket r s).outn = s.outn + 1 := rfl
@[simp] theorem storePacket_cur (r : PacketRecord) (s : State) : (storePacket r s).cur = s.cur + r.hdr.size := rfl
@[simp] theorem storePacket_fcnt (r : PacketRecord) (s : State) : (storePacket r s).fcnt = s.fcnt + 1 := rfl
@[simp] theorem storePacket_cmdOp (r : PacketRecord) (s : State) : (storePacket r s).cmdOp = s.cmdOp := rfl
@[simp] theorem storePacket_status (r : PacketRecord) (s : State) : (storePacket r s).status = s.status := rfl
@[simp] theorem storePacket_phase (r : PacketRecord) (s : State) :
    (storePacket r s).phase = if s.phase.isSingle || s.cur + r.hdr.size == s.rxlen then .idle else .header false := rfl
@[simp] theorem storePacket_inbox (r : PacketRecord) (s : State) : (storePacket r s).inbox = s.inbox := rfl
@[simp] theorem storePacket_epoch (r : PacketRecord) (s : State) : (storePacket r s).epoch = s.epoch := rfl

/-! ## `writePacket` -/

@[simp] theorem writePacket_cfg (pkt : List Byte) (s : State) : (writePacket pkt s).cfg = s.cfg := rfl
@[simp] theorem writePacket_rxbuf (pkt : List Byte) (s : State) : (writePacket pkt s).rxbuf = s.rxbuf := rfl
@[simp] theorem writePacket_rxlen (pkt : List Byte) (s : State) : (writePacket pkt s).rxlen = s.rxlen := rfl
@[simp] theorem writePacket_txbuf (pkt : List Byte) (s : State) :
    (writePacket pkt s).txbuf = Memory.forgetFrom (Memory.write s.txbuf 0 pkt) pkt.length := rfl
@[simp] theorem writePacket_txlen (pkt : List Byte) (s : State) :
    (writePacket pkt s).txlen = BitVec.ofNat 16 pkt.length := rfl
@[simp] theorem writePacket_er (pkt : List Byte) (s : State) : (writePacket pkt s).er = s.er := rfl
@[simp] theorem writePacket_erWritten (pkt : List Byte) (s : State) :
    (writePacket pkt s).erWritten = s.erWritten := rfl
@[simp] theorem writePacket_outq (pkt : List Byte) (s : State) : (writePacket pkt s).outq = s.outq := rfl
@[simp] theorem writePacket_outn (pkt : List Byte) (s : State) : (writePacket pkt s).outn = s.outn := rfl
@[simp] theorem writePacket_cur (pkt : List Byte) (s : State) : (writePacket pkt s).cur = s.cur := rfl
@[simp] theorem writePacket_fcnt (pkt : List Byte) (s : State) : (writePacket pkt s).fcnt = s.fcnt := rfl
@[simp] theorem writePacket_cmdOp (pkt : List Byte) (s : State) : (writePacket pkt s).cmdOp = s.cmdOp := rfl
@[simp] theorem writePacket_status (pkt : List Byte) (s : State) : (writePacket pkt s).status = s.status := rfl
@[simp] theorem writePacket_phase (pkt : List Byte) (s : State) : (writePacket pkt s).phase = s.phase := rfl
@[simp] theorem writePacket_inbox (pkt : List Byte) (s : State) : (writePacket pkt s).inbox = s.inbox := rfl
@[simp] theorem writePacket_epoch (pkt : List Byte) (s : State) : (writePacket pkt s).epoch = s.epoch := rfl

/-! ## `placeFrame` -/

@[simp] theorem placeFrame_cfg (f : List Byte) (s : State) : (placeFrame f s).cfg = s.cfg := rfl
@[simp] theorem placeFrame_rxbuf (f : List Byte) (s : State) :
    (placeFrame f s).rxbuf = Memory.write s.rxbuf s.cur.toNat f := rfl
@[simp] theorem placeFrame_rxlen (f : List Byte) (s : State) :
    (placeFrame f s).rxlen = BitVec.ofNat 16 (s.cur.toNat + f.length) := rfl
@[simp] theorem placeFrame_txbuf (f : List Byte) (s : State) : (placeFrame f s).txbuf = s.txbuf := rfl
@[simp] theorem placeFrame_txlen (f : List Byte) (s : State) : (placeFrame f s).txlen = s.txlen := rfl
@[simp] theorem placeFrame_er (f : List Byte) (s : State) : (placeFrame f s).er = s.er := rfl
@[simp] theorem placeFrame_erWritten (f : List Byte) (s : State) : (placeFrame f s).erWritten = s.erWritten := rfl
@[simp] theorem placeFrame_outq (f : List Byte) (s : State) : (placeFrame f s).outq = s.outq := rfl
@[simp] theorem placeFrame_outn (f : List Byte) (s : State) : (placeFrame f s).outn = s.outn := rfl
@[simp] theorem placeFrame_cur (f : List Byte) (s : State) : (placeFrame f s).cur = s.cur := rfl
@[simp] theorem placeFrame_fcnt (f : List Byte) (s : State) : (placeFrame f s).fcnt = s.fcnt := rfl
@[simp] theorem placeFrame_cmdOp (f : List Byte) (s : State) : (placeFrame f s).cmdOp = s.cmdOp := rfl
@[simp] theorem placeFrame_status (f : List Byte) (s : State) : (placeFrame f s).status = s.status := rfl
@[simp] theorem placeFrame_phase (f : List Byte) (s : State) : (placeFrame f s).phase = s.phase := rfl
@[simp] theorem placeFrame_inbox (f : List Byte) (s : State) : (placeFrame f s).inbox = s.inbox := rfl
@[simp] theorem placeFrame_epoch (f : List Byte) (s : State) : (placeFrame f s).epoch = s.epoch := rfl

/-! ## `writeEr` -/

@[simp] theorem writeEr_cfg (w : ErWrite) (s : State) : (writeEr w s).cfg = s.cfg := by cases w <;> rfl
@[simp] theorem writeEr_rxbuf (w : ErWrite) (s : State) : (writeEr w s).rxbuf = s.rxbuf := by cases w <;> rfl
@[simp] theorem writeEr_rxlen (w : ErWrite) (s : State) : (writeEr w s).rxlen = s.rxlen := by cases w <;> rfl
@[simp] theorem writeEr_txbuf (w : ErWrite) (s : State) : (writeEr w s).txbuf = s.txbuf := by cases w <;> rfl
@[simp] theorem writeEr_txlen (w : ErWrite) (s : State) : (writeEr w s).txlen = s.txlen := by cases w <;> rfl
@[simp] theorem writeEr_outq (w : ErWrite) (s : State) : (writeEr w s).outq = s.outq := by cases w <;> rfl
@[simp] theorem writeEr_outn (w : ErWrite) (s : State) : (writeEr w s).outn = s.outn := by cases w <;> rfl
@[simp] theorem writeEr_cur (w : ErWrite) (s : State) : (writeEr w s).cur = s.cur := by cases w <;> rfl
@[simp] theorem writeEr_fcnt (w : ErWrite) (s : State) : (writeEr w s).fcnt = s.fcnt := by cases w <;> rfl
@[simp] theorem writeEr_cmdOp (w : ErWrite) (s : State) : (writeEr w s).cmdOp = s.cmdOp := by cases w <;> rfl
@[simp] theorem writeEr_status (w : ErWrite) (s : State) : (writeEr w s).status = s.status := by cases w <;> rfl
@[simp] theorem writeEr_phase (w : ErWrite) (s : State) : (writeEr w s).phase = s.phase := by cases w <;> rfl
@[simp] theorem writeEr_inbox (w : ErWrite) (s : State) : (writeEr w s).inbox = s.inbox := by cases w <;> rfl
@[simp] theorem writeEr_epoch (w : ErWrite) (s : State) : (writeEr w s).epoch = s.epoch := by cases w <;> rfl

/-! ## `State.resetWith` -/

@[simp] theorem resetWith_cfg (c : Config) (l : List HostAction) (n : Nat) : (State.resetWith c l n).cfg = c := rfl
@[simp] theorem resetWith_rxbuf (c : Config) (l : List HostAction) (n : Nat) :
    (State.resetWith c l n).rxbuf = [] := rfl
@[simp] theorem resetWith_rxlen (c : Config) (l : List HostAction) (n : Nat) :
    (State.resetWith c l n).rxlen = 0 := rfl
@[simp] theorem resetWith_txbuf (c : Config) (l : List HostAction) (n : Nat) :
    (State.resetWith c l n).txbuf = [] := rfl
@[simp] theorem resetWith_txlen (c : Config) (l : List HostAction) (n : Nat) :
    (State.resetWith c l n).txlen = 0 := rfl
@[simp] theorem resetWith_erWritten (c : Config) (l : List HostAction) (n : Nat) :
    (State.resetWith c l n).erWritten = ⟨false, false, false, false, false, false, false, false⟩ := rfl
@[simp] theorem resetWith_outq (c : Config) (l : List HostAction) (n : Nat) : (State.resetWith c l n).outq = [] := rfl
@[simp] theorem resetWith_outn (c : Config) (l : List HostAction) (n : Nat) : (State.resetWith c l n).outn = 0 := rfl
@[simp] theorem resetWith_cur (c : Config) (l : List HostAction) (n : Nat) : (State.resetWith c l n).cur = 0 := rfl
@[simp] theorem resetWith_fcnt (c : Config) (l : List HostAction) (n : Nat) : (State.resetWith c l n).fcnt = 0 := rfl
@[simp] theorem resetWith_cmdOp (c : Config) (l : List HostAction) (n : Nat) :
    (State.resetWith c l n).cmdOp = 0 := rfl
@[simp] theorem resetWith_status (c : Config) (l : List HostAction) (n : Nat) :
    (State.resetWith c l n).status = statusNone := rfl
@[simp] theorem resetWith_phase (c : Config) (l : List HostAction) (n : Nat) :
    (State.resetWith c l n).phase = .idle := rfl
@[simp] theorem resetWith_inbox (c : Config) (l : List HostAction) (n : Nat) :
    (State.resetWith c l n).inbox = l := rfl
@[simp] theorem resetWith_epoch (c : Config) (l : List HostAction) (n : Nat) :
    (State.resetWith c l n).epoch = n := rfl

/-! ## The status values -/

@[simp] theorem statusNone_err : statusNone.err = 0 := rfl
@[simp] theorem statusNone_cause : statusNone.cause = 0 := rfl
@[simp] theorem statusNone_eoff : statusNone.eoff = 0 := rfl
@[simp] theorem statusNone_einfo : statusNone.einfo = 0 := rfl
@[simp] theorem statusFormat_err (c : FormatCause) (o i : Half) : (statusFormat c o i).err = 1 := rfl
@[simp] theorem statusFormat_cause (c : FormatCause) (o i : Half) : (statusFormat c o i).cause = formatCode c := rfl
@[simp] theorem statusFormat_eoff (c : FormatCause) (o i : Half) : (statusFormat c o i).eoff = o := rfl
@[simp] theorem statusFormat_einfo (c : FormatCause) (o i : Half) : (statusFormat c o i).einfo = i := rfl
@[simp] theorem statusValidation_err (c : ValidationCause) (o : Nat) : (statusValidation c o).err = 2 := rfl
@[simp] theorem statusValidation_cause (c : ValidationCause) (o : Nat) :
    (statusValidation c o).cause = validationCode c := rfl
@[simp] theorem statusValidation_eoff (c : ValidationCause) (o : Nat) :
    (statusValidation c o).eoff = BitVec.ofNat 16 o := rfl
@[simp] theorem statusValidation_einfo (c : ValidationCause) (o : Nat) : (statusValidation c o).einfo = 0 := rfl

end Sys2Proof.Machine
end

