-- ==== Sys2Proof/Laws/Ops.lean ====
section
/-!
SUPPORT. Once for each shared operation, everything it can do: the lookups, the frame decoder, the frame step and its loop,
ENCODE's checks, the host's actions, and what a step or an instruction that answers a next state has done.
-/

namespace Sys2Proof

/-! ## The registry -/

theorem lookupName_some {reg : List Entry} {n : String} {e : Entry} (h : lookupName reg n = some e) :
    e ∈ reg ∧ e.name = n := by
  refine ⟨List.mem_of_find?_eq_some h, ?_⟩
  have := List.find?_some h
  simpa using this

theorem lookupId_some {reg : List Entry} {t : Half} {e : Entry} (h : lookupId reg t = some e) :
    e ∈ reg ∧ e.id = t := by
  refine ⟨List.mem_of_find?_eq_some h, ?_⟩
  have := List.find?_some h
  simpa using this

theorem keysDistinct_cons {e : Entry} {reg : List Entry} (h : keysDistinct (e :: reg) = true) :
    (∀ f ∈ reg, f.name ≠ e.name ∧ f.id ≠ e.id) ∧ keysDistinct reg = true := by
  simp only [keysDistinct, Bool.and_eq_true, List.all_eq_true] at h
  refine ⟨fun f hf => ?_, h.2⟩
  have := h.1 f hf
  simpa using this

/-- In a registry with distinct ids an entry is found by its id. -/
theorem lookupId_of_mem {reg : List Entry} (h : keysDistinct reg = true) {e : Entry} (he : e ∈ reg) :
    lookupId reg e.id = some e := by
  induction reg with
  | nil => simp at he
  | cons f reg ih =>
    obtain ⟨h1, h2⟩ := keysDistinct_cons h
    unfold lookupId at ih ⊢
    rw [List.find?_cons]
    rcases List.mem_cons.1 he with rfl | he
    · simp
    · have h3 : (f.id == e.id) = false := by
        have := (h1 e he).2
        simp only [beq_eq_false_iff_ne, ne_eq]
        exact fun hc => this hc.symm
      rw [h3]
      exact ih h2 he

/-- In a registry with distinct names an entry is found by its name. -/
theorem lookupName_of_mem {reg : List Entry} (h : keysDistinct reg = true) {e : Entry} (he : e ∈ reg) :
    lookupName reg e.name = some e := by
  induction reg with
  | nil => simp at he
  | cons f reg ih =>
    obtain ⟨h1, h2⟩ := keysDistinct_cons h
    unfold lookupName at ih ⊢
    rw [List.find?_cons]
    rcases List.mem_cons.1 he with rfl | he
    · simp
    · have h3 : (f.name == e.name) = false := by
        have := (h1 e he).1
        simp only [beq_eq_false_iff_ne, ne_eq]
        exact fun hc => this hc.symm
      rw [h3]
      exact ih h2 he

/-- What well-formed parameters are. -/
theorem Config.wf_spec {cfg : Config} (h : cfg.wf = true) :
    cfg.ackBit ≠ cfg.resBit ∧ cfg.kelvinMin ≤ cfg.kelvinMax ∧ cfg.kelvinMax ≤ 65535 ∧ 36 ≤ cfg.rxMax ∧
      cfg.rxMax ≤ 65535 ∧ cfg.txMax ≤ 65535 ∧ (∀ e ∈ cfg.reg, e.ok cfg = true) ∧ keysDistinct cfg.reg = true := by
  simp only [Config.wf, Bool.and_eq_true, decide_eq_true_eq, List.all_eq_true, bne_iff_ne] at h
  tauto

/-- What a well-formed entry is. -/
theorem Entry.ok_spec {cfg : Config} {e : Entry} (h : e.ok cfg = true) :
    ∃ ms, e.desc = .struct ms ∧ ms.namesOk = true ∧ ms.varrLast = true ∧ 36 + e.desc.maxSize ≤ 65535 ∧
      36 + e.desc.maxSize ≤ cfg.txMax := by
  simp only [Entry.ok, Bool.and_eq_true] at h
  obtain ⟨_, h⟩ := h
  split at h
  · next ms hms =>
    simp only [Bool.and_eq_true, decide_eq_true_eq] at h
    refine ⟨ms, hms, h.1.1, h.1.2, ?_, ?_⟩ <;> omega
  · cases h

/-! ## The frame decoder -/

/-- Checks 2 to 4 have passed. -/
theorem lengthCheck_none {single : Bool} {rem : Nat} {h : Header} (hc : lengthCheck single rem h = none) :
    36 ≤ h.size.toNat ∧ h.size.toNat ≤ rem ∧ (single = true → h.size.toNat = rem) := by
  unfold lengthCheck at hc
  split at hc
  · cases hc
  · split at hc
    · cases hc
    · split at hc
      · cases hc
      · next h1 h2 h3 =>
        refine ⟨by omega, by omega, fun hs => ?_⟩
        simp only [hs, Bool.true_and, decide_eq_true_eq] at h3
        omega

/-- What checks 2 to 4 can find is none of the causes that name a type. -/
theorem lengthCheck_some {single : Bool} {rem : Nat} {h : Header} {c : FormatCause}
    (hc : lengthCheck single rem h = some c) : c ≠ .unknownType ∧ c ≠ .length ∧ c ≠ .short := by
  unfold lengthCheck at hc
  split at hc
  · cases hc; simp
  · split at hc
    · cases hc; simp
    · split at hc
      · cases hc; simp
      · cases hc

/-- A frame that is decoded has passed every check, and its record is the header, the entry's name and the payload. -/
theorem decodeFrame_ok {cfg : Config} {single : Bool} {s : List Byte} {r : PacketRecord}
    (h : decodeFrame cfg single s = .ok r) :
    36 ≤ s.length ∧ r.hdr = decodeHeader cfg s ∧ 36 ≤ r.hdr.size.toNat ∧ r.hdr.size.toNat ≤ s.length ∧
      (single = true → r.hdr.size.toNat = s.length) ∧
      ∃ e, lookupId cfg.reg r.hdr.msgType = some e ∧ sizesOk e.desc r.hdr.size.toNat = true ∧ r.name = e.name ∧
        r.payload = dec e.desc ((s.take r.hdr.size.toNat).drop 36) := by
  unfold decodeFrame at h
  split at h
  · cases h
  · next hlen =>
    simp only at h
    split at h
    · cases h
    · next hc =>
      obtain ⟨h1, h2, h3⟩ := lengthCheck_none hc
      split at h
      · cases h
      · next e he =>
        split at h
        · next hs =>
          cases h
          exact ⟨by omega, rfl, h1, h2, h3, e, he, hs, rfl, rfl⟩
        · cases h

/-- A frame that is refused is refused with an EINFO that is 0 unless the cause names a type. -/
theorem decodeFrame_error {cfg : Config} {single : Bool} {s : List Byte} {r : FormatReject}
    (h : decodeFrame cfg single s = .error r) : r.cause ≠ .unknownType → r.cause ≠ .length → r.info = 0 := by
  unfold decodeFrame at h
  split at h
  · cases h; simp
  · simp only at h
    split at h
    · cases h; simp
    · split at h
      · cases h; simp
      · split at h
        · cases h
        · cases h; simp

theorem ofPacket_packet {i : Instr} {r : PacketRecord} (h : i.packet = some r) : Instr.ofPacket r = some i := by
  cases i <;> simp [Instr.packet] at h <;> subst h <;> rfl

theorem some_of_ite {α : Type} {p : Prop} [Decidable p] {x i : α} {o : Option α}
    (h : (if p then some x else o) = some i) : (p ∧ x = i) ∨ o = some i := by
  by_cases hp : p
  · rw [if_pos hp] at h
    exact .inl ⟨hp, Option.some.inj h⟩
  · rw [if_neg hp] at h
    exact .inr h

theorem packet_ofPacket {i : Instr} {r : PacketRecord} (h : Instr.ofPacket r = some i) : i.packet = some r := by
  obtain ⟨hd, n, p⟩ := r
  obtain ⟨rfl, rfl⟩ | h := some_of_ite h; · rfl
  obtain ⟨rfl, rfl⟩ | h := some_of_ite h; · rfl
  obtain ⟨rfl, rfl⟩ | h := some_of_ite h; · rfl
  obtain ⟨rfl, rfl⟩ | h := some_of_ite h; · rfl
  obtain ⟨rfl, rfl⟩ | h := some_of_ite h; · rfl
  obtain ⟨rfl, rfl⟩ | h := some_of_ite h; · rfl
  obtain ⟨rfl, rfl⟩ | h := some_of_ite h; · rfl
  obtain ⟨rfl, rfl⟩ | h := some_of_ite h; · rfl
  obtain ⟨rfl, rfl⟩ | h := some_of_ite h; · rfl
  obtain ⟨rfl, rfl⟩ | h := some_of_ite h; · rfl
  obtain ⟨rfl, rfl⟩ | h := some_of_ite h; · rfl
  obtain ⟨rfl, rfl⟩ | h := some_of_ite h; · rfl
  obtain ⟨rfl, rfl⟩ | h := some_of_ite h; · rfl
  obtain ⟨rfl, rfl⟩ | h := some_of_ite h; · rfl
  cases h

namespace Machine

/-! ## ENCODE -/

/-- A packet that ENCODE builds: the entry, the checks passed, the payload's bytes. -/
theorem encodeRequest_ok {cfg : Config} {er : EncodeRequest} {pkt : List Byte} (h : encodeRequest cfg er = .ok pkt) :
    ∃ e b, lookupName cfg.reg er.name = some e ∧ shapeOk e er = true ∧ hdrCheck er = none ∧
      enc cfg e.desc er.payload 36 = .ok b ∧ pkt = headerBytes cfg (requestHeader cfg er e.id b.length) ++ b := by
  unfold encodeRequest at h
  split at h
  · cases h
  · next e he =>
    split at h
    · next hs =>
      split at h
      · cases h
      · next hh =>
        split at h
        · cases h
        · next b hb =>
          cases h
          exact ⟨e, b, he, hs, hh, hb, rfl⟩
    · cases h

theorem hdrCheck_cause {er : EncodeRequest} {r : ValidationReject} (h : hdrCheck er = some r) : r.cause = .range := by
  unfold hdrCheck at h
  repeat' split at h
  all_goals first
    | (cases h; done)
    | (cases h; rfl)

/-- The shape part of ENCODE's checks. -/
theorem shapeOk_spec {e : Entry} {er : EncodeRequest} :
    shapeOk e er = true ↔ (∀ t, er.target = some t → t.length = 6) ∧ shape e.desc er.payload = true := by
  unfold shapeOk
  cases er.target <;> simp

/-! ## Frame steps -/

/-- A frame step raises or stores a record. -/
theorem frameStep_cases (s : State) :
    (∃ r, decodeFrame s.cfg s.phase.isSingle (rxRest s) = .error r ∧ frameStep s = raiseFormat r s) ∨
      ∃ r, decodeFrame s.cfg s.phase.isSingle (rxRest s) = .ok r ∧ frameStep s = storePacket r s := by
  unfold frameStep
  split
  · next r h => exact .inl ⟨r, h, rfl⟩
  · next r h => exact .inr ⟨r, h, rfl⟩

theorem frameLoop_zero (s : State) : frameLoop 0 s = s := rfl

theorem frameLoop_succ (n : Nat) (s : State) :
    frameLoop (n + 1) s = if s.phase = .idle then s else frameLoop n (frameStep s) := rfl

theorem frameLoop_idle (n : Nat) {s : State} (h : s.phase = .idle) : frameLoop n s = s := by
  cases n with
  | zero => rfl
  | succ n => rw [frameLoop_succ, if_pos h]

/-- What every frame step keeps, the loop keeps. -/
theorem frameLoop_keeps {P : State → Prop} (h : ∀ s, P s → s.phase ≠ .idle → P (frameStep s)) (n : Nat) (s : State)
    (hs : P s) : P (frameLoop n s) := by
  induction n generalizing s with
  | zero => exact hs
  | succ n ih =>
    rw [frameLoop_succ]
    split
    · exact hs
    · next hp => exact ih _ (h s hs hp)

/-- The fields a frame step never writes. -/
theorem frameStep_sameButOut (s : State) : SameButOut s (frameStep s) := by
  rcases frameStep_cases s with ⟨r, _, h⟩ | ⟨r, _, h⟩ <;> rw [h] <;> constructor <;> simp

theorem SameButOut.refl (s : State) : SameButOut s s := by constructor <;> rfl

theorem SameButOut.trans {s t u : State} (h : SameButOut s t) (g : SameButOut t u) : SameButOut s u where
  cfg := g.cfg.trans h.cfg
  rxbuf := g.rxbuf.trans h.rxbuf
  rxlen := g.rxlen.trans h.rxlen
  txbuf := g.txbuf.trans h.txbuf
  txlen := g.txlen.trans h.txlen
  er := g.er.trans h.er
  erWritten := g.erWritten.trans h.erWritten
  cmdOp := g.cmdOp.trans h.cmdOp
  inbox := g.inbox.trans h.inbox
  epoch := g.epoch.trans h.epoch

/-- The fields the loop of PARSE never writes. -/
theorem frameLoop_sameButOut (n : Nat) (s : State) : SameButOut s (frameLoop n s) :=
  frameLoop_keeps (P := fun t => SameButOut s t) (fun _ h _ => h.trans (frameStep_sameButOut _)) n s (.refl s)

theorem startFrames_sameButOut (single : Bool) (s : State) : SameButOut s (startFrames single s) := by
  constructor <;> rfl

/-! ## Instructions -/

theorem exec_packet {i : Instr} {r : PacketRecord} (h : i.packet = some r) (s : State) :
    exec i s = .next (storePacket r s) := by
  cases i <;> simp [Instr.packet] at h <;> subst h <;> rfl

theorem exec_hdr (h : Header) (s : State) : exec (.hdr h) s = execHdr h s := rfl

theorem exec_nop (s : State) : exec .nop s = .next (endCommand { s with status := statusNone }) := rfl

theorem exec_encode (s : State) : exec .encode s = execEncode s := rfl

theorem exec_decode (s : State) : exec .decode s = .next (frameStep (startFrames true s)) := rfl

theorem exec_parse (s : State) : exec .parse s = .next (frameLoop (frameBound s) (startFrames false s)) := rfl

/-- HDR raises or goes on to the packet. -/
theorem execHdr_cases (h : Header) (s : State) :
    (∃ c, lengthCheck s.phase.isSingle (s.rxlen.toNat - s.cur.toNat) h = some c ∧
      execHdr h s = .next (raiseFormat ⟨c, 0⟩ s)) ∨
    (lengthCheck s.phase.isSingle (s.rxlen.toNat - s.cur.toNat) h = none ∧
      execHdr h s = .next { s with phase := .payload s.phase.isSingle }) := by
  unfold execHdr
  split
  · next c hc => exact .inl ⟨c, hc, rfl⟩
  · next hc => exact .inr ⟨hc, rfl⟩

/-- ENCODE is refused, raises, or writes the packet. -/
theorem execEncode_cases (s : State) :
    (s.erWritten.complete = false ∧ execEncode s = .refused .erUnwritten) ∨
    (s.erWritten.complete = true ∧ ∃ r, encodeRequest s.cfg s.er = .error r ∧
      execEncode s = .next (raiseValidation r { s with status := statusNone })) ∨
    (s.erWritten.complete = true ∧ ∃ pkt, encodeRequest s.cfg s.er = .ok pkt ∧
      execEncode s = .next (endCommand (writePacket pkt { s with status := statusNone }))) := by
  unfold execEncode
  split
  · next hc =>
    split
    · next r h => exact .inr (.inl ⟨hc, r, h, rfl⟩)
    · next p h => exact .inr (.inr ⟨hc, p, h, rfl⟩)
  · next hc => exact .inl ⟨by simpa using hc, rfl⟩

/-- What an instruction that answers a next state has done. -/
theorem exec_next {i : Instr} {s t : State} (h : exec i s = .next t) :
    (∃ r, i.packet = some r ∧ t = storePacket r s) ∨
    (∃ hd c, i = .hdr hd ∧ lengthCheck s.phase.isSingle (s.rxlen.toNat - s.cur.toNat) hd = some c ∧
      t = raiseFormat ⟨c, 0⟩ s) ∨
    (∃ hd, i = .hdr hd ∧ lengthCheck s.phase.isSingle (s.rxlen.toNat - s.cur.toNat) hd = none ∧
      t = { s with phase := .payload s.phase.isSingle }) ∨
    (i = .nop ∧ t = endCommand { s with status := statusNone }) ∨
    (i = .encode ∧ s.erWritten.complete = true ∧ ∃ r, encodeRequest s.cfg s.er = .error r ∧
      t = raiseValidation r { s with status := statusNone }) ∨
    (i = .encode ∧ s.erWritten.complete = true ∧ ∃ pkt, encodeRequest s.cfg s.er = .ok pkt ∧
      t = endCommand (writePacket pkt { s with status := statusNone })) ∨
    (i = .decode ∧ t = frameStep (startFrames true s)) ∨
    (i = .parse ∧ t = frameLoop (frameBound s) (startFrames false s)) := by
  cases hp : i.packet with
  | some r =>
    rw [exec_packet hp] at h
    cases h
    exact .inl ⟨r, rfl, rfl⟩
  | none =>
    right
    cases i <;> simp [Instr.packet] at hp
    case hdr hd =>
      rw [exec_hdr] at h
      rcases execHdr_cases hd s with ⟨c, hc, he⟩ | ⟨hc, he⟩ <;> rw [he] at h <;> cases h
      · exact .inl ⟨hd, c, rfl, hc, rfl⟩
      · exact .inr (.inl ⟨hd, rfl, hc, rfl⟩)
    case nop =>
      rw [exec_nop] at h
      cases h
      exact .inr (.inr (.inl ⟨rfl, rfl⟩))
    case encode =>
      rw [exec_encode] at h
      rcases execEncode_cases s with ⟨_, he⟩ | ⟨hc, r, hr, he⟩ | ⟨hc, p, hr, he⟩ <;> rw [he] at h <;> cases h
      · exact .inr (.inr (.inr (.inl ⟨rfl, hc, r, hr, rfl⟩)))
      · exact .inr (.inr (.inr (.inr (.inl ⟨rfl, hc, p, hr, rfl⟩))))
    case decode =>
      rw [exec_decode] at h
      cases h
      exact .inr (.inr (.inr (.inr (.inr (.inl ⟨rfl, rfl⟩)))))
    case parse =>
      rw [exec_parse] at h
      cases h
      exact .inr (.inr (.inr (.inr (.inr (.inr ⟨rfl, rfl⟩)))))

/-! ## Steps -/

/-- What a fetched instruction is: the command in CMD, the header at CUR or the packet at CUR. -/
theorem fetch_instr {s : State} {i : Instr} (h : fetch s = .instr i) :
    (s.phase = .command ∧ i = decodeCommand s.cmdOp.toNat) ∨
    (∃ b, s.phase = .header b ∧ 36 ≤ (rxRest s).length ∧ i = .hdr (decodeHeader s.cfg (rxRest s))) ∨
    (∃ b r, s.phase = .payload b ∧ decodeFrame s.cfg b (rxRest s) = .ok r ∧ Instr.ofPacket r = some i) := by
  unfold fetch at h
  split at h
  · cases h
  · next hp => cases h; exact .inl ⟨hp, rfl⟩
  · next b hp =>
    right; left
    split at h
    · cases h
    · next i' hi =>
      cases h
      unfold decodeHdr at hi
      split at hi
      · cases hi
      · next hl => cases hi; exact ⟨b, hp, by omega, rfl⟩
  · next b hp =>
    right; right
    split at h
    · cases h
    · next r hr =>
      split at h
      · next i' hi => cases h; exact ⟨b, r, hp, hr, hi⟩
      · cases h

/-- What a step that answers a next state has done. -/
theorem step_next {s t : State} (h : step s = .next t) :
    s.cfg.wf = true ∧
    ((s.phase = .idle ∧ idleStep s = .next t) ∨
      (∃ r, (s.phase.inFrames = true ∧ (r.cause ≠ .unknownType → r.cause ≠ .length → r.info = 0)) ∧
        t = raiseFormat r s) ∨
      (∃ b r, s.phase = .payload b ∧ decodeFrame s.cfg b (rxRest s) = .ok r ∧ t = storePacket r s) ∨
      (∃ b, s.phase = .header b ∧ 36 ≤ (rxRest s).length ∧
        execHdr (decodeHeader s.cfg (rxRest s)) s = .next t) ∨
      (s.phase = .command ∧ exec (decodeCommand s.cmdOp.toNat) s = .next t)) := by
  unfold step at h
  split at h
  · next hw =>
    refine ⟨hw, ?_⟩
    cases hp : s.phase with
    | idle =>
      have hf : fetch s = .idle := by simp [fetch, hp]
      rw [hf] at h
      exact .inl ⟨rfl, h⟩
    | command =>
      have hf : fetch s = .instr (decodeCommand s.cmdOp.toNat) := by simp [fetch, hp]
      rw [hf] at h
      exact .inr (.inr (.inr (.inr ⟨rfl, h⟩)))
    | header b =>
      cases hd : decodeHdr s.cfg (rxRest s) with
      | error r =>
        have hf : fetch s = .reject r := by simp [fetch, hp, hd]
        rw [hf] at h
        cases h
        refine .inr (.inl ⟨r, ⟨rfl, ?_⟩, rfl⟩)
        unfold decodeHdr at hd
        split at hd <;> cases hd
        simp
      | ok i =>
        have hf : fetch s = .instr i := by simp [fetch, hp, hd]
        rw [hf] at h
        unfold decodeHdr at hd
        split at hd
        · cases hd
        · next hl =>
          cases hd
          exact .inr (.inr (.inr (.inl ⟨b, rfl, by omega, h⟩)))
    | payload b =>
      cases hd : decodeFrame s.cfg b (rxRest s) with
      | error r =>
        have hf : fetch s = .reject r := by simp [fetch, hp, hd]
        rw [hf] at h
        cases h
        exact .inr (.inl ⟨r, ⟨rfl, decodeFrame_error hd⟩, rfl⟩)
      | ok r =>
        refine .inr (.inr (.inl ⟨b, r, rfl, hd, ?_⟩))
        cases ho : Instr.ofPacket r with
        | none =>
          have hf : fetch s = .unlisted r := by simp [fetch, hp, hd, ho]
          rw [hf] at h
          cases h
          rfl
        | some i =>
          have hf : fetch s = .instr i := by simp [fetch, hp, hd, ho]
          rw [hf] at h
          simp only at h
          rw [exec_packet (packet_ofPacket ho)] at h
          cases h
          rfl
  · cases h

/-- What an idle block that answers a next state has done: nothing, or the host's next action. -/
theorem idleStep_next {s t : State} (h : idleStep s = .next t) :
    (s.inbox = [] ∧ t = s) ∨ ∃ a rest, s.inbox = a :: rest ∧ hostAct a { s with inbox := rest } = .next t := by
  unfold idleStep at h
  split at h
  · next hi => cases h; exact .inl ⟨hi, rfl⟩
  · next a rest hi => exact .inr ⟨a, rest, hi, h⟩

/-- What a host action that answers a next state has done. -/
theorem hostAct_next {a : HostAction} {s t : State} (h : hostAct a s = .next t) :
    (∃ x bs, a = .writeRx x bs ∧ x + bs.length ≤ s.cfg.rxMax ∧ t = { s with rxbuf := Memory.write s.rxbuf x bs }) ∨
    (∃ n, a = .writeRxLen n ∧ n ≤ s.cfg.rxMax ∧ t = { s with rxlen := BitVec.ofNat 16 n }) ∨
    (∃ w, a = .writeEr w ∧ t = writeEr w s) ∨
    (∃ w, a = .writeCmd w ∧ t = { s with cmdOp := BitVec.ofNat 2 w, phase := .command }) ∨
    (t = s ∧ ∃ k, a = .readTx k ∨ a = .readOutq k ∨ a = .readRx k) ∨
    (a = .reset ∧ t = State.resetWith s.cfg s.inbox (s.epoch + 1)) := by
  cases a <;> simp only [hostAct] at h
  case writeRx x bs =>
    split at h
    · next hle => cases h; exact .inl ⟨x, bs, rfl, hle, rfl⟩
    · cases h
  case writeRxLen n =>
    split at h
    · next hle => cases h; exact .inr (.inl ⟨n, rfl, hle, rfl⟩)
    · cases h
  case writeEr w => cases h; exact .inr (.inr (.inl ⟨w, rfl, rfl⟩))
  case writeCmd w => cases h; exact .inr (.inr (.inr (.inl ⟨w, rfl, rfl⟩)))
  case readTx k =>
    split at h <;> cases h
    exact .inr (.inr (.inr (.inr (.inl ⟨rfl, k, .inl rfl⟩))))
  case readOutq k =>
    split at h <;> cases h
    exact .inr (.inr (.inr (.inr (.inl ⟨rfl, k, .inr (.inl rfl)⟩))))
  case readRx k =>
    split at h <;> cases h
    exact .inr (.inr (.inr (.inr (.inl ⟨rfl, k, .inr (.inr rfl)⟩))))
  case reset => cases h; exact .inr (.inr (.inr (.inr (.inr ⟨rfl, rfl⟩))))

end Machine

end Sys2Proof
end

