-- ==== Sys2Proof/Laws/PerInstr.lean ====
section
/-!
SUPPORT. The per-instruction family: an instruction that is a packet is the row that the packet's type name selects
(spec/30_encoding.md R53, R67).
-/

namespace Sys2Proof.Laws

/-- The packet an instruction is selects that instruction's row. -/
def RowOfPacket.Statement (i : Instr) : Prop := ∀ r, i.packet = some r → Instr.ofPacket r = some i

theorem RowOfPacket.hdr (h : Header) : RowOfPacket.Statement (.hdr h) := fun _ hr => by cases hr
theorem RowOfPacket.getService (h : Header) (p : Value) : RowOfPacket.Statement (.getService h p) :=
  fun _ hr => by cases hr; rfl
theorem RowOfPacket.stateService (h : Header) (p : Value) : RowOfPacket.Statement (.stateService h p) :=
  fun _ hr => by cases hr; rfl
theorem RowOfPacket.setPower (h : Header) (p : Value) : RowOfPacket.Statement (.setPower h p) :=
  fun _ hr => by cases hr; rfl
theorem RowOfPacket.statePower (h : Header) (p : Value) : RowOfPacket.Statement (.statePower h p) :=
  fun _ hr => by cases hr; rfl
theorem RowOfPacket.setLabel (h : Header) (p : Value) : RowOfPacket.Statement (.setLabel h p) :=
  fun _ hr => by cases hr; rfl
theorem RowOfPacket.stateLabel (h : Header) (p : Value) : RowOfPacket.Statement (.stateLabel h p) :=
  fun _ hr => by cases hr; rfl
theorem RowOfPacket.acknowledgement (h : Header) (p : Value) : RowOfPacket.Statement (.acknowledgement h p) :=
  fun _ hr => by cases hr; rfl
theorem RowOfPacket.setColor (h : Header) (p : Value) : RowOfPacket.Statement (.setColor h p) :=
  fun _ hr => by cases hr; rfl
theorem RowOfPacket.getColorZones (h : Header) (p : Value) : RowOfPacket.Statement (.getColorZones h p) :=
  fun _ hr => by cases hr; rfl
theorem RowOfPacket.stateZone (h : Header) (p : Value) : RowOfPacket.Statement (.stateZone h p) :=
  fun _ hr => by cases hr; rfl
theorem RowOfPacket.stateMultiZone (h : Header) (p : Value) : RowOfPacket.Statement (.stateMultiZone h p) :=
  fun _ hr => by cases hr; rfl
theorem RowOfPacket.stateDeviceChain (h : Header) (p : Value) : RowOfPacket.Statement (.stateDeviceChain h p) :=
  fun _ hr => by cases hr; rfl
theorem RowOfPacket.stateTileState64 (h : Header) (p : Value) : RowOfPacket.Statement (.stateTileState64 h p) :=
  fun _ hr => by cases hr; rfl
theorem RowOfPacket.setTileState64 (h : Header) (p : Value) : RowOfPacket.Statement (.setTileState64 h p) :=
  fun _ hr => by cases hr; rfl
theorem RowOfPacket.nop : RowOfPacket.Statement .nop := fun _ hr => by cases hr
theorem RowOfPacket.encode : RowOfPacket.Statement .encode := fun _ hr => by cases hr
theorem RowOfPacket.decode : RowOfPacket.Statement .decode := fun _ hr => by cases hr
theorem RowOfPacket.parse : RowOfPacket.Statement .parse := fun _ hr => by cases hr

end Sys2Proof.Laws
end

