-- ==== Sys2Proof/Tests/Slice0.lean ====
section
/-!
SUPPORT. Tests: every instruction's decoding and encoding from bytes written out in spec/95_test_vectors.md, the checks of
WellFormed, one step of each command, and for each statement with hypotheses a state and operands that meet them. The expected
results are the spec's (the vector's section stands in each comment), not the model's answers.
-/

namespace Sys2Proof.Tests

open Sys2Proof Sys2Proof.Machine

set_option Elab.async false

/-! ## Helpers -/

/-- The target of the spec's vectors. -/
def exTarget : Mac := ⟨0xd0, 0x73, 0xd5, 0x01, 0x02, 0x03⟩

/-- The header of the spec's vectors. -/
def exHeader (size : Half) (ack res : BitVec 1) (sequence : Byte) (msgType : Half) : Header :=
  ⟨size, 1024, 1, 0, 0, 168496141, exTarget, ack, res, sequence, msgType⟩

/-- The 36 bytes of that header: size, flags, sequence and type as the vector writes them. -/
def exBytes (size0 size1 flags sequence type0 type1 : Byte) : List Byte :=
  [size0, size1, 0x00, 0x14, 0x0d, 0x0c, 0x0b, 0x0a, 0xd0, 0x73, 0xd5, 0x01, 0x02, 0x03, 0x00, 0x00, 0x00, 0x00, 0x00, 0x00,
   0x00, 0x00, flags, sequence, 0x00, 0x00, 0x00, 0x00, 0x00, 0x00, 0x00, 0x00, type0, type1, 0x00, 0x00]

/-- The bytes decode to the instruction as one whole packet, and the instruction encodes to the bytes. -/
def reads (bytes : List Byte) (i : Instr) : Bool :=
  (match decodeFrame Config.default true bytes with
    | .ok r => Instr.ofPacket r == some i
    | .error _ => false) && encode Config.default i == bytes

/-- A record. -/
def rec (fs : List (String × Value)) : Value := .record (.ofList fs)

/-- The label "Kitchen". -/
def kitchen : List Byte := [0x4b, 0x69, 0x74, 0x63, 0x68, 0x65, 0x6e]

/-- The colour CA and its bytes. -/
def colorA : Value := hsbkValue 21845 65535 32768 3500
def bytesA : List Byte := [0x55, 0x55, 0xff, 0xff, 0x00, 0x80, 0xac, 0x0d]

/-- The colour CB and its bytes. -/
def colorB : Value := hsbkValue 0 0 65535 9000
def bytesB : List Byte := [0x00, 0x00, 0x00, 0x00, 0xff, 0xff, 0x28, 0x23]

/-- The Tile of the spec's example and its 55 bytes. -/
def tileA : Value := rec
  [("accelMeasX", .int (-1)), ("accelMeasY", .int 2), ("accelMeasZ", .int (-32768)), ("userX", .int 0x3F800000),
   ("userY", .int 0xBF000000), ("width", .int 8), ("height", .int 8), ("deviceVersionVendor", .int 1),
   ("deviceVersionProduct", .int 55), ("deviceVersionVersion", .int 10), ("firmwareBuild", .int 0x0102030405060708),
   ("firmwareVersionMinor", .int 50), ("firmwareVersionMajor", .int 3)]
def bytesTileA : List Byte :=
  [0xff, 0xff, 0x02, 0x00, 0x00, 0x80, 0x00, 0x00, 0x00, 0x00, 0x80, 0x3f, 0x00, 0x00, 0x00, 0xbf, 0x08, 0x08, 0x00,
   0x01, 0x00, 0x00, 0x00, 0x37, 0x00, 0x00, 0x00, 0x0a, 0x00, 0x00, 0x00, 0x08, 0x07, 0x06, 0x05, 0x04, 0x03, 0x02,
   0x01, 0x00, 0x00, 0x00, 0x00, 0x00, 0x00, 0x00, 0x00, 0x32, 0x00, 0x03, 0x00, 0x00, 0x00, 0x00, 0x00]

/-- The Tile whose every member is 0. -/
def tileZero : Value := rec
  (["accelMeasX", "accelMeasY", "accelMeasZ", "userX", "userY", "width", "height", "deviceVersionVendor",
    "deviceVersionProduct", "deviceVersionVersion", "firmwareBuild", "firmwareVersionMinor",
    "firmwareVersionMajor"].map (fun n => (n, .int 0)))

/-- The 64 colours of the tile vectors. -/
def colors64 : Value :=
  .list (.ofList ((List.range 64).map (fun i => hsbkValue (1000 * i) 65535 i (2500 + 100 * i))))

/-- A state with the bytes in RXBUF. -/
def rxState (bytes : List Byte) : State :=
  { State.reset with rxbuf := Memory.cells 0 bytes, rxlen := BitVec.ofNat 16 bytes.length }

/-- A state with every field of ER written. -/
def erState (er : EncodeRequest) : State :=
  { State.reset with er := er, erWritten := ⟨true, true, true, true, true, true, true, true⟩ }

/-- The encode request of the spec's vectors. -/
def request (name : String) (sequence resRequired : Int) (payload : Value) : EncodeRequest :=
  { name := name, source := 0x0A0B0C0D, target := some exTarget.bytes, tagged := 0, ackRequired := 0,
    resRequired := resRequired, sequence := sequence, payload := payload }

/-- A test of the next state. -/
def after (o : Host.Outcome State Fault Refusal) (f : State → Bool) : Bool :=
  match o with
  | .next t => f t
  | .fault _ => false
  | .refused _ => false

/-- The setPower packet of S1 and the statePower packet of S1. -/
def setPowerBytes : List Byte := exBytes 0x26 0x00 0x02 0x07 0x15 0x00 ++ [0xff, 0xff]
def statePowerBytes : List Byte := exBytes 0x26 0x00 0x00 0x07 0x16 0x00 ++ [0xff, 0xff]
def serviceBytes : List Byte := exBytes 0x29 0x00 0x00 0x00 0x03 0x00 ++ [0x01, 0x7c, 0xdd, 0x00, 0x00]
def labelBytes : List Byte := exBytes 0x44 0x00 0x00 0x08 0x19 0x00 ++ kitchen ++ zeros 25
def level (n : Int) : Value := rec [("level", .int n)]
def statePowerRecord : PacketRecord := ⟨exHeader 38 0 0 7 22, "statePower", level 65535⟩
def serviceRecord : PacketRecord := ⟨exHeader 41 0 0 0 3, "stateService", rec [("service", .int 1), ("port", .int 56700)]⟩
def labelRecord : PacketRecord := ⟨exHeader 68 0 0 8 25, "stateLabel", rec [("label", .bytes kitchen)]⟩

/-! ## Decoding and encoding, one vector per row -/

/-- 2.5 row 1 (broadcast: tagged 1, no target). -/
theorem test_getService :
    reads
      [0x24, 0x00, 0x00, 0x34, 0x0d, 0x0c, 0x0b, 0x0a, 0x00, 0x00, 0x00, 0x00, 0x00, 0x00, 0x00, 0x00, 0x00, 0x00, 0x00,
       0x00, 0x00, 0x00, 0x02, 0x00, 0x00, 0x00, 0x00, 0x00, 0x00, 0x00, 0x00, 0x00, 0x02, 0x00, 0x00, 0x00]
      (.getService ⟨36, 1024, 1, 1, 0, 168496141, ⟨0, 0, 0, 0, 0, 0⟩, 0, 1, 0, 2⟩ (rec [])) = true := by decide +kernel

/-- R111's example. -/
theorem test_stateService :
    reads serviceBytes (.stateService (exHeader 41 0 0 0 3) (rec [("service", .int 1), ("port", .int 56700)])) = true := by
  decide +kernel

/-- S1. -/
theorem test_setPower : reads setPowerBytes (.setPower (exHeader 38 0 1 7 21) (level 65535)) = true := by decide +kernel

/-- S1, the reply. -/
theorem test_statePower : reads statePowerBytes (.statePower (exHeader 38 0 0 7 22) (level 65535)) = true := by
  decide +kernel

/-- 2.2: a label of six bytes with ack = 1. -/
theorem test_setLabel :
    reads (exBytes 0x44 0x00 0x01 0x0d 0x18 0x00 ++ [0x4b, 0xc3, 0xbc, 0x63, 0x68, 0x65] ++ zeros 26)
      (.setLabel (exHeader 68 1 0 13 24) (rec [("label", .bytes [0x4b, 0xc3, 0xbc, 0x63, 0x68, 0x65])])) = true := by
  decide +kernel

/-- R115's example. -/
theorem test_stateLabel :
    reads labelBytes (.stateLabel (exHeader 68 0 0 8 25) (rec [("label", .bytes kitchen)])) = true := by decide +kernel

/-- 2.5 row 3. -/
theorem test_acknowledgement :
    reads (exBytes 0x24 0x00 0x00 0x09 0x2d 0x00) (.acknowledgement (exHeader 36 0 0 9 45) (rec [])) = true := by
  decide +kernel

/-- 2.3 row 3. -/
theorem test_setColor :
    reads (exBytes 0x31 0x00 0x01 0x0a 0x66 0x00 ++ [0x00] ++ bytesA ++ [0xe8, 0x03, 0x00, 0x00])
      (.setColor (exHeader 49 1 0 10 102) (rec [("color", colorA), ("duration", .int 1000)])) = true := by decide +kernel

/-- S2. -/
theorem test_getColorZones :
    reads (exBytes 0x26 0x00 0x02 0x0b 0xf6 0x01 ++ [0x00, 0x07])
      (.getColorZones (exHeader 38 0 1 11 502) (rec [("startIndex", .int 0), ("endIndex", .int 7)])) = true := by
  decide +kernel

/-- S2. -/
theorem test_stateZone :
    reads (exBytes 0x2e 0x00 0x00 0x0c 0xf7 0x01 ++ [0x10, 0x03] ++ bytesA)
      (.stateZone (exHeader 46 0 0 12 503) (rec [("count", .int 16), ("index", .int 3), ("color", colorA)])) = true := by
  decide +kernel

/-- S2: two colours, counted from the frame's length. -/
theorem test_stateMultiZone :
    reads (exBytes 0x36 0x00 0x00 0x0b 0xfa 0x01 ++ [0x10, 0x00] ++ bytesA ++ bytesB)
      (.stateMultiZone (exHeader 54 0 0 11 506)
        (rec [("count", .int 16), ("index", .int 0), ("colors", .list (.ofList [colorA, colorB]))])) = true := by
  decide +kernel

/-- 2.6: the total count at packet offset 917. -/
theorem test_stateDeviceChain :
    reads (exBytes 0x96 0x03 0x00 0x14 0xbe 0x02 ++ [0x00] ++ bytesTileA ++ zeros 825 ++ [0x01])
      (.stateDeviceChain (exHeader 918 0 0 20 702)
        (rec [("startIndex", .int 0), ("tileDevices", .list (.ofList (tileA :: List.replicate 15 tileZero))),
          ("totalCount", .int 1)])) = true := by
  decide +kernel

/-- The payload layout of R122 with the colours at payload offset 5. -/
theorem test_stateTileState64 :
    (match decodeFrame Config.default true
        (exBytes 0x29 0x02 0x00 0x15 0xc7 0x02 ++ [0x02, 0xee, 0x03, 0x04, 0x08] ++ (List.replicate 64 bytesB).flatten) with
      | .ok r => Instr.ofPacket r == some (.stateTileState64 (exHeader 553 0 0 21 711)
          (rec [("tileIndex", .int 2), ("x", .int 3), ("y", .int 4), ("width", .int 8),
            ("colors", .list (.ofList (List.replicate 64 colorB)))]))
      | .error _ => false) = true := by
  decide +kernel

/-- 2.6: the bytes the vector lists. -/
theorem test_stateTileState64_encode :
    ((fun b : List Byte =>
      b.length == 553 &&
      b.take 49 == exBytes 0x29 0x02 0x00 0x15 0xc7 0x02 ++
        [0x02, 0x00, 0x00, 0x00, 0x08, 0x00, 0x00, 0xff, 0xff, 0x00, 0x00, 0xc4, 0x09] &&
      b.drop 545 == [0x18, 0xf6, 0xff, 0xff, 0x3f, 0x00, 0x60, 0x22])
      (encode Config.default (.stateTileState64 (exHeader 553 0 0 21 711)
        (rec [("tileIndex", .int 2), ("x", .int 0), ("y", .int 0), ("width", .int 8), ("colors", colors64)])))) = true := by
  decide +kernel

/-- The payload layout of R123 with the colours at payload offset 10. -/
theorem test_setTileState64 :
    (match decodeFrame Config.default true
        (exBytes 0x2e 0x02 0x01 0x16 0xcb 0x02 ++ [0x02, 0x01, 0xee, 0x03, 0x04, 0x08, 0xf4, 0x01, 0x00, 0x00] ++
          (List.replicate 64 bytesB).flatten) with
      | .ok r => Instr.ofPacket r == some (.setTileState64 (exHeader 558 1 0 22 715)
          (rec [("tileIndex", .int 2), ("length", .int 1), ("x", .int 3), ("y", .int 4), ("width", .int 8),
            ("duration", .int 500), ("colors", .list (.ofList (List.replicate 64 colorB)))]))
      | .error _ => false) = true := by
  decide +kernel

/-- 2.6: the bytes the vector lists. -/
theorem test_setTileState64_encode :
    ((fun b : List Byte =>
      b.length == 558 &&
      b.take 54 == exBytes 0x2e 0x02 0x01 0x16 0xcb 0x02 ++
        [0x02, 0x01, 0x00, 0x00, 0x00, 0x08, 0xf4, 0x01, 0x00, 0x00, 0x00, 0x00, 0xff, 0xff, 0x00, 0x00, 0xc4, 0x09] &&
      b.drop 550 == [0x18, 0xf6, 0xff, 0xff, 0x3f, 0x00, 0x60, 0x22])
      (encode Config.default (.setTileState64 (exHeader 558 1 0 22 715)
        (rec [("tileIndex", .int 2), ("length", .int 1), ("x", .int 0), ("y", .int 0), ("width", .int 8),
          ("duration", .int 500), ("colors", colors64)])))) = true := by
  decide +kernel

/-- 2.5, last row: every reserved bit set; the header that is read is S1's. -/
theorem test_hdr_reserved_bits :
    decodeHeader Config.default
      [0x26, 0x00, 0x00, 0x14, 0x0d, 0x0c, 0x0b, 0x0a, 0xd0, 0x73, 0xd5, 0x01, 0x02, 0x03, 0xaa, 0xbb, 0x11, 0x11, 0x11,
       0x11, 0x11, 0x11, 0xfe, 0x07, 0x22, 0x22, 0x22, 0x22, 0x22, 0x22, 0x22, 0x22, 0x15, 0x00, 0x33, 0x44] =
      exHeader 38 0 1 7 21 := by
  decide +kernel

/-- 2.5: bytes 2..3 = 01 80 and byte 22 = fd. -/
theorem test_hdr_fields :
    decodeHeader Config.default
      [0x26, 0x00, 0x01, 0x80, 0x0d, 0x0c, 0x0b, 0x0a, 0xd0, 0x73, 0xd5, 0x01, 0x02, 0x03, 0x00, 0x00, 0x00, 0x00, 0x00,
       0x00, 0x00, 0x00, 0xfd, 0x07, 0x00, 0x00, 0x00, 0x00, 0x00, 0x00, 0x00, 0x00, 0x15, 0x00, 0x00, 0x00] =
      ⟨38, 1, 0, 0, 2, 168496141, exTarget, 1, 0, 7, 21⟩ := by
  decide +kernel

/-- R19: 0 NOP, 1 ENCODE, 2 DECODE, 3 PARSE; the bits above the two are ignored. -/
theorem test_commands :
    [0, 1, 2, 3, 0xfc, 0x1d, 0x102, 0xffff].map decodeCommand =
      [.nop, .encode, .decode, .parse, .nop, .encode, .decode, .parse] := by
  decide

/-- The words of spec/opcode_table.json: a PKT row's word is the type id, a CMD row's word the operation. -/
theorem test_table_words :
    ([21, 506, 715].map (decodeTableWord 16)).map (fun o => o.bind Instr.packet |>.map (fun r => r.name)) =
      [some "setPower", some "stateMultiZone", some "setTileState64"] ∧
    [0, 1, 2, 3].map (decodeTableWord 2) = [some .nop, some .encode, some .decode, some .parse] ∧
    (decodeTableWord 16 1).isNone = true ∧ (decodeTableWord 0 0).isSome = true := by
  decide +kernel

/-! ## Codecs -/

/-- 2.1: bytes and rejected values. -/
theorem test_scalars :
    encScalar Config.default .u32 0x12345678 0 = .ok [0x78, 0x56, 0x34, 0x12] ∧
      encScalar Config.default .i16 (-32768) 0 = .ok [0x00, 0x80] ∧ decScalar .i16 [0xff, 0xff] = -1 ∧
      encScalar Config.default .f32 0x7FC00001 0 = .ok [0x01, 0x00, 0xc0, 0x7f] ∧
      encScalar Config.default .u8 256 7 = .error ⟨.range, 7⟩ ∧
      encScalar Config.default .i16 32768 7 = .error ⟨.range, 7⟩ := by
  refine ⟨rfl, rfl, by decide, rfl, rfl, rfl⟩

/-- 2.2: what follows the first zero byte is ignored; 32 bytes without a zero are all taken. -/
theorem test_labels :
    decLabel (kitchen ++ [0x00, 0x00, 0x00, 0x41, 0x00] ++ zeros 20) = kitchen ∧
      decLabel (List.replicate 32 0xff) = List.replicate 32 0xff ∧ decLabel (zeros 32) = [] ∧
      encLabel (List.replicate 33 0x41) 36 = .error ⟨.stringLen, 36⟩ ∧
      encLabel [0x41, 0x00, 0x42] 36 = .error ⟨.stringNul, 36⟩ := by
  refine ⟨by decide, by decide, by decide, rfl, rfl⟩

/-! ## Well-formed instructions: each check refuses -/

theorem test_wellFormed : (Instr.statePower (exHeader 38 0 0 7 22) (level 65535)).problem Config.default = none := by
  decide +kernel

theorem test_illFormed_unknownName :
    packetProblem Config.default ⟨exHeader 36 0 0 0 2, "bogus", rec []⟩ = some .unknownName := by decide +kernel

theorem test_illFormed_wrongType :
    (Instr.statePower (exHeader 38 0 0 7 21) (level 1)).problem Config.default = some .wrongType := by decide +kernel

theorem test_illFormed_shape :
    (Instr.setPower (exHeader 38 0 0 7 21) (rec [("level", .int 1), ("duration", .int 0)])).problem Config.default =
      some .shape := by decide +kernel

theorem test_illFormed_range :
    (Instr.setPower (exHeader 38 0 0 7 21) (level 65536)).problem Config.default = some (.field ⟨.range, 36⟩) := by
  decide +kernel

theorem test_illFormed_kelvin :
    (Instr.setColor (exHeader 49 0 0 7 102) (rec [("color", hsbkValue 0 0 0 2499), ("duration", .int 0)])).problem
      Config.default = some (.field ⟨.range, 43⟩) := by decide +kernel

theorem test_illFormed_stringLen :
    (Instr.setLabel (exHeader 68 0 0 7 24) (rec [("label", .bytes (List.replicate 33 0x41))])).problem Config.default =
      some (.field ⟨.stringLen, 36⟩) := by decide +kernel

theorem test_illFormed_stringNul :
    (Instr.setLabel (exHeader 68 0 0 7 24) (rec [("label", .bytes [0x41, 0x00, 0x42])])).problem Config.default =
      some (.field ⟨.stringNul, 36⟩) := by decide +kernel

theorem test_illFormed_arrayLen :
    (Instr.stateMultiZone (exHeader 38 0 0 7 506)
      (rec [("count", .int 1), ("index", .int 0), ("colors", .list .nil)])).problem Config.default =
      some (.field ⟨.arrayLen, 38⟩) := by decide +kernel

theorem test_illFormed_wrongSize :
    (Instr.setPower (exHeader 40 0 0 7 21) (level 1)).problem Config.default = some .wrongSize := by decide +kernel

theorem test_illFormed_memberOrder :
    (Instr.stateService (exHeader 41 0 0 7 3) (rec [("port", .int 1), ("service", .int 1)])).problem Config.default =
      some .memberOrder := by decide +kernel

/-! ## Commands, each one step -/

/-- R130. -/
theorem test_nop :
    after (exec .nop { State.reset with status := statusFormat .short 0 0, fcnt := 1, cur := 41 })
      (fun t => t.status == statusNone && t.fcnt == 1 && t.cur == 41) = true := by decide +kernel

/-- S1: the packet and its length. -/
theorem test_encode_packet :
    after (exec .encode (erState (request "setPower" 7 1 (level 65535))))
      (fun t => t.status == statusNone && t.txlen == 38 && txPacket t == setPowerBytes.map some) = true := by
  decide +kernel

/-- P5, step 2: the label is too long. -/
theorem test_encode_fault :
    after (exec .encode (erState (request "setLabel" 14 1 (rec [("label", .bytes (List.replicate 33 0x41))]))))
      (fun t => t.status == ⟨2, 0x14, 36, 0⟩ && t.txlen == 0) = true := by decide +kernel

/-- S1: the reply. -/
theorem test_decode_packet :
    after (exec .decode (rxState statePowerBytes))
      (fun t => t.status == statusNone && t.outn == 1 && t.outq == [statePowerRecord] && t.cur == 38 && t.fcnt == 1) =
      true := by decide +kernel

/-- S3: the length disagrees with the type. -/
theorem test_decode_fault :
    after (exec .decode (rxState (exBytes 0x28 0x00 0x02 0x07 0x15 0x00 ++ [0xff, 0xff, 0x00, 0x00])))
      (fun t => t.status == ⟨1, 0x06, 0, 21⟩ && t.outn == 0 && t.cur == 0 && t.fcnt == 0) = true := by decide +kernel

/-- P2. -/
theorem test_parse_packets :
    after (exec .parse (rxState (serviceBytes ++ statePowerBytes ++ labelBytes)))
      (fun t => t.status == statusNone && t.outn == 3 && t.fcnt == 3 && t.cur == 147 &&
        t.outq == [serviceRecord, statePowerRecord, labelRecord]) = true := by decide +kernel

/-- P3: the second frame's type is unknown; the first record is dropped. -/
theorem test_parse_fault :
    after (exec .parse (rxState (serviceBytes ++ (exBytes 0x26 0x00 0x00 0x07 0xff 0xff ++ [0xff, 0xff]) ++ labelBytes)))
      (fun t => t.status == ⟨1, 0x05, 41, 65535⟩ && t.outn == 0 && t.fcnt == 1 && t.cur == 41) = true := by
  decide +kernel

/-- P6: PARSE straight after reset, run by the machine's own steps from the host's write to CMD. -/
theorem test_parse_after_reset :
    after (Sys2Proof.core.run 2 (State.resetWith Config.default [.writeCmd 3] 0))
      (fun t => t.status == ⟨1, 0x01, 0, 0⟩ && t.outn == 0 && t.phase == .idle) = true := by decide +kernel

/-! ## Witnesses: states and operands that meet the hypotheses of the statements -/

/-- The state after reset, the host's actions to come. -/
def hostState (l : List HostAction) : State := State.resetWith Config.default l 0

/-- A state in the middle of a PARSE of the bytes: one frame of 41 bytes has been stored. -/
def midParse (bytes : List Byte) : State :=
  { rxState (serviceBytes ++ bytes) with
    outq := [serviceRecord], outn := 1, cur := 41, fcnt := 1, phase := .payload false }

/-- A state with a packet of 38 bytes in TXBUF, a record in OUTQ and 38 bytes in RXBUF, the host's actions to come. -/
def resultState (l : List HostAction) : State :=
  { rxState statePowerBytes with
    txbuf := Memory.cells 0 setPowerBytes, txlen := 38, outq := [statePowerRecord], outn := 1, inbox := l }

theorem test_witness_ResetEventStartsNothing :
    (hostState [.reset]).cfg.wf = true ∧ (hostState [.reset]).phase = .idle ∧ (hostState [.reset]).inbox = [.reset] := by
  decide +kernel

theorem test_witness_CmdWriteRunsTheNamedCommand :
    Config.default.wf = true ∧ (hostState [.writeCmd 3]).inbox = [.writeCmd 3] ∧ (hostState []).phase = .idle ∧
      ([4, 5, 6, 7] : List Nat).map (· % 4) = [0, 1, 2, 3] := by
  decide +kernel

/-- The last address of RXBUF and the first that it does not have; RXMAX and one more; each field of ER. -/
theorem test_witness_HostWritesOfTheDatagram :
    (hostState [.writeRx 65533 [1, 2]]).inbox = [.writeRx 65533 [1, 2]] ∧
      65533 + ([1, 2] : List Byte).length ≤ Config.default.rxMax ∧
      Config.default.rxMax < 65534 + ([1, 2] : List Byte).length ∧
      (hostState [.writeRxLen 65535]).inbox = [.writeRxLen 65535] ∧ 65535 ≤ Config.default.rxMax ∧
      Config.default.rxMax < 65536 ∧ (hostState []).cfg.wf = true ∧ (hostState []).phase = .idle ∧
      (∀ w, w ∈ [ErWrite.name "setPower", .source 7, .target none, .tagged 1, .ackRequired 1, .resRequired 0, .sequence 255,
          .payload (level 1)] → (hostState [.writeEr w]).inbox = .writeEr w :: []) := by
  refine ⟨rfl, by decide, by decide, rfl, by decide, by decide, by decide +kernel, rfl, fun w _ => rfl⟩

/-- On both sides of TXLEN, OUTN and RXLEN. -/
theorem test_witness_HostReadsOnlyValidResults :
    (resultState []).cfg.wf = true ∧ (resultState []).phase = .idle ∧
      (resultState [.readTx 37]).inbox = [.readTx 37] ∧ 37 < (resultState []).txlen.toNat ∧
      (resultState []).txlen.toNat ≤ 38 ∧ (resultState [.readOutq 0]).inbox = [.readOutq 0] ∧
      0 < (resultState []).outn.toNat ∧ (resultState []).outn.toNat ≤ 1 ∧
      (resultState [.readRx 37]).inbox = [.readRx 37] ∧ 37 < (resultState []).rxlen.toNat ∧
      (resultState []).rxlen.toNat ≤ 38 := by
  decide +kernel

theorem test_witness_IntegerByteLaws :
    (0 : Nat) < 256 ^ 0 ∧ 65535 < 256 ^ 2 ∧ (-32768 : Int) ≤ -32768 ∧ (32767 : Int) ≤ 32767 := by decide

/-- The six rows at the bounds; -32769, 32768 and 2^64 are outside. -/
theorem test_witness_IntegerCodecsCheckEncodeAndDecode :
    (Scalar.i16, (-32768 : Int), (32767 : Int), 2) ∈
      [(Scalar.u8, (0 : Int), (255 : Int), 1), (Scalar.u16, 0, 65535, 2), (Scalar.u32, 0, 4294967295, 4),
       (Scalar.u64, 0, 18446744073709551615, 8), (Scalar.i16, -32768, 32767, 2), (Scalar.f32, 0, 4294967295, 4)] ∧
      ¬((-32768 : Int) ≤ -32769) ∧ ¬((32768 : Int) ≤ 32767) ∧ ¬((18446744073709551616 : Int) ≤ 18446744073709551615) := by
  decide

theorem test_witness_LabelCodec :
    32 < (List.replicate 33 (0x41 : Byte)).length ∧ ([0x41, 0x00] : List Byte).length ≤ 32 ∧
      (0 : Byte) ∈ ([0x41, 0x00] : List Byte) ∧ (List.replicate 32 (0x41 : Byte)).length ≤ 32 ∧
      (0 : Byte) ∉ List.replicate 32 (0x41 : Byte) ∧ kitchen.length < 32 ∧ (0 : Byte) ∉ kitchen := by
  decide

/-- Two elements, of which the second is in range or not; a count that is not the list's. -/
theorem test_witness_ArrayCodecs :
    ([.int 1, .int 256] : List Value).length ≠ 3 ∧ ([.int 1, .int 256] : List Value).length < 3 ∧
      enc Config.default (.int .u8) (.int 1) 38 = .ok [1] ∧ enc Config.default (.int .u8) (.int 255) 39 = .ok [255] ∧
      enc Config.default (.int .u8) (.int 256) 39 = .error ⟨.range, 39⟩ ∧ 1 ≤ Desc.hsbk.size ∧
      (bytesA ++ bytesB).length = 2 * Desc.hsbk.size := by
  refine ⟨by decide, by decide, rfl, rfl, rfl, by decide, by decide⟩

theorem test_witness_DecodedPayloadHasShapeAndWidths :
    entryStateDeviceChain.desc.noVarr = true ∧ entryStateDeviceChain.desc.namesOk = true ∧
      entryStateDeviceChain.desc.size ≤ (zeros 882).length := by
  decide +kernel

/-- An array, a variable array, and a `STRUCT` that ends in one. -/
theorem test_witness_PayloadRoundTrip :
    Config.default.kelvinMax ≤ 65535 ∧
      shape (.arr .hsbk 2) (.list (.ofList [colorA, colorB])) = true ∧ (Desc.arr .hsbk 2).noVarr = true ∧
      enc Config.default (.arr .hsbk 2) (.list (.ofList [colorA, colorB])) 36 = .ok (bytesA ++ bytesB) ∧
      enc Config.default (.varr .hsbk 1 8) (.list (.ofList [colorA])) 36 = .ok bytesA ∧
      shape (.varr .hsbk 1 8) (.list (.ofList [colorA])) = true ∧ Desc.hsbk.noVarr = true ∧ 1 ≤ Desc.hsbk.size ∧
      (Members.ofList [("index", .int .u8), ("colors", .varr .hsbk 1 8)]).varrLast = true ∧
      shape (.struct (.ofList [("index", .int .u8), ("colors", .varr .hsbk 1 8)]))
        (rec [("index", .int 7), ("colors", .list (.ofList [colorA]))]) = true ∧
      enc Config.default (.struct (.ofList [("index", .int .u8), ("colors", .varr .hsbk 1 8)]))
        (rec [("index", .int 7), ("colors", .list (.ofList [colorA]))]) 36 = .ok (7 :: bytesA) := by
  refine ⟨by decide, by decide, by decide, rfl, rfl, by decide, by decide, by decide, by decide, by decide, rfl⟩

/-- A record whose members do not stand in wire order. -/
theorem test_witness_WireOrderIsTheSameRecord :
    entryStateService.desc.namesOk = true ∧
      shape entryStateService.desc (rec [("port", .int 1), ("service", .int 2)]) = true ∧
      canon entryStateService.desc (rec [("port", .int 1), ("service", .int 2)]) ≠
        rec [("port", .int 1), ("service", .int 2)] := by
  decide +kernel

/-- One request for each clause. -/
theorem test_witness_HeaderOperandsAreCheckedInWireOrder :
    [{ request "setPower" 7 1 (level 1) with tagged := 2 }, { request "setPower" 7 1 (level 1) with source := 2 ^ 32 },
      { request "setPower" 7 1 (level 1) with ackRequired := 2 }, request "setPower" 7 (-1) (level 1),
      request "setPower" 256 1 (level 70000), request "setPower" 255 1 (level 1)].map hdrCheck =
      [some ⟨.range, 2⟩, some ⟨.range, 4⟩, some ⟨.range, 22⟩, some ⟨.range, 22⟩, some ⟨.range, 23⟩, none] := by
  decide +kernel

theorem test_witness_HeaderBuildWritesTheSpecifiedBytes :
    hdrCheck (request "setPower" 7 1 (level 1)) = none ∧ 36 + 65499 ≤ 65535 ∧ exTarget.bytes.length = 6 ∧
      (request "setPower" 7 1 (level 1)).target = some exTarget.bytes ∧
      ({ request "setPower" 7 1 (level 1) with target := none }).target = none := by
  decide +kernel

theorem test_witness_HeaderRoundTrip :
    Config.default.ackBit ≠ Config.default.resBit ∧ hdrCheck (request "setPower" 255 1 (level 1)) = none ∧
      36 + 65499 ≤ 65535 ∧ ((request "setPower" 7 1 (level 1)).target.getD []).length = 6 := by
  decide +kernel

theorem test_witness_HeaderFieldsComeFromTheirBitsAlone :
    Config.default.ackBit ≠ Config.default.resBit ∧ (2 : Fin 8) ≠ Config.default.ackBit ∧
      (2 : Fin 8) ≠ Config.default.resBit ∧ (7 : Fin 8) ≠ Config.default.ackBit ∧
      36 ≤ (exBytes 0x26 0x00 0x02 0x07 0x15 0x00).length := by
  decide +kernel

/-- A member that is taken, one that is rejected, and three reserved bytes that hold anything; a STRUCT with a reserved member,
and a record that presents it. -/
theorem test_witness_StructAndReservedCodecs :
    (Desc.int .u8).isRsv = false ∧ (Fields.ofList [("port", .int 7)]).lookup "port" = some (.int 7) ∧
      enc Config.default (.int .u8) (.int 7) 36 = .ok [7] ∧
      enc Config.default (.int .u8) (.int 256) 36 = .error ⟨.range, 36⟩ ∧
      enc Config.default (.struct .nil) (.record (.ofList [("port", .int 7)])) 37 = .ok [] ∧
      ([0xaa, 0xbb, 0xcc] : List Byte).length = 3 ∧
      (([("a", .int .u8), ("b", .rsv 2), ("c", .str32)] : List (String × Desc)).map Prod.fst).Nodup ∧
      ("b", Desc.rsv 2) ∈ ([("a", .int .u8), ("b", .rsv 2), ("c", .str32)] : List (String × Desc)) ∧
      ("b", Value.int 0) ∈ ([("a", .int 7), ("b", .int 0), ("c", .bytes [])] : List (String × Value)) ∧
      shape .hsbk colorA = true ∧ shape (.struct (.ofList [("a", .int .u8)])) (rec [("a", .int 7)]) = true ∧
      lookupName Config.default.reg (request "setPower" 7 1 (rec [])).name = some entrySetPower ∧
      shape entrySetPower.desc (rec []) = false := by
  refine ⟨by decide, by decide, rfl, rfl, rfl, by decide, by decide, by decide, by decide, by decide, by decide,
    by decide +kernel, by decide⟩

/-- 41_field_codecs.md R99: a missing member, an extra one, one for a reserved field, one of the wrong kind, one named twice;
and the record that has the shape, its members in another order. -/
theorem test_shape_of_struct :
    [rec [("a", .int 7)], rec [("a", .int 7), ("c", .bytes []), ("d", .int 0)],
      rec [("a", .int 7), ("b", .int 0), ("c", .bytes [])], rec [("a", .int 7), ("c", .int 0)],
      rec [("a", .int 7), ("a", .int 7)], .int 7, rec [("c", .bytes []), ("a", .int 7)]].map
        (shape (.struct (.ofList [("a", .int .u8), ("b", .rsv 2), ("c", .str32)]))) =
      [false, false, false, false, false, false, true] := by
  decide +kernel

/-- One buffer for each check (2.9), and the packet that passes them all. -/
theorem test_witness_FrameChecksInOrder :
    (setPowerBytes.take 35).length < 36 ∧
      unle ((0x23 :: setPowerBytes.drop 1).take 2) = 35 ∧ (setPowerBytes.take 37).length < unle (setPowerBytes.take 2) ∧
      36 ≤ unle (setPowerBytes.take 2) ∧ unle (setPowerBytes.take 2) < (setPowerBytes ++ zeros 2).length ∧
      unle (setPowerBytes.take 2) = setPowerBytes.length ∧
      (lookupId Config.default.reg 65535).isNone = true ∧ (lookupId Config.default.reg 21).isSome = true ∧
      sizesOk entrySetPower.desc 40 = false ∧ sizesOk entrySetPower.desc 38 = true := by
  decide +kernel

/-- Two frames with the same size and type and nothing else in common, both refused. -/
theorem test_witness_OnlySizeAndTypeAreChecked :
    (let s := exBytes 0x26 0x00 0x00 0x00 0xff 0xff ++ [0x00, 0x00]
     let t : List Byte := [0x26, 0x00] ++ List.replicate 30 0xaa ++ [0xff, 0xff] ++ List.replicate 4 0xbb
     s.length = t.length ∧ s[0]? = t[0]? ∧ s[1]? = t[1]? ∧ s[32]? = t[32]? ∧ s[33]? = t[33]? ∧
      (match decodeFrame Config.default false s with
        | .ok _ => false
        | .error r => r == ⟨.unknownType, 65535⟩) = true) := by
  decide +kernel

theorem test_witness_DeclaredSizes :
    entrySetPower.desc.tail = none ∧ (entryStateMultiZone 1 8).desc.tail = some (.hsbk, 1, 8) ∧ 1 ≤ Desc.hsbk.size := by
  decide

theorem test_witness_DecodeReadsEncodedInstructions :
    Config.default.wf = true ∧ (Instr.stateMultiZone (exHeader 54 0 0 11 506)
      (rec [("count", .int 16), ("index", .int 0), ("colors", .list (.ofList [colorA, colorB]))])).wellFormed
        Config.default = true ∧ (Instr.hdr (exHeader 38 0 1 7 21)).wellFormed Config.default = true := by
  decide +kernel

theorem test_witness_EmptyPayloadFormats :
    level 1 ≠ .record .nil ∧
      lookupName Config.default.reg (request "getService" 7 1 (level 1)).name = some entryGetService ∧
      lookupName Config.default.reg (request "acknowledgement" 7 1 (level 1)).name = some entryAcknowledgement := by
  decide +kernel

/-- Lists on both sides of each bound, and one whose third colour is out of range (2.7). -/
theorem test_witness_MultiZoneFormat :
    ([] : List Value).length < 1 ∧ 8 < (List.replicate 9 colorB).length ∧ 1 ≤ (List.replicate 8 colorB).length ∧
      (List.replicate 8 colorB).length ≤ 8 ∧ enc Config.default .hsbk colorB (38 + 8 * 7) = .ok bytesB ∧
      enc Config.default .hsbk (hsbkValue 0 0 70000 2500) (38 + 8 * 2) = .error ⟨.range, 58⟩ ∧
      ([0x10, 0x00] ++ bytesA ++ bytesB).length = 2 + 8 * 2 := by
  refine ⟨by decide, by decide, by decide, by decide, rfl, rfl, by decide⟩

/-- A startIndex that is out of range though the Tiles encode (42_message_types.md R121). -/
theorem test_stateDeviceChain_startIndex :
    (match enc Config.default entryStateDeviceChain.desc (rec [("startIndex", .int 256),
        ("tileDevices", .list (.ofList (tileA :: List.replicate 15 tileZero))), ("totalCount", .int 300)]) 36 with
      | .ok _ => false
      | .error r => r == ⟨.range, 36⟩) = true := by
  decide +kernel

/-- Sixteen Tiles, and a list of fifteen (2.7). -/
theorem test_witness_TileFormats :
    (match enc Config.default (.arr .tile 16) (.list (.ofList (tileA :: List.replicate 15 tileZero))) 37 with
      | .ok out => out.length == 880
      | .error _ => false) = true ∧
    (match enc Config.default (.arr .tile 16) (.list (.ofList (List.replicate 15 tileZero))) 37 with
      | .ok _ => false
      | .error r => r == ⟨.arrayLen, 37⟩) = true := by
  decide +kernel

/-- A request for each check of ENCODE (2.10), and each code that it can raise. -/
theorem test_witness_EncodeChecksInOrder :
    [request "bogus" 999 1 (level 1), { request "setPower" 7 1 (level 1) with target := some [1, 2, 3, 4, 5] },
      request "setPower" 7 1 (rec [("level", .int 70000), ("duration", .int 0)]), request "setPower" 256 1 (level 70000),
      request "setPower" 7 1 (level 65536), request "setLabel" 7 1 (rec [("label", .bytes (List.replicate 33 0x41))]),
      request "setLabel" 7 1 (rec [("label", .bytes [0x41, 0x00])]),
      request "stateMultiZone" 7 1 (rec [("count", .int 0), ("index", .int 0), ("colors", .list .nil)]),
      request "setPower" 7 1 (level 1)].map
        (fun er => match encodeRequest Config.default er with
          | .ok _ => none
          | .error r => some (validationCode r.cause, r.off)) =
      [some (0x11, 0), some (0x12, 0), some (0x12, 0), some (0x13, 23), some (0x13, 36), some (0x14, 36), some (0x15, 36),
       some (0x16, 38), none] := by
  decide +kernel

theorem test_witness_StateAfterEncode :
    (erState (request "setPower" 7 1 (level 1))).cfg.wf = true ∧
      (erState (request "setPower" 7 1 (level 1))).erWritten.complete = true ∧
      State.reset.erWritten.complete = false := by
  decide +kernel

/-- Two states with the same request and different buffers. -/
theorem test_witness_EncodeIsAFunctionOfEr :
    (let s := erState (request "setPower" 7 1 (level 1))
     let u := { s with txbuf := [(40, 0xaa)], rxlen := 5, fcnt := 3 }
     s.cfg = u.cfg ∧ s.er = u.er ∧ after (exec .encode s) (fun t => t.txlen == 38) = true ∧
      after (exec .encode u) (fun t => t.txlen == 38) = true) := by
  decide +kernel

/-- A datagram that DECODE takes, and one that it refuses. -/
theorem test_witness_StateAfterDecode :
    (match decodeFrame (rxState statePowerBytes).cfg true (datagram (rxState statePowerBytes)) with
      | .ok r => r == statePowerRecord
      | .error _ => false) = true ∧
    (match decodeFrame Config.default true (datagram (rxState (statePowerBytes ++ [0x00, 0x00]))) with
      | .ok _ => false
      | .error r => r == ⟨.trailing, 0⟩) = true := by
  decide +kernel

theorem test_witness_StateAfterParse :
    Memory.wf (rxState (serviceBytes ++ statePowerBytes)).rxbuf ∧
      (rxState (serviceBytes ++ statePowerBytes)).rxbuf ≠ [] := by
  decide +kernel

/-- A packet that ENCODE built, in RXBUF of another state. -/
theorem test_witness_PacketRoundTrip :
    (let s := erState (request "setPower" 7 1 (level 65535))
     s.cfg.wf = true ∧ Memory.wf (rxState setPowerBytes).rxbuf ∧ (rxState setPowerBytes).cfg = s.cfg ∧
      after (exec .encode s) (fun t => t.status == statusNone && (rxState setPowerBytes).rxlen == t.txlen &&
        (List.range 38).all (fun a => Memory.read t.txbuf a == Memory.read (rxState setPowerBytes).rxbuf a)) = true) := by
  decide +kernel

/-- Two states with the same datagram and different bytes past its end. -/
theorem test_witness_ReceiveResultDependsOnDatagramOnly :
    (let s := rxState statePowerBytes
     let u := { s with rxbuf := Memory.write s.rxbuf 38 [0xaa], outn := 7, fcnt := 9 }
     Memory.wf s.rxbuf ∧ Memory.wf u.rxbuf ∧ s.cfg = u.cfg ∧ s.rxlen = u.rxlen ∧
      ∀ a < 38, (Memory.read s.rxbuf a).isSome = true ∧ Memory.read s.rxbuf a = Memory.read u.rxbuf a) := by
  decide +kernel

/-- One frame in the middle of a PARSE for each cause. -/
theorem test_witness_RaisingFormatError :
    (midParse []).phase.inFrames = true ∧
    [[], 0x23 :: statePowerBytes.drop 1, statePowerBytes.take 37, exBytes 0x26 0x00 0x00 0x07 0xff 0xff ++ [0xff, 0xff],
      exBytes 0x28 0x00 0x00 0x07 0x16 0x00 ++ zeros 4].map
      (fun b => match decodeFrame Config.default false (rxRest (midParse b)) with
        | .ok _ => none
        | .error r => some (formatCode r.cause, r.info)) =
      [some (0x01, 0), some (0x02, 0), some (0x03, 0), some (0x05, 65535), some (0x06, 22)] ∧
    (match decodeFrame Config.default true (rxRest (midParse (statePowerBytes ++ [0x00]))) with
      | .ok _ => none
      | .error r => some (formatCode r.cause, r.info)) = some (0x04, 0) := by
  decide +kernel

theorem test_witness_FrameLoopEndsWithinBound : frameBound (rxState statePowerBytes) ≤ 2 := by decide +kernel

/-- A command, a header that is read and one that is not, a packet that is read and one that is not; a packet of a registered
type that has no row. -/
theorem test_witness_StepRunsTheDecodedInstruction :
    ({ State.reset with phase := .command, cmdOp := 3 } : State).cfg.wf = true ∧
    (match decodeHdr Config.default (rxRest { midParse statePowerBytes with phase := .header false }) with
      | .ok i => i == .hdr (exHeader 38 0 0 7 22)
      | .error _ => false) = true ∧
    (match decodeHdr Config.default (rxRest { midParse [0x26] with phase := .header false }) with
      | .ok _ => false
      | .error r => r == ⟨.short, 0⟩) = true ∧
    (match decodeFrame Config.default false (rxRest (midParse statePowerBytes)) with
      | .ok r => Instr.ofPacket r == some (.statePower (exHeader 38 0 0 7 22) (level 65535))
      | .error _ => false) = true ∧
    (let cfg := { Config.default with reg := Config.default.reg ++ [⟨"getPower", 20, .struct .nil⟩] }
     let s := { rxState (exBytes 0x24 0x00 0x00 0x07 0x14 0x00) with cfg := cfg, phase := .payload true }
     cfg.wf = true ∧
      (match decodeFrame s.cfg true (rxRest s) with
        | .ok r => r == ⟨exHeader 36 0 0 7 20, "getPower", rec []⟩ && Instr.ofPacket r == none
        | .error _ => false) = true) := by
  decide +kernel

theorem test_witness_PacketFormatsStoreTheirRecord :
    (Instr.statePower (exHeader 38 0 0 7 22) (level 65535)).packet = some statePowerRecord ∧
      (midParse statePowerBytes).outq.length = (midParse statePowerBytes).outn.toNat := by
  decide +kernel

/-- A header that fits exactly. -/
theorem test_witness_HeaderAcceptsAFittingFrame :
    (let s := { midParse statePowerBytes with phase := .header true }
     36 ≤ (exHeader 38 0 0 7 22).size.toNat ∧ (exHeader 38 0 0 7 22).size.toNat ≤ s.rxlen.toNat - s.cur.toNat ∧
      (exHeader 38 0 0 7 22).size.toNat = s.rxlen.toNat - s.cur.toNat ∧ s.phase.isSingle = true) := by
  decide +kernel

/-- Sizes 35, 39 and 37 with 38 bytes left. -/
theorem test_witness_HeaderRaisesOnABadSize :
    (let s := { midParse statePowerBytes with phase := .header true }
     s.rxlen.toNat - s.cur.toNat = 38 ∧ (exHeader 35 0 0 7 22).size.toNat < 36 ∧
      s.rxlen.toNat - s.cur.toNat < (exHeader 39 0 0 7 22).size.toNat ∧ 36 ≤ (exHeader 37 0 0 7 22).size.toNat ∧
      (exHeader 37 0 0 7 22).size.toNat < s.rxlen.toNat - s.cur.toNat ∧ s.phase.isSingle = true) := by
  decide +kernel

/-- A host's write of CMD and a packet in the middle of a PARSE: steps that answer a next state. -/
theorem test_witness_NoStepChangesTheRegistry :
    after (step (hostState [.writeCmd 3])) (fun t => t.phase == .command) = true ∧
      after (step (midParse statePowerBytes)) (fun t => t.outn == 2 && t.phase == .idle) = true ∧
      after (exec .encode (erState (request "setPower" 7 1 (level 1)))) (fun t => t.txlen == 38) = true := by
  decide +kernel

/-- Each fault and each refusal is reached. -/
theorem test_witness_StepStopsOnlyWhereTheSpecSays :
    [step (hostState [.writeRx 65534 [1, 2]]), step (hostState [.writeRxLen 65536]), step (hostState [.readTx 0]),
      step (hostState [.readOutq 0]), step (hostState [.readRx 0]), step { State.reset with phase := .command, cmdOp := 1 },
      step { State.reset with cfg := { Config.default with ackBit := 1 } }].map
      (fun o => match o with
        | .next _ => (none, none)
        | .fault f => (some f, none)
        | .refused r => (none, some r)) =
      [(some .rxAddress, none), (none, some .rxlenAboveRxmax), (none, some .readPastTxlen), (none, some .readPastOutn),
       (none, some .readPastRxlen), (none, some .erUnwritten), (none, some .illFormedConfig)] := by
  decide +kernel

/-- The invariant holds in the middle of a PARSE, from which a step answers a next state. -/
theorem test_witness_EveryStepKeepsTheInvariant :
    Inv (midParse statePowerBytes) ∧ after (step (midParse statePowerBytes)) (fun t => t.outn == 2) = true := by
  refine ⟨⟨by decide +kernel, ⟨by decide +kernel, by decide +kernel, by decide +kernel, by decide +kernel⟩,
    by decide +kernel, by decide +kernel, fun a h => absurd h (Nat.not_lt_zero a), by decide +kernel, by decide +kernel,
    .inl rfl, by decide +kernel, by decide +kernel, by decide +kernel⟩, by decide +kernel⟩

theorem test_witness_EveryStepKeepsMemoryCanonical :
    MemoryOk (hostState [.writeRx 65533 [1, 2]]) ∧
      after (step (hostState [.writeRx 65533 [1, 2]])) (fun t => t.rxbuf == [(65533, 1), (65534, 2)]) = true :=
  ⟨⟨by decide, by decide, by decide, by decide⟩, by decide +kernel⟩

theorem test_witness_EveryStepKeepsStatusLegal :
    StatusLegal ({ State.reset with status := statusFormat .length 41 21, inbox := [.writeCmd 0] } : State).status ∧
      after (step { State.reset with status := statusFormat .length 41 21, inbox := [.writeCmd 0] })
        (fun t => t.status == statusFormat .length 41 21) = true :=
  ⟨.inr (.inl ⟨.length, 41, 21, rfl, fun _ h => absurd rfl h⟩), by decide +kernel⟩

theorem test_witness_PowerFormats : entrySetPower ≠ entryStatePower ∧ entrySetLabel ≠ entryStateLabel := by decide +kernel

theorem test_witness_RaisingValidationError :
    (erState (request "setPower" 7 1 (level 65536))).erWritten.complete = true ∧
      (match encodeRequest Config.default (request "setPower" 7 1 (level 65536)) with
        | .ok _ => false
        | .error r => r == ⟨.range, 36⟩) = true ∧
      (ValidationCause.range, (0x13 : BitVec 8)) ∈
        [(ValidationCause.unknownName, (0x11 : BitVec 8)), (.shape, 0x12), (.range, 0x13), (.stringLen, 0x14),
         (.stringNul, 0x15), (.arrayLen, 0x16)] := by
  decide +kernel

theorem test_witness_EncodedPacketFits :
    Config.default.wf = true ∧ (match encodeRequest Config.default (request "setPower" 7 1 (level 1)) with
      | .ok pkt => pkt.length == 38 && unle (pkt.take 2) == 38 && entrySetPower.desc.maxSize == 2
      | .error _ => false) = true := by
  decide +kernel

/-- No field written, and every field written. -/
theorem test_witness_EncodeNeedsEveryFieldWritten :
    State.reset.erWritten.name = false ∧
      (erState (request "setPower" 7 1 (level 1))).erWritten = ⟨true, true, true, true, true, true, true, true⟩ := by
  decide +kernel

/-- P2's buffer: DECODE fails with F_TRAILING, PARSE succeeds with three records; and a buffer on which both succeed. -/
theorem test_witness_ParseAndDecodeAgreeOnOnePacket :
    after (exec .decode (rxState (serviceBytes ++ statePowerBytes ++ labelBytes)))
      (fun t => t.status == ⟨1, 0x04, 0, 0⟩ && t.outn == 0) = true ∧
    after (exec .parse (rxState statePowerBytes))
      (fun t => t.status == statusNone && t.outn == 1 && t.outq == [statePowerRecord]) = true := by
  decide +kernel

/-- An ENCODE that may run, and one that may not. -/
theorem test_witness_EveryInstructionCompletes :
    (erState (request "setPower" 7 1 (level 1))).erWritten.complete = true ∧
      Instr.encode ∈ [Instr.nop, .encode, .decode, .parse] := by
  decide +kernel

theorem test_witness_InstructionsLeaveTheHostsInputs :
    after (exec .parse (rxState statePowerBytes)) (fun t => t.rxlen == 38) = true ∧
      after (exec .encode (erState (request "setPower" 7 1 (level 1)))) (fun t => t.txlen == 38) = true := by
  decide +kernel

/-- The parameters are well-formed, and four steps of headers and packets parse a datagram of two packets. -/
theorem test_witness_CommandsAreTheirFrameSteps :
    (rxState (serviceBytes ++ statePowerBytes)).cfg.wf = true ∧
      after (Sys2Proof.core.run 4 (startFrames false (rxState (serviceBytes ++ statePowerBytes))))
        (fun t => t.outq == [serviceRecord, statePowerRecord] && t.cur == 79 && t.phase == .idle) = true := by
  decide +kernel

theorem test_witness_ResetSatisfiesTheInvariant : Config.default.wf = true := by decide +kernel

end Sys2Proof.Tests
end

/-!
A record's members in wire order: what `canon` does to a value, and that neither its shape nor `ENC` can tell
(spec/00_scope.md R8, spec/41_field_codecs.md R96; the model's choice of log entry 6).

A codec reads a record through `Fields.lookup` at the members that take a value (`Members.Takes`). So the facts about a
`STRUCT` are congruences over those lookups; `HSBK` and `TILE` are the `STRUCT`s of their tables (`leafMembers`).
-/

namespace Sys2Proof

/-! ## The members that take a value -/

/-- `n` is the name of a member with descriptor `d` that takes a value. -/
def Members.Takes (n : String) (d : Desc) : Members → Prop
  | .nil => False
  | .cons m e rest => (e.isRsv = false ∧ m = n ∧ e = d) ∨ rest.Takes n d

theorem Members.hasName_of_takes {n : String} {d : Desc} {ms : Members} (h : ms.Takes n d) : ms.hasName n = true := by
  induction ms using Members.ind with
  | nil => cases h
  | cons m e rest ih =>
    rcases h with ⟨he, rfl, -⟩ | h
    · simp [hasName, he]
    · simp [hasName, ih h]

/-- The parts of `namesOk` on a list of members that is not empty. -/
theorem Members.namesOk_cons {m : String} {e : Desc} {rest : Members} :
    (Members.cons m e rest).namesOk = true ↔
      (e.isRsv = false → rest.hasName m = false) ∧ e.namesOk = true ∧ rest.namesOk = true := by
  cases h : e.isRsv <;> simp [namesOk, h, and_assoc]

theorem shapeMembers_iff {ms : Members} {fs : Fields} :
    shapeMembers ms fs = true ↔ ∀ n d, ms.Takes n d → ∃ v, fs.lookup n = some v ∧ shape d v = true := by
  induction ms using Members.ind with
  | nil => simp [shapeMembers, Members.Takes]
  | cons m e rest ih =>
    simp only [shapeMembers, Bool.and_eq_true, ih, Members.Takes, or_imp, forall_and]
    refine and_congr_left fun _ => ?_
    cases he : e.isRsv
    · cases hm : fs.lookup m <;> simp [hm]
    · simp

/-! ## The record in wire order -/

@[simp] theorem Fields.lookup_cons_same (n : String) (v : Value) (fs : Fields) :
    (Fields.cons n v fs).lookup n = some v := by
  simp [lookup]

theorem Fields.lookup_cons_of_ne {m n : String} (h : m ≠ n) (v : Value) (fs : Fields) :
    (Fields.cons m v fs).lookup n = fs.lookup n := by
  simp [lookup, h]

@[simp] theorem canonMembers_cons_rsv {m : String} {e : Desc} {rest : Members} {fs : Fields} (he : e.isRsv = true) :
    canonMembers (.cons m e rest) fs = canonMembers rest fs := by
  simp [canonMembers, he]

theorem canonMembers_cons_some {m : String} {e : Desc} {rest : Members} {fs : Fields} {v : Value} (he : e.isRsv = false)
    (hv : fs.lookup m = some v) :
    canonMembers (.cons m e rest) fs = .cons m (canon e v) (canonMembers rest fs) := by
  simp [canonMembers, he, hv]

theorem canonMembers_cons_none {m : String} {e : Desc} {rest : Members} {fs : Fields} (hv : fs.lookup m = none) :
    canonMembers (.cons m e rest) fs = canonMembers rest fs := by
  simp [canonMembers, hv]

/-- With distinct names, a member of the record in wire order is the record's own, itself in wire order. -/
theorem canonMembers_lookup {ms : Members} {fs : Fields} {n : String} {d : Desc} {v : Value} (hn : ms.namesOk = true)
    (hd : ms.Takes n d) (hv : fs.lookup n = some v) : (canonMembers ms fs).lookup n = some (canon d v) := by
  induction ms using Members.ind with
  | nil => cases hd
  | cons m e rest ih =>
    obtain ⟨hm, -, hrest⟩ := Members.namesOk_cons.1 hn
    rcases hd with ⟨he, rfl, rfl⟩ | hd
    · simp [canonMembers_cons_some he hv]
    · cases he : e.isRsv with
      | true => rw [canonMembers_cons_rsv he, ih hrest hd]
      | false =>
        have hne : m ≠ n := by
          rintro rfl
          exact Bool.false_ne_true ((hm he).symm.trans (Members.hasName_of_takes hd))
        cases hl : fs.lookup m with
        | none => rw [canonMembers_cons_none hl, ih hrest hd]
        | some w => rw [canonMembers_cons_some he hl, Fields.lookup_cons_of_ne hne, ih hrest hd]

theorem canonMembers_length {ms : Members} {fs : Fields} (h : shapeMembers ms fs = true) :
    (canonMembers ms fs).length = ms.count := by
  rw [shapeMembers_iff] at h
  induction ms using Members.ind with
  | nil => rfl
  | cons m e rest ih =>
    have hrest := ih fun n d hd => h n d (.inr hd)
    cases he : e.isRsv with
    | true => simp [Members.count, he, hrest]
    | false =>
      obtain ⟨v, hv, -⟩ := h m e (.inl ⟨he, rfl, rfl⟩)
      simp [canonMembers_cons_some he hv, Fields.length, Members.count, he, hrest]

/-! ## A codec reads a record through its lookups -/

theorem encMembers_congr {cfg : Config} {ms : Members} {fs gs : Fields}
    (h : ∀ n d, ms.Takes n d → (fs.lookup n).map (enc cfg d) = (gs.lookup n).map (enc cfg d)) (off : Nat) :
    encMembers cfg ms fs off = encMembers cfg ms gs off := by
  induction ms using Members.ind generalizing off with
  | nil => rfl
  | cons m e rest ih =>
    have hrest := ih fun n d hd => h n d (.inr hd)
    cases he : e.isRsv with
    | true => simp [encMembers, he, hrest]
    | false =>
      have hm := h m e (.inl ⟨he, rfl, rfl⟩)
      cases hf : fs.lookup m with
      | none =>
        have hg : gs.lookup m = none := by simpa [hf] using hm.symm
        simp [encMembers, he, hf, hg]
      | some v =>
        obtain ⟨w, hg, hw⟩ : ∃ w, gs.lookup m = some w ∧ enc cfg e w = enc cfg e v := by simpa [hf] using hm.symm
        simp [encMembers, he, hf, hg, hw, hrest]

theorem canonMembers_congr {ms : Members} {fs gs : Fields}
    (h : ∀ n d, ms.Takes n d → (fs.lookup n).map (canon d) = (gs.lookup n).map (canon d)) :
    canonMembers ms fs = canonMembers ms gs := by
  induction ms using Members.ind with
  | nil => rfl
  | cons m e rest ih =>
    have hrest := ih fun n d hd => h n d (.inr hd)
    cases he : e.isRsv with
    | true => simp [he, hrest]
    | false =>
      have hm := h m e (.inl ⟨he, rfl, rfl⟩)
      cases hf : fs.lookup m with
      | none =>
        have hg : gs.lookup m = none := by simpa [hf] using hm.symm
        simp [canonMembers, he, hf, hg, hrest]
      | some v =>
        obtain ⟨w, hg, hw⟩ : ∃ w, gs.lookup m = some w ∧ canon e w = canon e v := by simpa [hf] using hm.symm
        simp [canonMembers, he, hf, hg, hw, hrest]

/-! ## Lists -/

@[simp] theorem Values.length_map (g : Value → Value) (vs : Values) : (vs.map g).length = vs.length := by
  induction vs using Values.ind with
  | nil => rfl
  | cons v rest ih => simp [map, length, ih]

theorem Values.all_cons {p : Value → Bool} {v : Value} {rest : Values} :
    (Values.cons v rest).all p = true ↔ p v = true ∧ rest.all p = true := by
  simp [all]

theorem Values.all_map {p : Value → Bool} {g : Value → Value} (hg : ∀ v, p v = true → p (g v) = true) {vs : Values}
    (h : vs.all p = true) : (vs.map g).all p = true := by
  induction vs using Values.ind with
  | nil => rfl
  | cons v rest ih =>
    obtain ⟨hv, hrest⟩ := all_cons.1 h
    exact all_cons.2 ⟨hg v hv, ih hrest⟩

theorem Values.map_map_of_all {p : Value → Bool} {g : Value → Value} (hg : ∀ v, p v = true → g (g v) = g v)
    {vs : Values} (h : vs.all p = true) : (vs.map g).map g = vs.map g := by
  induction vs using Values.ind with
  | nil => rfl
  | cons v rest ih =>
    obtain ⟨hv, hrest⟩ := all_cons.1 h
    simp [map, hg v hv, ih hrest]

theorem encElems_map {p : Value → Bool} {g : Value → Value} {f : Value → Nat → Except ValidationReject (List Byte)}
    (hg : ∀ v, p v = true → f (g v) = f v) (size : Nat) {vs : Values} (h : vs.all p = true) (off : Nat) :
    encElems f size (vs.map g) off = encElems f size vs off := by
  induction vs using Values.ind generalizing off with
  | nil => rfl
  | cons v rest ih =>
    obtain ⟨hv, hrest⟩ := Values.all_cons.1 h
    simp [Values.map, encElems, hg v hv, ih hrest]

/-! ## `HSBK` and `TILE` are the `STRUCT`s of their tables -/

/-- A flat member as a descriptor. -/
def Leaf.desc : Leaf → Desc
  | .int k => .int k
  | .rsv n => .rsv n

@[simp] theorem Leaf.desc_int (k : Scalar) : (Leaf.int k).desc = .int k := rfl
@[simp] theorem Leaf.desc_rsv (n : Nat) : (Leaf.rsv n).desc = .rsv n := rfl

@[simp] theorem Desc.isRsv_int (k : Scalar) : (Desc.int k).isRsv = false := rfl
@[simp] theorem Desc.isRsv_rsv (n : Nat) : (Desc.rsv n).isRsv = true := rfl

/-- The members of a flat sub-structure as those of a `STRUCT`. -/
def leafMembers : List (String × Leaf) → Members
  | [] => .nil
  | (n, l) :: rest => .cons n l.desc (leafMembers rest)

theorem leafMembers_takes {ls : List (String × Leaf)} {n : String} {d : Desc} (h : (leafMembers ls).Takes n d) :
    ∃ k, d = .int k := by
  induction ls with
  | nil => cases h
  | cons l rest ih =>
    obtain ⟨m, l⟩ := l
    rcases h with ⟨hl, -, rfl⟩ | h
    · cases l with
      | int k => exact ⟨k, rfl⟩
      | rsv n => cases hl
    · exact ih h

theorem leavesPresent_eq (ls : List (String × Leaf)) (fs : Fields) :
    leavesPresent ls fs = shapeMembers (leafMembers ls) fs := by
  induction ls with
  | nil => rfl
  | cons l rest ih =>
    obtain ⟨m, l⟩ := l
    cases l with
    | rsv n => simp [leavesPresent, leafMembers, shapeMembers, ih]
    | int k =>
      cases hm : fs.lookup m with
      | none => simp [leavesPresent, leafMembers, shapeMembers, hm]
      | some v => cases v <;> simp [leavesPresent, leafMembers, shapeMembers, shape, hm, ih]

theorem leavesCount_eq (ls : List (String × Leaf)) : leavesCount ls = (leafMembers ls).count := by
  induction ls with
  | nil => rfl
  | cons l rest ih =>
    obtain ⟨m, l⟩ := l
    cases l <;> simp [leavesCount, leafMembers, Members.count, ih]

theorem encLeaves_eq (cfg : Config) (ls : List (String × Leaf)) (fs : Fields) (off : Nat) :
    encLeaves cfg ls fs off = encMembers cfg (leafMembers ls) fs off := by
  induction ls generalizing off with
  | nil => rfl
  | cons l rest ih =>
    obtain ⟨m, l⟩ := l
    cases l with
    | rsv n => simp [encLeaves, leafMembers, encMembers, enc, ih]
    | int k =>
      cases hm : fs.lookup m with
      | none => simp [encLeaves, leafMembers, encMembers, hm]
      | some v => cases v <;> simp [encLeaves, leafMembers, encMembers, enc, hm, ih]

@[simp] theorem canon_int (k : Scalar) (v : Value) : canon (.int k) v = v := by
  cases v <;> rfl

theorem canonLeaves_eq (ls : List (String × Leaf)) (fs : Fields) :
    canonLeaves ls fs = canonMembers (leafMembers ls) fs := by
  induction ls with
  | nil => rfl
  | cons l rest ih =>
    obtain ⟨m, l⟩ := l
    cases l with
    | rsv n => simp [canonLeaves, leafMembers, canonMembers, ih]
    | int k =>
      cases hm : fs.lookup m with
      | none => simp [canonLeaves, leafMembers, canonMembers_cons_none, hm, ih]
      | some v => simp [canonLeaves, leafMembers, canonMembers, hm, ih]

/-! ## A value and its wire order are the same record -/

/-- The value in wire order has the shape and the bytes of the value, and is in wire order. -/
structure SameInWireOrder (cfg : Config) (d : Desc) (v : Value) : Prop where
  shape_canon : shape d (canon d v) = true
  enc_canon : enc cfg d (canon d v) = enc cfg d v
  canon_canon : canon d (canon d v) = canon d v

theorem sameInWireOrder_of_canon_eq {cfg : Config} {d : Desc} {v : Value} (hc : canon d v = v) (hs : shape d v = true) :
    SameInWireOrder cfg d v :=
  ⟨by rwa [hc], by rw [hc], by rw [hc, hc]⟩

/-- A `STRUCT`, when the claim holds of the members' descriptors. -/
theorem sameInWireOrder_struct {cfg : Config} {ms : Members} {v : Value} (hn : ms.namesOk = true)
    (hms : ∀ n d, ms.Takes n d → ∀ w, shape d w = true → SameInWireOrder cfg d w) (hs : shape (.struct ms) v = true) :
    SameInWireOrder cfg (.struct ms) v := by
  cases v with
  | record fs =>
    simp only [shape, Bool.and_eq_true] at hs
    obtain ⟨hs, -⟩ := hs
    have hlook : ∀ n d, ms.Takes n d → ∃ w, fs.lookup n = some w ∧
        (canonMembers ms fs).lookup n = some (canon d w) ∧ SameInWireOrder cfg d w := fun n d hd =>
      let ⟨w, hw, hsw⟩ := shapeMembers_iff.1 hs n d hd
      ⟨w, hw, canonMembers_lookup hn hd hw, hms n d hd w hsw⟩
    refine ⟨?shape, ?enc, ?canon⟩
    case shape =>
      have hshape : shapeMembers ms (canonMembers ms fs) = true := shapeMembers_iff.2 fun n d hd =>
        let ⟨w, _, hc, same⟩ := hlook n d hd
        ⟨canon d w, hc, same.shape_canon⟩
      simp [canon, shape, hshape, canonMembers_length hs]
    case enc =>
      funext off
      simp only [canon, enc]
      refine encMembers_congr (fun n d hd => ?_) off
      obtain ⟨w, hw, hc, same⟩ := hlook n d hd
      simp [hw, hc, same.enc_canon]
    case canon =>
      simp only [canon]
      congr 1
      refine canonMembers_congr fun n d hd => ?_
      obtain ⟨w, hw, hc, same⟩ := hlook n d hd
      simp [hw, hc, same.canon_canon]
  | _ => cases hs

theorem sameInWireOrder_int {cfg : Config} {k : Scalar} {v : Value} (hs : shape (.int k) v = true) :
    SameInWireOrder cfg (.int k) v :=
  sameInWireOrder_of_canon_eq (canon_int k v) hs

/-- A descriptor with the codec of a flat sub-structure. -/
theorem sameInWireOrder_leaves {cfg : Config} {d : Desc} {ls : List (String × Leaf)} {v : Value}
    (hshape : ∀ v, shape d v = shape (.struct (leafMembers ls)) v)
    (henc : ∀ v, enc cfg d v = enc cfg (.struct (leafMembers ls)) v)
    (hcanon : ∀ v, canon d v = canon (.struct (leafMembers ls)) v)
    (hn : (leafMembers ls).namesOk = true) (hs : shape d v = true) : SameInWireOrder cfg d v := by
  rw [hshape] at hs
  obtain ⟨h1, h2, h3⟩ := sameInWireOrder_struct (cfg := cfg) hn
    (fun n e he w hw => by obtain ⟨k, rfl⟩ := leafMembers_takes he; exact sameInWireOrder_int hw) hs
  exact ⟨by rwa [hcanon, hshape], by rwa [hcanon, henc, henc], by rwa [hcanon, hcanon]⟩

theorem sameInWireOrder_hsbk {cfg : Config} {v : Value} (hs : shape .hsbk v = true) :
    SameInWireOrder cfg .hsbk v := by
  refine sameInWireOrder_leaves (ls := hsbkLeaves) (fun v => ?shape) (fun v => funext fun off => ?enc) (fun v => ?canon)
    (by decide) hs
  case shape => cases v <;> simp [shape, leavesPresent_eq, leavesCount_eq]
  case enc => cases v <;> simp [enc, encLeaves_eq]
  case canon => cases v <;> simp [canon, canonLeaves_eq]

theorem sameInWireOrder_tile {cfg : Config} {v : Value} (hs : shape .tile v = true) :
    SameInWireOrder cfg .tile v := by
  refine sameInWireOrder_leaves (ls := tileLeaves) (fun v => ?shape) (fun v => funext fun off => ?enc) (fun v => ?canon)
    (by decide) hs
  case shape => cases v <;> simp [shape, leavesPresent_eq, leavesCount_eq]
  case enc => cases v <;> simp [enc, encLeaves_eq]
  case canon => cases v <;> simp [canon, canonLeaves_eq]

/-- The elements of a list value, when the claim holds of their descriptor. -/
theorem elems_sameInWireOrder {cfg : Config} {d : Desc} (hd : ∀ w, shape d w = true → SameInWireOrder cfg d w)
    {vs : Values} (hs : vs.all (shape d) = true) :
    (vs.map (canon d)).all (shape d) = true ∧
      (∀ size off, encElems (enc cfg d) size (vs.map (canon d)) off = encElems (enc cfg d) size vs off) ∧
      (vs.map (canon d)).map (canon d) = vs.map (canon d) :=
  ⟨Values.all_map (fun w hw => (hd w hw).shape_canon) hs,
    fun size off => encElems_map (fun w hw => (hd w hw).enc_canon) size hs off,
    Values.map_map_of_all (fun w hw => (hd w hw).canon_canon) hs⟩

theorem sameInWireOrder_arr {cfg : Config} {d : Desc} {n : Nat} {v : Value}
    (hd : ∀ w, shape d w = true → SameInWireOrder cfg d w) (hs : shape (.arr d n) v = true) :
    SameInWireOrder cfg (.arr d n) v := by
  cases v with
  | list vs =>
    obtain ⟨hshape, henc, hcanon⟩ := elems_sameInWireOrder hd hs
    exact ⟨hshape, funext fun off => by simp [canon, enc, henc], congrArg Value.list hcanon⟩
  | _ => cases hs

theorem sameInWireOrder_varr {cfg : Config} {d : Desc} {min max : Nat} {v : Value}
    (hd : ∀ w, shape d w = true → SameInWireOrder cfg d w) (hs : shape (.varr d min max) v = true) :
    SameInWireOrder cfg (.varr d min max) v := by
  cases v with
  | list vs =>
    obtain ⟨hshape, henc, hcanon⟩ := elems_sameInWireOrder hd hs
    exact ⟨hshape, funext fun off => by simp [canon, enc, henc], congrArg Value.list hcanon⟩
  | _ => cases hs

mutual

theorem sameInWireOrder (cfg : Config) {d : Desc} (hn : d.namesOk = true) (v : Value) (hs : shape d v = true) :
    SameInWireOrder cfg d v := by
  match d with
  | .int k => exact sameInWireOrder_int hs
  | .rsv n => exact sameInWireOrder_of_canon_eq (by cases v <;> rfl) hs
  | .str32 => exact sameInWireOrder_of_canon_eq (by cases v <;> rfl) hs
  | .hsbk => exact sameInWireOrder_hsbk hs
  | .tile => exact sameInWireOrder_tile hs
  | .struct ms => exact sameInWireOrder_struct hn (fun n d hd w hw => sameInWireOrder_member cfg hn hd w hw) hs
  | .arr d n => exact sameInWireOrder_arr (fun w hw => sameInWireOrder cfg (d := d) hn w hw) hs
  | .varr d min max => exact sameInWireOrder_varr (fun w hw => sameInWireOrder cfg (d := d) hn w hw) hs

theorem sameInWireOrder_member (cfg : Config) {ms : Members} (hn : ms.namesOk = true) {n : String} {d : Desc}
    (hd : ms.Takes n d) (v : Value) (hs : shape d v = true) : SameInWireOrder cfg d v := by
  match ms with
  | .nil => cases hd
  | .cons m e rest =>
    obtain ⟨-, he, hrest⟩ := Members.namesOk_cons.1 hn
    rcases hd with ⟨-, -, hed⟩ | hd
    · exact hed ▸ sameInWireOrder cfg he v (hed ▸ hs)
    · exact sameInWireOrder_member cfg hrest hd v hs

end

/-- Settles O17, by induction on the descriptor: `sameInWireOrder`. -/
theorem wireOrderIsTheSameRecord : Obligations.WireOrderIsTheSameRecord := by
  intro cfg d v off hn hs
  obtain ⟨hshape, henc, hcanon⟩ := sameInWireOrder cfg hn v hs
  exact ⟨hshape, congrFun henc off, hcanon⟩

end Sys2Proof

/-!
What the codecs and the checks of ENCODE answer, as the invariant of the machine needs it: `DEC` gives a value of the
descriptor's shape (spec/41_field_codecs.md R101), a packet that ENCODE builds has 36 bytes to TXMAX (spec/43_commands.md
R133), and a reject reports an offset that STATUS allows (spec/10_state.md R20).
-/

namespace Sys2Proof

/-! ## DEC gives the shape of its descriptor -/

theorem decMembers_cons_rsv {m : String} {e : Desc} {rest : Members} (he : e.isRsv = true) (s : List Byte) :
    decMembers (.cons m e rest) s = decMembers rest (s.drop e.size) := by
  simp [decMembers, he]

theorem decMembers_cons {m : String} {e : Desc} {rest : Members} (he : e.isRsv = false) (s : List Byte) :
    decMembers (.cons m e rest) s = .cons m (dec e s) (decMembers rest (s.drop e.size)) := by
  simp [decMembers, he]

@[simp] theorem decMembers_length (ms : Members) (s : List Byte) : (decMembers ms s).length = ms.count := by
  induction ms using Members.ind generalizing s with
  | nil => rfl
  | cons m e rest ih =>
    cases he : e.isRsv with
    | true => simp [decMembers_cons_rsv he, Members.count, he, ih]
    | false => simp [decMembers_cons he, Fields.length, Members.count, he, ih]

/-- With distinct names, a member that takes a value is found in the decoded record, decoded from bytes of its own. -/
theorem decMembers_lookup {ms : Members} {n : String} {d : Desc} (hn : ms.namesOk = true) (hd : ms.Takes n d)
    (s : List Byte) : ∃ s', (decMembers ms s).lookup n = some (dec d s') := by
  induction ms using Members.ind generalizing s with
  | nil => cases hd
  | cons m e rest ih =>
    obtain ⟨hm, -, hrest⟩ := Members.namesOk_cons.1 hn
    rcases hd with ⟨he, rfl, rfl⟩ | hd
    · exact ⟨s, by simp [decMembers_cons he]⟩
    · obtain ⟨s', hs'⟩ := ih hrest hd (s.drop e.size)
      refine ⟨s', ?_⟩
      cases he : e.isRsv with
      | true => rw [decMembers_cons_rsv he, hs']
      | false =>
        have hne : m ≠ n := by
          rintro rfl
          exact Bool.false_ne_true ((hm he).symm.trans (Members.hasName_of_takes hd))
        rw [decMembers_cons he, Fields.lookup_cons_of_ne hne, hs']

theorem decLeaves_eq (ls : List (String × Leaf)) (s : List Byte) : decLeaves ls s = decMembers (leafMembers ls) s := by
  induction ls generalizing s with
  | nil => rfl
  | cons l rest ih =>
    obtain ⟨m, l⟩ := l
    cases l <;> simp [decLeaves, leafMembers, decMembers, dec, Desc.size, ih]

/-- A `STRUCT`, when the claim holds of the members' descriptors. -/
theorem shape_decMembers {ms : Members} (hn : ms.namesOk = true)
    (hms : ∀ n d, ms.Takes n d → ∀ s, shape d (dec d s) = true) (s : List Byte) :
    shape (.struct ms) (.record (decMembers ms s)) = true := by
  have hpresent : shapeMembers ms (decMembers ms s) = true := shapeMembers_iff.2 fun n d hd =>
    let ⟨s', hs'⟩ := decMembers_lookup hn hd s
    ⟨dec d s', hs', hms n d hd s'⟩
  simp [shape, hpresent]

/-- A flat sub-structure, by the `STRUCT` of its table. -/
theorem shape_decLeaves {ls : List (String × Leaf)} (hn : (leafMembers ls).namesOk = true) (s : List Byte) :
    (leavesPresent ls (decLeaves ls s) && (decLeaves ls s).length == leavesCount ls) = true := by
  have h := shape_decMembers hn (fun n d hd s => by obtain ⟨k, rfl⟩ := leafMembers_takes hd; rfl) s
  rwa [decLeaves_eq, leavesPresent_eq, leavesCount_eq]

theorem decElems_all {f : List Byte → Value} {p : Value → Bool} (hf : ∀ s, p (f s) = true) (size n : Nat)
    (s : List Byte) : (decElems f size n s).all p = true := by
  induction n generalizing s with
  | zero => rfl
  | succ n ih => exact Values.all_cons.2 ⟨hf s, ih _⟩

mutual

/-- DEC gives a value of the descriptor's shape, whatever the bytes (spec/41_field_codecs.md R101). -/
theorem shape_dec {d : Desc} (hn : d.namesOk = true) (s : List Byte) : shape d (dec d s) = true := by
  match d with
  | .int _ => rfl
  | .rsv _ => rfl
  | .str32 => rfl
  | .hsbk => exact shape_decLeaves (ls := hsbkLeaves) (by decide) s
  | .tile => exact shape_decLeaves (ls := tileLeaves) (by decide) s
  | .struct ms => exact shape_decMembers hn (fun n d hd s => shape_dec_member hn hd s) s
  | .arr d n => exact decElems_all (p := shape d) (fun s => shape_dec (d := d) hn s) d.size n s
  | .varr d _ _ => exact decElems_all (p := shape d) (fun s => shape_dec (d := d) hn s) d.size _ s

theorem shape_dec_member {ms : Members} (hn : ms.namesOk = true) {n : String} {d : Desc} (hd : ms.Takes n d)
    (s : List Byte) : shape d (dec d s) = true := by
  match ms with
  | .nil => cases hd
  | .cons m e rest =>
    obtain ⟨-, he, hrest⟩ := Members.namesOk_cons.1 hn
    rcases hd with ⟨-, -, hed⟩ | hd
    · exact hed ▸ shape_dec he s
    · exact shape_dec_member hrest hd s

end

/-! ## The offset that a reject reports -/

/-- The offset is 0 where STATUS must hold no offset: for `V_UNKNOWN_NAME` and `V_SHAPE` (spec/10_state.md R20). -/
def ValidationReject.OffsetLegal (r : ValidationReject) : Prop :=
  r.cause = .unknownName ∨ r.cause = .shape → r.off = 0

theorem offsetLegal_zero (c : ValidationCause) : ValidationReject.OffsetLegal ⟨c, 0⟩ := fun _ => rfl

theorem offsetLegal_range (off : Nat) : ValidationReject.OffsetLegal ⟨.range, off⟩ := by
  simp [ValidationReject.OffsetLegal]

theorem offsetLegal_arrayLen (off : Nat) : ValidationReject.OffsetLegal ⟨.arrayLen, off⟩ := by
  simp [ValidationReject.OffsetLegal]

theorem encUnsigned_error {n off : Nat} {v : Int} {r : ValidationReject} (h : encUnsigned n v off = .error r) :
    r = ⟨.range, off⟩ := by
  unfold encUnsigned at h
  split at h <;> cases h
  rfl

/-- An integer codec rejects by range alone, at its own offset. -/
theorem encScalar_error {cfg : Config} {k : Scalar} {v : Int} {off : Nat} {r : ValidationReject}
    (h : encScalar cfg k v off = .error r) : r = ⟨.range, off⟩ := by
  cases k
  case i16 =>
    simp only [encScalar, encI16] at h
    split at h <;> cases h
    rfl
  case kelvin =>
    simp only [encScalar, encKelvin] at h
    split at h <;> cases h
    rfl
  all_goals exact encUnsigned_error h

/-- A label is rejected by its length or by a zero byte, at its own offset. -/
theorem encLabel_error {b : List Byte} {off : Nat} {r : ValidationReject} (h : encLabel b off = .error r) :
    r = ⟨.stringLen, off⟩ ∨ r = ⟨.stringNul, off⟩ := by
  unfold encLabel at h
  split at h
  · cases h; exact .inl rfl
  · split at h <;> cases h
    exact .inr rfl

theorem encLeaves_offsetLegal {cfg : Config} {ls : List (String × Leaf)} {fs : Fields} {off : Nat}
    {r : ValidationReject} (h : encLeaves cfg ls fs off = .error r) : r.OffsetLegal := by
  induction ls generalizing off with
  | nil => cases h
  | cons l rest ih =>
    obtain ⟨m, l⟩ := l
    cases l with
    | rsv n =>
      simp only [encLeaves] at h
      split at h
      · next hr => cases h; exact ih hr
      · cases h
    | int k =>
      simp only [encLeaves] at h
      split at h
      · split at h
        · next hk => cases h; exact encScalar_error hk ▸ offsetLegal_range off
        · split at h
          · next hr => cases h; exact ih hr
          · cases h
      · cases h; exact offsetLegal_zero _

theorem encElems_offsetLegal {f : Value → Nat → Except ValidationReject (List Byte)}
    (hf : ∀ v off r, f v off = .error r → r.OffsetLegal) {size : Nat} {vs : Values} {off : Nat} {r : ValidationReject}
    (h : encElems f size vs off = .error r) : r.OffsetLegal := by
  induction vs using Values.ind generalizing off with
  | nil => cases h
  | cons v rest ih =>
    simp only [encElems] at h
    split at h
    · next hv => cases h; exact hf _ _ _ hv
    · split at h
      · next hr => cases h; exact ih hr
      · cases h

mutual

/-- ENC reports `V_SHAPE` at 0 only, and `V_UNKNOWN_NAME` never (spec/60_exceptions.md R162). -/
theorem enc_offsetLegal {cfg : Config} {d : Desc} {v : Value} {off : Nat} {r : ValidationReject}
    (h : enc cfg d v off = .error r) : r.OffsetLegal := by
  match d with
  | .int k =>
    cases v with
    | int v => exact encScalar_error h ▸ offsetLegal_range off
    | _ => cases h; exact offsetLegal_zero _
  | .rsv n => cases v <;> cases h
  | .str32 =>
    cases v with
    | bytes b => rcases encLabel_error h with rfl | rfl <;> simp [ValidationReject.OffsetLegal]
    | _ => cases h; exact offsetLegal_zero _
  | .hsbk =>
    cases v with
    | record fs => exact encLeaves_offsetLegal h
    | _ => cases h; exact offsetLegal_zero _
  | .tile =>
    cases v with
    | record fs => exact encLeaves_offsetLegal h
    | _ => cases h; exact offsetLegal_zero _
  | .struct ms =>
    cases v with
    | record fs => exact encMembers_offsetLegal h
    | _ => cases h; exact offsetLegal_zero _
  | .arr d n =>
    cases v with
    | list vs =>
      simp only [enc] at h
      split at h
      · exact encElems_offsetLegal (fun v off r hv => enc_offsetLegal hv) h
      · cases h; exact offsetLegal_arrayLen off
    | _ => cases h; exact offsetLegal_zero _
  | .varr d min max =>
    cases v with
    | list vs =>
      simp only [enc] at h
      split at h
      · cases h; exact offsetLegal_arrayLen off
      · exact encElems_offsetLegal (fun v off r hv => enc_offsetLegal hv) h
    | _ => cases h; exact offsetLegal_zero _

theorem encMembers_offsetLegal {cfg : Config} {ms : Members} {fs : Fields} {off : Nat} {r : ValidationReject}
    (h : encMembers cfg ms fs off = .error r) : r.OffsetLegal := by
  match ms with
  | .nil => cases h
  | .cons n d rest =>
    simp only [encMembers] at h
    split at h
    · cases h; exact offsetLegal_zero _
    · split at h
      · next hv => cases h; exact enc_offsetLegal hv
      · split at h
        · next hr => cases h; exact encMembers_offsetLegal hr
        · cases h

end

/-! ## The length of a payload -/

/-- A list of members that is not empty holds a `VARR` as its last member alone, or none at its head. -/
theorem Members.varrLast_cons {m : String} {d : Desc} {rest : Members} (h : (Members.cons m d rest).varrLast = true) :
    (∃ e min max, d = .varr e min max ∧ rest = .nil ∧ e.noVarr = true ∧ 1 ≤ e.size) ∨
      (d.noVarr = true ∧ rest.varrLast = true ∧ (Members.cons m d rest).tail = rest.tail) := by
  cases d with
  | varr e min max =>
    cases rest with
    | nil =>
      simp only [varrLast, Bool.and_eq_true, decide_eq_true_eq] at h
      exact .inl ⟨e, min, max, rfl, rfl, h⟩
    | cons => simp [varrLast, Desc.noVarr] at h
  | _ =>
    obtain ⟨hd, hrest⟩ := (Bool.and_eq_true ..).mp h
    exact .inr ⟨hd, hrest, rfl⟩

theorem Members.maxSize_cons {m : String} {d : Desc} {rest : Members}
    (h : (Members.cons m d rest).tail = rest.tail) :
    (Desc.struct (.cons m d rest)).maxSize = d.size + (Desc.struct rest).maxSize := by
  simp only [Desc.maxSize, Desc.tail, h, Desc.size, Members.size]
  cases rest.tail with
  | none => rfl
  | some t => simp only [Nat.add_assoc]

/-- A `VARR` of at most `max` elements. -/
theorem enc_varr_length_le {cfg : Config} {e : Desc} {min max off : Nat} {v : Value} {b : List Byte}
    (he : e.noVarr = true) (h : enc cfg (.varr e min max) v off = .ok b) : b.length ≤ max * e.size := by
  cases v with
  | list vs =>
    simp only [enc] at h
    split at h
    · cases h
    · next hlen =>
      rw [encElems_length (fun v off b hv => enc_length he hv) h]
      exact Nat.mul_le_mul_right _ (by omega)
  | _ => cases h

theorem encMembers_cons_ok {cfg : Config} {m : String} {d : Desc} {rest : Members} {fs : Fields} {off : Nat}
    {b : List Byte} (h : encMembers cfg (.cons m d rest) fs off = .ok b) :
    ∃ v b₁ b₂, enc cfg d v off = .ok b₁ ∧ encMembers cfg rest fs (off + b₁.length) = .ok b₂ ∧ b = b₁ ++ b₂ := by
  simp only [encMembers] at h
  split at h
  · cases h
  · next v _ =>
    split at h
    · cases h
    · next b₁ hv =>
      split at h
      · cases h
      · next b₂ hr => cases h; exact ⟨v, b₁, b₂, hv, hr, rfl⟩

theorem encMembers_length_le {cfg : Config} {ms : Members} {fs : Fields} {off : Nat} {b : List Byte}
    (hms : ms.varrLast = true) (h : encMembers cfg ms fs off = .ok b) : b.length ≤ (Desc.struct ms).maxSize := by
  induction ms using Members.ind generalizing off b with
  | nil => cases h; exact Nat.zero_le _
  | cons m d rest ih =>
    obtain ⟨v, b₁, b₂, hv, hr, rfl⟩ := encMembers_cons_ok h
    rcases Members.varrLast_cons hms with ⟨e, min, max, rfl, rfl, he, -⟩ | ⟨hd, hrest, htail⟩
    · cases hr
      simpa [Desc.maxSize, Desc.tail, Members.tail, Desc.size, Members.size] using enc_varr_length_le he hv
    · rw [Members.maxSize_cons htail, List.length_append, enc_length hd hv]
      exact Nat.add_le_add_left (ih hrest hr) _

/-- A payload of a registered type is at most `maxsize(P)` bytes long (spec/30_encoding.md R58). -/
theorem Entry.enc_length_le {cfg : Config} {e : Entry} (he : e.ok cfg = true) {v : Value} {off : Nat} {b : List Byte}
    (h : enc cfg e.desc v off = .ok b) : b.length ≤ e.desc.maxSize := by
  obtain ⟨ms, hms, -, hlast, -⟩ := Entry.ok_spec he
  rw [hms] at h ⊢
  cases v with
  | record fs => exact encMembers_length_le hlast h
  | _ => cases h

end Sys2Proof

/-!
The state and the host: what a step is in each phase, which steps stop, what every step keeps of the parameters, the
memories and STATUS, and the invariant of the machine.
-/

namespace Sys2Proof.Machine

/-! ## The reset state and the word of STATUS -/

theorem statusWord_statusNone : statusWord statusNone = 0 := by decide

/-- Settles O1: each clause is a field of `State.resetWith` or a read below the length 0. -/
theorem resetLeavesEveryElementAtItsValue : Obligations.ResetLeavesEveryElementAtItsValue := by
  intro cfg l n
  have hwf : Config.default.wf = true := by decide +kernel
  exact ⟨rfl, rfl, rfl, rfl, fun a => if_neg (Nat.not_lt_zero a), rfl, rfl, fun k => if_neg (Nat.not_lt_zero k), rfl,
    rfl, rfl, statusWord_statusNone, rfl, hwf⟩

/-- The word is the four fields appended, ERR the lowest. -/
theorem statusWord_getLsbD (st : Status) (i : Nat) :
    (statusWord st).getLsbD i =
      if i < 2 then st.err.getLsbD i else if i - 2 < 8 then st.cause.getLsbD (i - 2)
      else if i - 2 - 8 < 16 then st.eoff.getLsbD (i - 2 - 8) else st.einfo.getLsbD (i - 2 - 8 - 16) := by
  unfold statusWord
  erw [BitVec.getLsbD_append, BitVec.getLsbD_append, BitVec.getLsbD_append]

/-- Settles O4, bit by bit: `statusWord_getLsbD`. -/
theorem statusWordHasItsFieldsInPlace : Obligations.StatusWordHasItsFieldsInPlace := by
  intro st
  refine ⟨?err, ?cause, ?eoff, ?einfo⟩ <;> refine BitVec.eq_of_getLsbD_eq fun i hi => ?_ <;>
    rw [BitVec.getLsbD_extractLsb', decide_eq_true hi, Bool.true_and, statusWord_getLsbD]
  case err => rw [if_pos (by omega), Nat.zero_add]
  case cause => rw [if_neg (by omega), if_pos (by omega), Nat.add_sub_cancel_left]
  case eoff =>
    rw [if_neg (by omega), if_neg (by omega), if_pos (by omega)]
    exact congrArg _ (by omega)
  case einfo =>
    rw [if_neg (by omega), if_neg (by omega), if_neg (by omega)]
    exact congrArg _ (by omega)

/-! ## What a step is in each phase -/

theorem step_illFormed {s : State} (hw : s.cfg.wf = false) : step s = .refused .illFormedConfig := by
  simp [step, hw]

theorem step_idle {s : State} (hw : s.cfg.wf = true) (hp : s.phase = .idle) : step s = idleStep s := by
  simp [step, fetch, hw, hp]

/-- An idle block takes the host's next action. -/
theorem step_action {s : State} {a : HostAction} {rest : List HostAction} (hw : s.cfg.wf = true) (hp : s.phase = .idle)
    (hi : s.inbox = a :: rest) : step s = hostAct a { s with inbox := rest } := by
  rw [step_idle hw hp, idleStep, hi]

theorem step_command {s : State} (hw : s.cfg.wf = true) (hp : s.phase = .command) :
    step s = exec (decodeCommand s.cmdOp.toNat) s := by
  simp [step, fetch, hw, hp]

theorem step_header_ok {s : State} {b : Bool} {i : Instr} (hw : s.cfg.wf = true) (hp : s.phase = .header b)
    (hd : decodeHdr s.cfg (rxRest s) = .ok i) : step s = exec i s := by
  simp [step, fetch, hw, hp, hd]

theorem step_header_error {s : State} {b : Bool} {r : FormatReject} (hw : s.cfg.wf = true) (hp : s.phase = .header b)
    (hd : decodeHdr s.cfg (rxRest s) = .error r) : step s = .next (raiseFormat r s) := by
  simp [step, fetch, hw, hp, hd]

theorem step_payload_row {s : State} {b : Bool} {r : PacketRecord} {i : Instr} (hw : s.cfg.wf = true)
    (hp : s.phase = .payload b) (hd : decodeFrame s.cfg b (rxRest s) = .ok r) (hi : Instr.ofPacket r = some i) :
    step s = exec i s := by
  simp [step, fetch, hw, hp, hd, hi]

theorem step_payload_unlisted {s : State} {b : Bool} {r : PacketRecord} (hw : s.cfg.wf = true)
    (hp : s.phase = .payload b) (hd : decodeFrame s.cfg b (rxRest s) = .ok r) (hi : Instr.ofPacket r = none) :
    step s = .next (storePacket r s) := by
  simp [step, fetch, hw, hp, hd, hi]

theorem step_payload_error {s : State} {b : Bool} {r : FormatReject} (hw : s.cfg.wf = true)
    (hp : s.phase = .payload b) (hd : decodeFrame s.cfg b (rxRest s) = .error r) : step s = .next (raiseFormat r s) := by
  simp [step, fetch, hw, hp, hd]

/-- With or without a row of its own, a packet that is decoded is stored. -/
theorem step_payload_ok {s : State} {b : Bool} {r : PacketRecord} (hw : s.cfg.wf = true) (hp : s.phase = .payload b)
    (hd : decodeFrame s.cfg b (rxRest s) = .ok r) : step s = .next (storePacket r s) := by
  cases hi : Instr.ofPacket r with
  | none => exact step_payload_unlisted hw hp hd hi
  | some i => rw [step_payload_row hw hp hd hi, exec_packet (packet_ofPacket hi)]

/-- Settles O47: one lemma for each phase and each answer of the decoder. -/
theorem stepRunsTheDecodedInstruction : Obligations.StepRunsTheDecodedInstruction := fun _ hw =>
  ⟨step_command hw,
    fun _ hp => ⟨fun _ => step_header_ok hw hp, fun _ => step_header_error hw hp⟩,
    fun _ hp => ⟨fun _ _ => step_payload_row hw hp, fun _ => step_payload_unlisted hw hp,
      fun _ => step_payload_error hw hp⟩⟩

/-! ## The host's writes -/

/-- A write of CMD is seen by the next step through its two low bits. -/
theorem step_of_writeCmd {t : State} {w : Nat} (hw : t.cfg.wf = true) (hp : t.phase = .command)
    (hc : t.cmdOp = BitVec.ofNat 2 w) : step t = exec (decodeCommand (w % 4)) t := by
  rw [step_command hw hp, hc, BitVec.toNat_ofNat]

/-- Settles O5: the block takes the action, and the next step runs `w % 4` (`step_of_writeCmd`). -/
theorem cmdWriteRunsTheNamedCommand : Obligations.CmdWriteRunsTheNamedCommand := by
  intro s w rest hw hp hi
  have run := step_of_writeCmd (t := { s with inbox := rest, cmdOp := BitVec.ofNat 2 w, phase := .command }) hw rfl rfl
  refine ⟨_, step_action hw hp hi, rfl, ?_, ?_, ?_, ?_⟩ <;> exact fun h => run.trans (by rw [h]; rfl)

/-- Settles O6: the block takes the action, and `hostAct` says what it does; the bytes of RXBUF by `Memory.read_write`. -/
theorem hostWritesOfTheDatagram : Obligations.HostWritesOfTheDatagram := by
  intro s rest hw hp
  refine ⟨fun a bs hi => ?rxbuf, fun n hi => ?rxlen, ?_⟩
  case rxbuf =>
    rw [step_action hw hp hi]
    exact ⟨fun hle => ⟨_, if_pos hle, rfl, Memory.read_write s.rxbuf a bs⟩, fun hlt => if_neg (Nat.not_le.2 hlt)⟩
  case rxlen =>
    rw [step_action hw hp hi]
    refine ⟨fun hle => ⟨_, if_pos hle, rfl, ?_⟩, fun hlt => if_neg (Nat.not_le.2 hlt)⟩
    obtain ⟨-, -, -, -, hrx, -⟩ := Config.wf_spec hw
    exact (BitVec.toNat_ofNat ..).trans (Nat.mod_eq_of_lt (by omega))
  refine ⟨?_, ?_, ?_, ?_, ?_, ?_, ?_, ?_⟩ <;> exact fun _ hi => step_action hw hp hi

/-! ## The steps that stop -/

/-- The outcome is a fault or a refusal. -/
def Stops (o : Host.Outcome State Fault Refusal) : Prop := ∀ t, o ≠ .next t

theorem not_stops_next (t : State) : ¬ Stops (.next t) := fun h => h t rfl

theorem stops_fault (f : Fault) : Stops (.fault f) := fun _ h => nomatch h

theorem stops_refused (r : Refusal) : Stops (.refused r) := fun _ h => nomatch h

/-- The one instruction that can stop is an ENCODE on an `ER` with an unwritten field. -/
theorem exec_stops {i : Instr} {s : State} (h : Stops (exec i s)) :
    i = .encode ∧ s.erWritten.complete = false ∧ exec i s = .refused .erUnwritten := by
  cases hpk : i.packet with
  | some r => rw [exec_packet hpk] at h; exact absurd h (not_stops_next _)
  | none =>
    cases i with
    | hdr hd =>
      rw [exec_hdr] at h
      rcases execHdr_cases hd s with ⟨_, -, he⟩ | ⟨-, he⟩ <;> rw [he] at h <;> exact absurd h (not_stops_next _)
    | nop | decode | parse => exact absurd h (not_stops_next _)
    | encode =>
      rcases execEncode_cases s with ⟨hc, he⟩ | ⟨-, _, -, he⟩ | ⟨-, _, -, he⟩
      · exact ⟨rfl, hc, he⟩
      all_goals
        rw [exec_encode, he] at h
        exact absurd h (not_stops_next _)
    | _ => cases hpk

theorem decodeCommand_encode {op : BitVec 2} (h : decodeCommand op.toNat = .encode) : op = 1 := by
  revert op
  decide

/-- A host action that stops passes an end: of RXBUF, of RXMAX, or of a valid length. -/
theorem hostAct_stops {a : HostAction} {s : State} (h : Stops (hostAct a s)) :
    (∃ x bs, a = .writeRx x bs ∧ s.cfg.rxMax < x + bs.length ∧ hostAct a s = .fault .rxAddress) ∨
    (∃ n, a = .writeRxLen n ∧ s.cfg.rxMax < n ∧ hostAct a s = .refused .rxlenAboveRxmax) ∨
    (∃ k, a = .readTx k ∧ s.txlen.toNat ≤ k ∧ hostAct a s = .refused .readPastTxlen) ∨
    (∃ k, a = .readOutq k ∧ s.outn.toNat ≤ k ∧ hostAct a s = .refused .readPastOutn) ∨
    (∃ k, a = .readRx k ∧ s.rxlen.toNat ≤ k ∧ hostAct a s = .refused .readPastRxlen) := by
  cases a with
  | writeRx x bs =>
    have hlt : ¬ x + bs.length ≤ s.cfg.rxMax := fun hle => h _ (if_pos hle)
    exact .inl ⟨x, bs, rfl, Nat.not_le.1 hlt, if_neg hlt⟩
  | writeRxLen n =>
    have hlt : ¬ n ≤ s.cfg.rxMax := fun hle => h _ (if_pos hle)
    exact .inr (.inl ⟨n, rfl, Nat.not_le.1 hlt, if_neg hlt⟩)
  | readTx k =>
    have hle : ¬ k < s.txlen.toNat := fun hlt => h _ (if_pos hlt)
    exact .inr (.inr (.inl ⟨k, rfl, Nat.not_lt.1 hle, if_neg hle⟩))
  | readOutq k =>
    have hle : ¬ k < s.outn.toNat := fun hlt => h _ (if_pos hlt)
    exact .inr (.inr (.inr (.inl ⟨k, rfl, Nat.not_lt.1 hle, if_neg hle⟩)))
  | readRx k =>
    have hle : ¬ k < s.rxlen.toNat := fun hlt => h _ (if_pos hlt)
    exact .inr (.inr (.inr (.inr ⟨k, rfl, Nat.not_lt.1 hle, if_neg hle⟩)))
  | writeEr _ | writeCmd _ | reset => exact absurd h (not_stops_next _)

/-- A step stops on ill-formed parameters, in an ENCODE on an unwritten `ER`, or in a host action. -/
theorem step_stops {s : State} (h : Stops (step s)) :
    (s.cfg.wf = false ∧ step s = .refused .illFormedConfig) ∨
    (s.phase = .command ∧ s.cmdOp = 1 ∧ s.erWritten.complete = false ∧ step s = .refused .erUnwritten) ∨
    (s.phase = .idle ∧ ∃ a rest, s.inbox = a :: rest ∧ step s = hostAct a { s with inbox := rest }) := by
  cases hw : s.cfg.wf with
  | false => exact .inl ⟨rfl, step_illFormed hw⟩
  | true =>
    right
    obtain ⟨p, hp⟩ : ∃ p, s.phase = p := ⟨_, rfl⟩
    cases p with
    | idle =>
      cases hi : s.inbox with
      | nil =>
        rw [step_idle hw hp, idleStep, hi] at h
        exact absurd h (not_stops_next s)
      | cons a rest => exact .inr ⟨hp, a, rest, rfl, step_action hw hp hi⟩
    | command =>
      rw [step_command hw hp] at h ⊢
      obtain ⟨hi, hc, he⟩ := exec_stops h
      exact .inl ⟨hp, decodeCommand_encode hi, hc, he⟩
    | header b =>
      cases hd : decodeHdr s.cfg (rxRest s) with
      | error r =>
        rw [step_header_error hw hp hd] at h
        exact absurd h (not_stops_next _)
      | ok i =>
        rw [step_header_ok hw hp hd] at h
        obtain ⟨rfl, -⟩ := exec_stops h
        unfold decodeHdr at hd
        split at hd <;> cases hd
    | payload b =>
      cases hd : decodeFrame s.cfg b (rxRest s) with
      | error r =>
        rw [step_payload_error hw hp hd] at h
        exact absurd h (not_stops_next _)
      | ok r =>
        rw [step_payload_ok hw hp hd] at h
        exact absurd h (not_stops_next _)

/-- A step that faults is a host write past the end of RXBUF. -/
theorem step_fault {s : State} {f : Fault} (hf : step s = .fault f) :
    ∃ a bs rest, s.phase = .idle ∧ s.inbox = .writeRx a bs :: rest ∧ s.cfg.rxMax < a + bs.length := by
  rcases step_stops (hf ▸ stops_fault f) with ⟨-, he⟩ | ⟨-, -, -, he⟩ | ⟨hp, a, rest, hi, he⟩
  · cases hf.symm.trans he
  · cases hf.symm.trans he
  · have ho := he.symm.trans hf
    rcases hostAct_stops (ho ▸ stops_fault f) with
      ⟨x, bs, rfl, hlt, -⟩ | ⟨_, -, -, hr⟩ | ⟨_, -, -, hr⟩ | ⟨_, -, -, hr⟩ | ⟨_, -, -, hr⟩
    · exact ⟨x, bs, rest, hp, hi, hlt⟩
    all_goals cases ho.symm.trans hr

/-- Settles O55: `step_fault`, and a refusal by `step_stops` and `hostAct_stops`. -/
theorem stepStopsOnlyWhereTheSpecSays : Obligations.StepStopsOnlyWhereTheSpecSays := by
  refine fun s => ⟨fun f => step_fault, fun r hr => ?_⟩
  rcases step_stops (hr ▸ stops_refused r) with ⟨hw, he⟩ | ⟨hp, hop, hc, he⟩ | ⟨hp, a, rest, hi, he⟩
  · cases hr.symm.trans he
    exact .inl ⟨rfl, hw⟩
  · cases hr.symm.trans he
    exact .inr (.inl ⟨rfl, hp, hop, hc⟩)
  · have ho := he.symm.trans hr
    refine .inr (.inr ⟨hp, ?_⟩)
    rcases hostAct_stops (ho ▸ stops_refused r) with
      ⟨_, _, -, -, hf⟩ | ⟨k, rfl, hle, hr'⟩ | ⟨k, rfl, hle, hr'⟩ | ⟨k, rfl, hle, hr'⟩ | ⟨k, rfl, hle, hr'⟩
    · cases ho.symm.trans hf
    · cases ho.symm.trans hr'
      exact ⟨k, rest, .inl ⟨rfl, hi, hle⟩⟩
    · cases ho.symm.trans hr'
      exact ⟨k, rest, .inr (.inl ⟨rfl, hi, hle⟩)⟩
    · cases ho.symm.trans hr'
      exact ⟨k, rest, .inr (.inr (.inl ⟨rfl, hi, hle⟩))⟩
    · cases ho.symm.trans hr'
      exact ⟨k, rest, .inr (.inr (.inr ⟨rfl, hi, hle⟩))⟩

end Sys2Proof.Machine

/-!
DECODE and PARSE read the datagram and the parameters alone; what an instruction and a step leave unchanged; the values of
STATUS (spec/10_state.md R10, R11, R20).
-/

namespace Sys2Proof.Machine

/-! ## Two receivers with the same datagram -/

/-- The states agree on the parameters, on the datagram and on everything that a frame step writes. -/
structure SameReceive (s u : State) : Prop where
  wf_left : Memory.wf s.rxbuf
  wf_right : Memory.wf u.rxbuf
  cfg : s.cfg = u.cfg
  rxlen : s.rxlen = u.rxlen
  bytes : ∀ a, a < s.rxlen.toNat → rxByte s a = rxByte u a
  outq : s.outq = u.outq
  outn : s.outn = u.outn
  cur : s.cur = u.cur
  fcnt : s.fcnt = u.fcnt
  status : s.status = u.status
  phase : s.phase = u.phase

theorem SameReceive.rxRest {s u : State} (h : SameReceive s u) : rxRest s = rxRest u := by
  simp only [Machine.rxRest, memRead_eq_rxByte h.wf_left, memRead_eq_rxByte h.wf_right, ← h.cur, ← h.rxlen]
  refine List.map_congr_left fun i hi => h.bytes _ ?_
  have := List.mem_range.1 hi
  omega

theorem SameReceive.raiseFormat {s u : State} (h : SameReceive s u) (r : FormatReject) :
    SameReceive (raiseFormat r s) (raiseFormat r u) :=
  { h with outq := rfl, outn := rfl, status := by simp [h.cur], phase := rfl }

theorem SameReceive.storePacket {s u : State} (h : SameReceive s u) (r : PacketRecord) :
    SameReceive (storePacket r s) (storePacket r u) :=
  { h with
    outq := by simp [h.outq, h.outn]
    outn := by simp [h.outn]
    cur := by simp [h.cur]
    fcnt := by simp [h.fcnt]
    phase := by simp [h.phase, h.cur, h.rxlen] }

theorem SameReceive.startFrames {s u : State} (wf_left : Memory.wf s.rxbuf) (wf_right : Memory.wf u.rxbuf)
    (cfg : s.cfg = u.cfg) (rxlen : s.rxlen = u.rxlen) (bytes : ∀ a, a < s.rxlen.toNat → rxByte s a = rxByte u a)
    (single : Bool) : SameReceive (startFrames single s) (startFrames single u) :=
  ⟨wf_left, wf_right, cfg, rxlen, bytes, rfl, rfl, rfl, rfl, rfl, rfl⟩

theorem SameReceive.frameStep {s u : State} (h : SameReceive s u) : SameReceive (frameStep s) (frameStep u) := by
  have hd : decodeFrame s.cfg s.phase.isSingle (Machine.rxRest s) =
      decodeFrame u.cfg u.phase.isSingle (Machine.rxRest u) := by
    rw [h.cfg, h.phase, h.rxRest]
  unfold Machine.frameStep
  rw [hd]
  split
  · exact h.raiseFormat _
  · exact h.storePacket _

theorem SameReceive.frameLoop {s u : State} (h : SameReceive s u) (n : Nat) :
    SameReceive (frameLoop n s) (frameLoop n u) := by
  induction n generalizing s u with
  | zero => exact h
  | succ n ih =>
    rw [frameLoop_succ, frameLoop_succ, h.phase]
    split
    · exact h
    · exact ih h.frameStep

/-- Settles O44: the two runs stay in step, frame by frame (`SameReceive`). -/
theorem receiveResultDependsOnDatagramOnly : Obligations.ReceiveResultDependsOnDatagramOnly := by
  intro s u hs hu hcfg hlen hbytes c hc
  have start := SameReceive.startFrames hs hu hcfg hlen hbytes
  rcases hc with rfl | rfl
  · have h := (start true).frameStep
    exact ⟨_, _, exec_decode s, exec_decode u, h.outq, h.outn, h.cur, h.fcnt, h.status⟩
  · have h := (start false).frameLoop (frameBound s)
    have hb : frameBound s = frameBound u := by rw [frameBound, frameBound, hlen]
    exact ⟨_, _, exec_parse s, hb ▸ exec_parse u, h.outq, h.outn, h.cur, h.fcnt, h.status⟩

/-! ## What an instruction leaves unchanged -/

theorem raiseFormat_sameButOut (r : FormatReject) (s : State) : SameButOut s (raiseFormat r s) := by
  constructor <;> rfl

theorem storePacket_sameButOut (r : PacketRecord) (s : State) : SameButOut s (storePacket r s) := by
  constructor <;> rfl

/-- An instruction other than ENCODE writes the receiver's results alone. -/
theorem exec_sameButOut {i : Instr} {s t : State} (h : exec i s = .next t) (hi : i ≠ .encode) : SameButOut s t := by
  rcases exec_next h with ⟨r, -, rfl⟩ | ⟨hd, c, -, -, rfl⟩ | ⟨hd, -, -, rfl⟩ | ⟨-, rfl⟩ | ⟨he, -⟩ | ⟨he, -⟩ | ⟨-, rfl⟩ |
    ⟨-, rfl⟩
  · exact storePacket_sameButOut r s
  · exact raiseFormat_sameButOut _ s
  · constructor <;> rfl
  · constructor <;> rfl
  · exact absurd he hi
  · exact absurd he hi
  · exact (startFrames_sameButOut true s).trans (frameStep_sameButOut _)
  · exact (startFrames_sameButOut false s).trans (frameLoop_sameButOut _ _)

/-- ENCODE writes STATUS and the sender's results alone. -/
theorem exec_encode_sameButTx {s t : State} (h : exec .encode s = .next t) : SameButTx s t := by
  rw [exec_encode] at h
  rcases execEncode_cases s with ⟨-, he⟩ | ⟨-, r, -, he⟩ | ⟨-, pkt, -, he⟩ <;> cases he.symm.trans h
  · constructor <;> rfl
  · constructor <;> rfl

/-- Settles O53: by `exec_encode_sameButTx` for ENCODE and by `exec_sameButOut` for the others. -/
theorem instructionsLeaveTheHostsInputs : Obligations.InstructionsLeaveTheHostsInputs := by
  intro i s t h
  by_cases hi : i = .encode
  · subst hi
    have same := exec_encode_sameButTx h
    exact ⟨same.cfg, same.rxbuf, same.rxlen, same.er, same.erWritten, same.cmdOp, same.inbox, same.epoch,
      fun hne => absurd rfl hne⟩
  · have same := exec_sameButOut h hi
    exact ⟨same.cfg, same.rxbuf, same.rxlen, same.er, same.erWritten, same.cmdOp, same.inbox, same.epoch,
      fun _ => ⟨same.txbuf, same.txlen⟩⟩

theorem exec_cfg {i : Instr} {s t : State} (h : exec i s = .next t) : t.cfg = s.cfg :=
  (instructionsLeaveTheHostsInputs i s t h).1

theorem hostAct_cfg {a : HostAction} {s t : State} (h : hostAct a s = .next t) : t.cfg = s.cfg := by
  rcases hostAct_next h with ⟨_, _, -, -, rfl⟩ | ⟨_, -, -, rfl⟩ | ⟨w, -, rfl⟩ | ⟨_, -, rfl⟩ | ⟨rfl, -⟩ | ⟨-, rfl⟩
  case inr.inr.inl => exact writeEr_cfg w s
  all_goals rfl

theorem idleStep_cfg {s t : State} (h : idleStep s = .next t) : t.cfg = s.cfg := by
  rcases idleStep_next h with ⟨-, rfl⟩ | ⟨_, _, -, ha⟩
  · rfl
  · exact (hostAct_cfg ha).trans rfl

/-- Settles O54: by what a step that answers a next state has done. -/
theorem noStepChangesTheRegistry : Obligations.NoStepChangesTheRegistry := by
  intro s t h
  obtain ⟨-, ⟨-, hi⟩ | ⟨r, -, rfl⟩ | ⟨_, r, -, -, rfl⟩ | ⟨_, -, -, he⟩ | ⟨-, he⟩⟩ := step_next h
  · exact idleStep_cfg hi
  · rfl
  · rfl
  · exact exec_cfg ((exec_hdr _ _).trans he)
  · exact exec_cfg he

/-! ## The values of STATUS -/

theorem statusLegal_none : StatusLegal statusNone := .inl rfl

theorem raiseFormat_statusLegal {r : FormatReject} (hr : r.cause ≠ .unknownType → r.cause ≠ .length → r.info = 0)
    (s : State) : StatusLegal (raiseFormat r s).status := .inr (.inl ⟨_, _, _, rfl, hr⟩)

theorem raiseValidation_statusLegal {r : ValidationReject} (hr : r.OffsetLegal) (s : State) :
    StatusLegal (raiseValidation r s).status := .inr (.inr ⟨_, _, rfl, hr⟩)

theorem StatusLegal.err_ne {st : Status} (h : StatusLegal st) : st.err ≠ 3 := by
  rcases h with rfl | ⟨_, _, _, rfl, -⟩ | ⟨_, _, rfl, -⟩
  all_goals simp

/-- ENCODE's checks report an offset that STATUS allows. -/
theorem encodeRequest_offsetLegal {cfg : Config} {er : EncodeRequest} {r : ValidationReject}
    (h : encodeRequest cfg er = .error r) : r.OffsetLegal := by
  unfold encodeRequest at h
  split at h
  · cases h; exact offsetLegal_zero _
  · split at h
    · split at h
      · next hc =>
        cases h
        simp [ValidationReject.OffsetLegal, hdrCheck_cause hc]
      · split at h
        · next hr => cases h; exact enc_offsetLegal hr
        · cases h
    · cases h; exact offsetLegal_zero _

theorem frameStep_statusLegal {s : State} (h : StatusLegal s.status) : StatusLegal (frameStep s).status := by
  rcases frameStep_cases s with ⟨r, hd, he⟩ | ⟨r, -, he⟩ <;> rw [he]
  · exact raiseFormat_statusLegal (decodeFrame_error hd) s
  · exact h

theorem exec_statusLegal {i : Instr} {s t : State} (hs : StatusLegal s.status) (h : exec i s = .next t) :
    StatusLegal t.status := by
  rcases exec_next h with ⟨r, -, rfl⟩ | ⟨_, c, -, hc, rfl⟩ | ⟨_, -, -, rfl⟩ | ⟨-, rfl⟩ | ⟨-, -, r, hr, rfl⟩ |
    ⟨-, -, _, -, rfl⟩ | ⟨-, rfl⟩ | ⟨-, rfl⟩
  · exact hs
  · exact raiseFormat_statusLegal (fun _ _ => rfl) s
  · exact hs
  · exact statusLegal_none
  · exact raiseValidation_statusLegal (encodeRequest_offsetLegal hr) _
  · exact statusLegal_none
  · exact frameStep_statusLegal statusLegal_none
  · exact frameLoop_keeps (P := fun t => StatusLegal t.status) (fun _ ht _ => frameStep_statusLegal ht) _ _
      statusLegal_none

theorem hostAct_statusLegal {a : HostAction} {s t : State} (hs : StatusLegal s.status) (h : hostAct a s = .next t) :
    StatusLegal t.status := by
  rcases hostAct_next h with ⟨_, _, -, -, rfl⟩ | ⟨_, -, -, rfl⟩ | ⟨w, -, rfl⟩ | ⟨_, -, rfl⟩ | ⟨rfl, -⟩ | ⟨-, rfl⟩
  case inr.inr.inl => rwa [writeEr_status]
  case inr.inr.inr.inr.inr => exact statusLegal_none
  all_goals exact hs

/-- Settles O60: by what a step that answers a next state has done. -/
theorem everyStepKeepsStatusLegal : Obligations.EveryStepKeepsStatusLegal := by
  intro s t hs h
  suffices ht : StatusLegal t.status from ⟨ht, ht.err_ne⟩
  obtain ⟨-, ⟨-, hi⟩ | ⟨r, ⟨-, hr⟩, rfl⟩ | ⟨_, r, -, -, rfl⟩ | ⟨_, -, -, he⟩ | ⟨-, he⟩⟩ := step_next h
  · rcases idleStep_next hi with ⟨-, rfl⟩ | ⟨_, rest, -, ha⟩
    · exact hs
    · exact hostAct_statusLegal (s := { s with inbox := rest }) hs ha
  · exact raiseFormat_statusLegal hr s
  · exact hs
  · exact exec_statusLegal hs ((exec_hdr _ _).trans he)
  · exact exec_statusLegal hs he

end Sys2Proof.Machine

/-!
The invariant of the machine: one lemma for each operation of the state, then for an instruction, a host action and a
step.
-/

namespace Sys2Proof.Machine

/-! ## The memories -/

theorem MemoryOk.of_eq {s t : State} (h : MemoryOk s) (hcfg : t.cfg = s.cfg) (hrx : t.rxbuf = s.rxbuf)
    (htx : t.txbuf = s.txbuf) : MemoryOk t where
  rxCanonical := hrx ▸ h.rxCanonical
  rxInside := hrx ▸ hcfg ▸ h.rxInside
  txCanonical := htx ▸ h.txCanonical
  txInside := htx ▸ hcfg ▸ h.txInside

theorem MemoryOk.of_sameButOut {s t : State} (h : MemoryOk s) (same : SameButOut s t) : MemoryOk t :=
  h.of_eq same.cfg same.rxbuf same.txbuf

/-- A cell of a written memory is one of before or one of the bytes. -/
theorem Memory.mem_write {m : Memory} {a : Nat} {bs : List Byte} {c : Host.Cell} (h : c ∈ Memory.write m a bs) :
    c ∈ m ∨ a ≤ c.1 ∧ c.1 < a + bs.length := by
  unfold Memory.write at h
  rcases List.mem_append.1 h with h | h
  · rcases List.mem_append.1 h with h | h
    · exact .inl (List.mem_of_mem_filter h)
    · exact .inr (Memory.cells_addr h)
  · exact .inl (List.mem_of_mem_filter h)

/-- A host write inside RXBUF. -/
theorem MemoryOk.writeRx {s : State} (h : MemoryOk s) {a : Nat} {bs : List Byte} (hle : a + bs.length ≤ s.cfg.rxMax) :
    MemoryOk { s with rxbuf := Memory.write s.rxbuf a bs } :=
  { h with
    rxCanonical := Memory.write_wf h.rxCanonical a bs
    rxInside := fun c hc => by
      rcases Memory.mem_write hc with hc | hc
      · exact h.rxInside c hc
      · exact Nat.lt_of_lt_of_le hc.2 hle }

/-- A packet that fits TXBUF. -/
theorem MemoryOk.writePacket {s : State} (h : MemoryOk s) {pkt : List Byte} (hle : pkt.length ≤ s.cfg.txMax) :
    MemoryOk (writePacket pkt s) :=
  { h with
    txCanonical := Memory.forgetFrom_wf (Memory.write_wf h.txCanonical 0 pkt) _
    txInside := fun c hc => by
      have hlt : c.1 < pkt.length := by simpa using (List.mem_filter.1 hc).2
      exact Nat.lt_of_lt_of_le hlt hle }

theorem resetWith_memoryOk (cfg : Config) (l : List HostAction) (n : Nat) : MemoryOk (State.resetWith cfg l n) := by
  constructor <;> simp

/-! ## The records -/

theorem sizesOk_le {p : Desc} {n : Nat} (h : sizesOk p n = true) : 36 ≤ n := by
  unfold sizesOk at h
  split at h
  · have : n = 36 + p.size := by simpa using h
    omega
  · simp only [Bool.and_eq_true, decide_eq_true_eq] at h
    omega

theorem recordOk_size {cfg : Config} {r : PacketRecord} (h : recordOk cfg r = true) : 36 ≤ r.hdr.size.toNat := by
  unfold recordOk at h
  split at h
  · cases h
  · simp only [Bool.and_eq_true] at h
    obtain ⟨⟨-, hs⟩, -⟩ := h
    exact sizesOk_le hs

/-- A record of a frame that is decoded is one that its type admits. -/
theorem recordOk_of_decodeFrame {cfg : Config} (hw : cfg.wf = true) {b : Bool} {bytes : List Byte} {r : PacketRecord}
    (h : decodeFrame cfg b bytes = .ok r) : recordOk cfg r = true := by
  obtain ⟨-, -, -, -, -, e, he, hsize, hname, hpayload⟩ := decodeFrame_ok h
  obtain ⟨-, -, -, -, -, -, hreg, -⟩ := Config.wf_spec hw
  obtain ⟨ms, hms, hnames, -⟩ := Entry.ok_spec (hreg e (lookupId_some he).1)
  have hshape : shape e.desc r.payload = true := by
    rw [hpayload]
    exact shape_dec (by rw [hms]; exact hnames) _
  simp [recordOk, he, hsize, hname, hshape]

theorem sizeSum_append (rs : List PacketRecord) (r : PacketRecord) :
    sizeSum (rs ++ [r]) = sizeSum rs + r.hdr.size.toNat := by
  induction rs with
  | nil => simp [sizeSum]
  | cons q rs ih => simp [sizeSum, ih, Nat.add_assoc]

/-- Every record fills at least the 36 bytes of a header. -/
theorem length_le_sizeSum {cfg : Config} {rs : List PacketRecord} (h : ∀ r ∈ rs, recordOk cfg r = true) :
    36 * rs.length ≤ sizeSum rs := by
  induction rs with
  | nil => exact Nat.zero_le _
  | cons r rs ih =>
    have hr := recordOk_size (h r (List.mem_cons_self ..))
    have hrs := ih fun q hq => h q (List.mem_cons_of_mem _ hq)
    simp only [List.length_cons, sizeSum]
    omega

/-! ## The receiver's operations -/

/-- The invariant of a state that differs in the receiver's results alone, from what it says of these. -/
theorem Inv.of_sameButOut {s t : State} (h : Inv s) (same : SameButOut s t)
    (queue : t.outq.length = t.outn.toNat ∧ t.outn.toNat ≤ s.cfg.fmax)
    (records : ∀ r ∈ t.outq, recordOk s.cfg r = true) (status : StatusLegal t.status)
    (formatError : t.status.err = 1 → t.outn = 0 ∧ t.status.eoff = t.cur) (validationError : t.status.err ≠ 2)
    (frames : t.phase.inFrames = true →
      t.status = statusNone ∧ t.cur.toNat ≤ s.rxlen.toNat ∧ t.fcnt = t.outn ∧ sizeSum t.outq = t.cur.toNat) : Inv t where
  config := by rw [same.cfg]; exact h.config
  memory := h.memory.of_sameButOut same
  rxlen := by rw [same.cfg, same.rxlen]; exact h.rxlen
  txlen := by rw [same.cfg, same.txlen]; exact h.txlen
  packet := by rw [same.txbuf, same.txlen]; exact h.packet
  queue := by rw [same.cfg]; exact queue
  records := by rw [same.cfg]; exact records
  status := status
  formatError := formatError
  validationError := fun he => absurd he validationError
  frames := by rw [same.rxlen]; exact frames

theorem Inv.raiseFormat {s : State} (h : Inv s) {r : FormatReject}
    (hr : r.cause ≠ .unknownType → r.cause ≠ .length → r.info = 0) : Inv (raiseFormat r s) :=
  h.of_sameButOut (raiseFormat_sameButOut r s) ⟨rfl, Nat.zero_le _⟩ (fun _ hq => nomatch hq)
    (raiseFormat_statusLegal hr s) (fun _ => ⟨rfl, rfl⟩) (by simp) (fun hp => nomatch hp)

theorem Inv.startFrames {s : State} (h : Inv s) (single : Bool) : Inv (startFrames single s) :=
  h.of_sameButOut (startFrames_sameButOut single s) ⟨rfl, Nat.zero_le _⟩ (fun _ hq => nomatch hq) statusLegal_none
    (by simp) (by simp) (fun _ => ⟨rfl, Nat.zero_le _, rfl, rfl⟩)

/-- NOP. -/
theorem Inv.endCommand {s : State} (h : Inv s) : Inv (endCommand { s with status := statusNone }) :=
  h.of_sameButOut (by constructor <;> rfl) h.queue h.records statusLegal_none (by simp) (by simp) (fun hp => nomatch hp)

/-- The header of a frame has passed its checks: the packet is next. -/
theorem Inv.toPayload {s : State} (h : Inv s) (hp : s.phase.inFrames = true) :
    Inv { s with phase := .payload s.phase.isSingle } := by
  obtain ⟨hstatus, -⟩ := h.frames hp
  exact h.of_sameButOut (by constructor <;> rfl) h.queue h.records h.status h.formatError (by simp [hstatus])
    (fun _ => h.frames hp)

/-- A frame that was decoded ends inside the datagram, so that neither CUR nor OUTN wraps and OUTQ has room. -/
theorem Inv.storePacket {s : State} (h : Inv s) (hp : s.phase.inFrames = true) {b : Bool} {r : PacketRecord}
    (hd : decodeFrame s.cfg b (rxRest s) = .ok r) : Inv (storePacket r s) := by
  obtain ⟨hstatus, hcur, hfcnt, hsum⟩ := h.frames hp
  obtain ⟨-, -, hsize, hfits, -⟩ := decodeFrame_ok hd
  obtain ⟨hlength, -⟩ := h.queue
  have hrecord := recordOk_of_decodeFrame h.config hd
  have hfill := length_le_sizeSum h.records
  have hrxlen := h.rxlen
  rw [rxRest_length] at hfits
  have hrx := s.rxlen.isLt
  have hcur' : (s.cur + r.hdr.size).toNat = s.cur.toNat + r.hdr.size.toNat :=
    BitVec.toNat_add_of_lt (by omega)
  have houtn' : (s.outn + 1).toNat = s.outn.toNat + 1 :=
    BitVec.toNat_add_of_lt (show s.outn.toNat + 1 < 2 ^ 16 by omega)
  have houtq' : (Machine.storePacket r s).outq = s.outq ++ [r] := by
    rw [storePacket_outq, ← hlength, List.take_length]
  refine h.of_sameButOut (storePacket_sameButOut r s) ⟨?length, ?room⟩ ?records h.status (by simp [hstatus])
    (by simp [hstatus]) (fun _ => ⟨hstatus, ?cur, ?fcnt, ?sum⟩)
  case length => rw [houtq', storePacket_outn, houtn', List.length_append, hlength]; rfl
  case room =>
    rw [storePacket_outn, houtn', Config.fmax, Nat.le_div_iff_mul_le (by norm_num)]
    omega
  case records =>
    rw [houtq']
    intro q hq
    rcases List.mem_append.1 hq with hq | hq
    · exact h.records q hq
    · exact List.mem_singleton.1 hq ▸ hrecord
  case cur => rw [storePacket_cur, hcur']; omega
  case fcnt => rw [storePacket_fcnt, storePacket_outn, hfcnt]
  case sum => rw [houtq', storePacket_cur, hcur', sizeSum_append, hsum]

theorem Phase.inFrames_of_ne_idle_of_ne_command {p : Phase} (hi : p ≠ .idle) (hc : p ≠ .command) :
    p.inFrames = true := by
  cases p with
  | idle => exact absurd rfl hi
  | command => exact absurd rfl hc
  | header _ | payload _ => rfl

theorem Inv.frameStep {s : State} (h : Inv s) (hp : s.phase.inFrames = true) : Inv (frameStep s) := by
  rcases frameStep_cases s with ⟨r, hd, he⟩ | ⟨r, hd, he⟩ <;> rw [he]
  · exact h.raiseFormat (decodeFrame_error hd)
  · exact h.storePacket hp hd

theorem frameStep_phase_ne_command (s : State) : (frameStep s).phase ≠ .command := by
  rcases frameStep_cases s with ⟨r, -, he⟩ | ⟨r, -, he⟩ <;> rw [he]
  · simp
  · rw [storePacket_phase]
    split <;> simp

theorem Inv.frameLoop {s : State} (h : Inv s) (hp : s.phase ≠ .command) (n : Nat) : Inv (frameLoop n s) :=
  (frameLoop_keeps (P := fun t => Inv t ∧ t.phase ≠ .command)
    (fun t ⟨ht, hc⟩ hi => ⟨ht.frameStep (Phase.inFrames_of_ne_idle_of_ne_command hi hc), frameStep_phase_ne_command t⟩)
    n s ⟨h, hp⟩).1

/-! ## The sender's operations -/

/-- A packet that ENCODE builds has a header and fits TXBUF (spec/43_commands.md R133). -/
theorem encodeRequest_length {cfg : Config} (hw : cfg.wf = true) {er : EncodeRequest} {pkt : List Byte}
    (h : encodeRequest cfg er = .ok pkt) : 36 ≤ pkt.length ∧ pkt.length ≤ cfg.txMax := by
  obtain ⟨e, b, he, -, -, hb, rfl⟩ := encodeRequest_ok h
  obtain ⟨-, -, -, -, -, -, hreg, -⟩ := Config.wf_spec hw
  have hok := hreg e (lookupName_some he).1
  obtain ⟨-, -, -, -, -, hmax⟩ := Entry.ok_spec hok
  have hlen := Entry.enc_length_le hok hb
  rw [List.length_append, headerBytes_length]
  omega

theorem Inv.raiseValidation {s : State} (h : Inv s) {r : ValidationReject} (hr : r.OffsetLegal) :
    Inv (raiseValidation r s) :=
  { h with
    memory := h.memory.of_eq rfl rfl rfl
    txlen := ⟨Nat.zero_le _, .inl rfl⟩
    packet := fun a ha => absurd ha (Nat.not_lt_zero a)
    status := raiseValidation_statusLegal hr s
    formatError := by simp
    validationError := fun _ => rfl
    frames := fun hp => nomatch hp }

theorem Inv.writePacket {s : State} (h : Inv s) {pkt : List Byte} (hmin : 36 ≤ pkt.length)
    (hmax : pkt.length ≤ s.cfg.txMax) : Inv (Machine.endCommand (writePacket pkt { s with status := statusNone })) := by
  obtain ⟨-, -, -, -, -, htx, -⟩ := Config.wf_spec h.config
  have hlen : (BitVec.ofNat 16 pkt.length).toNat = pkt.length :=
    (BitVec.toNat_ofNat ..).trans (Nat.mod_eq_of_lt (by omega))
  exact
    { h with
      memory := (h.memory.writePacket hmax).of_eq rfl rfl rfl
      txlen := by
        rw [endCommand_txlen, writePacket_txlen, hlen]
        exact ⟨hmax, .inr hmin⟩
      packet := fun a ha => by
        rw [endCommand_txlen, writePacket_txlen, hlen] at ha
        rw [endCommand_txbuf, writePacket_read, List.getElem?_eq_getElem ha, Option.isSome_some]
      status := statusLegal_none
      formatError := by simp
      validationError := by simp
      frames := fun hp => nomatch hp }

/-! ## Instructions, host actions, steps -/

theorem Inv.execHdr {s t : State} (h : Inv s) (hp : s.phase.inFrames = true) {hd : Header}
    (he : execHdr hd s = .next t) : Inv t := by
  rcases execHdr_cases hd s with ⟨c, -, he'⟩ | ⟨-, he'⟩ <;> cases he'.symm.trans he
  · exact h.raiseFormat fun _ _ => rfl
  · exact h.toPayload hp

/-- The four commands. -/
theorem Inv.command {s t : State} (h : Inv s) {op : Nat} (he : exec (decodeCommand op) s = .next t) : Inv t := by
  have hcmd : decodeCommand op = .nop ∨ decodeCommand op = .encode ∨ decodeCommand op = .decode ∨
      decodeCommand op = .parse := by
    unfold decodeCommand
    split <;> simp
  rcases hcmd with hc | hc | hc | hc <;> rw [hc] at he
  · cases (exec_nop s).symm.trans he
    exact h.endCommand
  · rcases execEncode_cases s with ⟨-, he'⟩ | ⟨-, r, hr, he'⟩ | ⟨-, pkt, hpkt, he'⟩ <;> cases he'.symm.trans he
    · exact h.raiseValidation (encodeRequest_offsetLegal hr)
    · obtain ⟨hmin, hmax⟩ := encodeRequest_length h.config hpkt
      exact h.writePacket hmin hmax
  · cases (exec_decode s).symm.trans he
    exact (h.startFrames true).frameStep rfl
  · cases (exec_parse s).symm.trans he
    exact (h.startFrames false).frameLoop (fun hp => nomatch hp) _

/-- Settles O57, field by field: every length is 0, the queue and the memories are empty, the phase is idle. -/
theorem resetSatisfiesTheInvariant : Obligations.ResetSatisfiesTheInvariant := fun cfg l n hw =>
  { config := hw
    memory := resetWith_memoryOk cfg l n
    rxlen := Nat.zero_le _
    txlen := ⟨Nat.zero_le _, .inl rfl⟩
    packet := fun a ha => absurd ha (Nat.not_lt_zero a)
    queue := ⟨rfl, Nat.zero_le _⟩
    records := fun _ hr => nomatch hr
    status := statusLegal_none
    formatError := by simp
    validationError := fun _ => rfl
    frames := fun hp => nomatch hp }

theorem Inv.writeEr {s : State} (h : Inv s) (w : ErWrite) : Inv (writeEr w s) := by
  cases w <;> exact { h with memory := h.memory.of_eq rfl rfl rfl }

theorem Inv.hostAct {s t : State} (h : Inv s) (hp : s.phase = .idle) {a : HostAction} (ha : hostAct a s = .next t) :
    Inv t := by
  have hidle : s.phase.inFrames ≠ true := by rw [hp]; exact Bool.false_ne_true
  rcases hostAct_next ha with ⟨x, bs, -, hle, rfl⟩ | ⟨n, -, hle, rfl⟩ | ⟨w, -, rfl⟩ | ⟨_, -, rfl⟩ | ⟨rfl, -⟩ | ⟨-, rfl⟩
  · exact { h with memory := h.memory.writeRx hle }
  · exact
      { h with
        memory := h.memory.of_eq rfl rfl rfl
        rxlen := (BitVec.toNat_ofNat n 16).trans_le ((Nat.mod_le _ _).trans hle)
        frames := fun hf => absurd hf hidle }
  · exact h.writeEr w
  · exact { h with memory := h.memory.of_eq rfl rfl rfl, frames := fun hf => nomatch hf }
  · exact h
  · exact resetSatisfiesTheInvariant _ _ _ h.config

/-- The host's next action is taken from the list. -/
theorem Inv.dropAction {s : State} (h : Inv s) (rest : List HostAction) : Inv { s with inbox := rest } :=
  { h with memory := h.memory.of_eq rfl rfl rfl }

/-- Settles O58: by what a step that answers a next state has done, each operation by its lemma. -/
theorem everyStepKeepsTheInvariant : Obligations.EveryStepKeepsTheInvariant := by
  intro s t h hstep
  obtain ⟨-, ⟨hp, hi⟩ | ⟨r, ⟨-, hr⟩, rfl⟩ | ⟨b, r, hp, hd, rfl⟩ | ⟨b, hp, -, he⟩ | ⟨-, he⟩⟩ := step_next hstep
  · rcases idleStep_next hi with ⟨-, rfl⟩ | ⟨a, rest, -, ha⟩
    · exact h
    · exact (h.dropAction rest).hostAct hp ha
  · exact h.raiseFormat hr
  · exact h.storePacket (by rw [hp]; rfl) hd
  · exact h.execHdr (by rw [hp]; rfl) he
  · exact h.command he

end Sys2Proof.Machine

/-!
The two memories under an instruction, a host action and a step (spec/20_memory.md R30): what `MemoryOk` needs of each
operation that writes one of them is in `MemoryOk.writeRx` and `MemoryOk.writePacket`.
-/

namespace Sys2Proof.Machine

/-- ENCODE raises, which writes no memory, or writes a packet that fits TXBUF. -/
theorem MemoryOk.execEncode {s t : State} (h : MemoryOk s) (hw : s.cfg.wf = true) (he : execEncode s = .next t) :
    MemoryOk t := by
  rcases execEncode_cases s with ⟨-, he'⟩ | ⟨-, r, -, he'⟩ | ⟨-, pkt, hpkt, he'⟩ <;> cases he'.symm.trans he
  · exact h.of_eq rfl rfl rfl
  · exact (h.writePacket (encodeRequest_length hw hpkt).2).of_eq rfl rfl rfl

theorem MemoryOk.exec {s t : State} (h : MemoryOk s) (hw : s.cfg.wf = true) {i : Instr} (he : exec i s = .next t) :
    MemoryOk t := by
  by_cases hi : i = .encode
  · subst hi
    exact h.execEncode hw ((exec_encode s).symm.trans he)
  · exact h.of_sameButOut (exec_sameButOut he hi)

/-- Of the host's actions only a write to RXBUF and a reset touch a memory. -/
theorem MemoryOk.hostAct {s t : State} (h : MemoryOk s) {a : HostAction} (ha : hostAct a s = .next t) : MemoryOk t := by
  rcases hostAct_next ha with ⟨x, bs, -, hle, rfl⟩ | ⟨n, -, -, rfl⟩ | ⟨w, -, rfl⟩ | ⟨_, -, rfl⟩ | ⟨rfl, -⟩ | ⟨-, rfl⟩
  · exact h.writeRx hle
  · exact h.of_eq rfl rfl rfl
  · exact h.of_eq (writeEr_cfg w s) (writeEr_rxbuf w s) (writeEr_txbuf w s)
  · exact h.of_eq rfl rfl rfl
  · exact h
  · exact resetWith_memoryOk _ _ _

theorem MemoryOk.idleStep {s t : State} (h : MemoryOk s) (hi : idleStep s = .next t) : MemoryOk t := by
  rcases idleStep_next hi with ⟨-, rfl⟩ | ⟨a, rest, -, ha⟩
  · exact h
  · exact (h.of_eq (t := { s with inbox := rest }) rfl rfl rfl).hostAct ha

/-- Settles O59: by what a step that answers a next state has done. -/
theorem everyStepKeepsMemoryCanonical : Obligations.EveryStepKeepsMemoryCanonical := by
  intro s t h hstep
  obtain ⟨hw, ⟨-, hi⟩ | ⟨r, -, rfl⟩ | ⟨_, r, -, -, rfl⟩ | ⟨_, -, -, he⟩ | ⟨-, he⟩⟩ := step_next hstep
  · exact h.idleStep hi
  · exact h.of_sameButOut (raiseFormat_sameButOut r s)
  · exact h.of_sameButOut (storePacket_sameButOut r s)
  · exact h.exec hw ((exec_hdr _ _).trans he)
  · exact h.exec hw he

end Sys2Proof.Machine

/-!
DECODE and PARSE are their frame steps (spec/20_memory.md R38, spec/43_commands.md R142, R143): one FRAME_STEP is the header
step and, where the header passes its checks, the packet step; the loop of PARSE is such runs one after the other.
-/

namespace Sys2Proof

/-! ## The header decoder and the frame decoder make the same first checks -/

theorem decodeHdr_ok {cfg : Config} {s : List Byte} {i : Instr} (h : decodeHdr cfg s = .ok i) :
    36 ≤ s.length ∧ i = .hdr (decodeHeader cfg s) := by
  unfold decodeHdr at h
  split at h
  · cases h
  · next hlen =>
    cases h
    exact ⟨Nat.not_lt.1 hlen, rfl⟩

/-- Check 1: what the header step rejects, the frame step rejects alike. -/
theorem decodeFrame_of_decodeHdr_error {cfg : Config} {s : List Byte} {r : FormatReject}
    (h : decodeHdr cfg s = .error r) (single : Bool) : decodeFrame cfg single s = .error r := by
  unfold decodeHdr at h
  split at h
  · next hlen =>
    cases h
    exact if_pos hlen
  · cases h

/-- Checks 2 to 4. -/
theorem decodeFrame_of_lengthCheck_some {cfg : Config} {single : Bool} {s : List Byte} {c : FormatCause}
    (hlen : 36 ≤ s.length) (hc : lengthCheck single s.length (decodeHeader cfg s) = some c) :
    decodeFrame cfg single s = .error ⟨c, 0⟩ := by
  simp [decodeFrame, Nat.not_lt.2 hlen, hc]

namespace Machine

/-! ## One frame step -/

theorem frameStep_error {s : State} {r : FormatReject}
    (hd : decodeFrame s.cfg s.phase.isSingle (rxRest s) = .error r) : frameStep s = raiseFormat r s := by
  simp [frameStep, hd]

/-- After a frame step the command has ended or the next header is due. -/
theorem frameStep_phase (s : State) : (frameStep s).phase = .idle ∨ ∃ b, (frameStep s).phase = .header b := by
  rcases frameStep_cases s with ⟨r, -, he⟩ | ⟨r, -, he⟩ <;> rw [he]
  · exact .inl rfl
  · rw [storePacket_phase]
    split
    · exact .inl rfl
    · exact .inr ⟨false, rfl⟩

/-- A frame step looks at its phase for `single` only. -/
theorem frameStep_toPayload (s : State) : frameStep { s with phase := .payload s.phase.isSingle } = frameStep s := rfl

/-- Where the packet is due, a step is the frame step: it makes every check again. -/
theorem step_payload {s : State} {b : Bool} (hw : s.cfg.wf = true) (hp : s.phase = .payload b) :
    step s = .next (frameStep s) := by
  have hb : s.phase.isSingle = b := by rw [hp]; rfl
  rcases frameStep_cases s with ⟨r, hd, he⟩ | ⟨r, hd, he⟩ <;> rw [hb] at hd <;> rw [he]
  · exact step_payload_error hw hp hd
  · exact step_payload_ok hw hp hd

/-! ## Runs of single steps -/

theorem run_next {M : Host.Core} {s t : M.State} (h : M.step s = .next t) (n : Nat) : M.run (n + 1) s = M.run n t := by
  rw [Host.Core.run, h]

/-- A run that ends in a state begins with a step that answers one. -/
theorem run_succ_eq_next {M : Host.Core} {n : Nat} {s u : M.State} (h : M.run (n + 1) s = .next u) :
    ∃ t, M.step s = .next t ∧ M.run n t = .next u := by
  rw [Host.Core.run] at h
  split at h
  · next t hs => exact ⟨t, hs, h⟩
  · cases h
  · cases h

/-- Some number of single steps leads from `s` to `t`. -/
def Runs (s t : State) : Prop := ∃ n, Sys2Proof.core.run n s = .next t

theorem Runs.refl (s : State) : Runs s s := ⟨0, rfl⟩

/-- A step, then a run. -/
theorem Runs.head {s t u : State} (h : step s = .next t) (g : Runs t u) : Runs s u := by
  obtain ⟨n, hn⟩ := g
  exact ⟨n + 1, (run_next (M := Sys2Proof.core) h n).trans hn⟩

theorem Runs.single {s t : State} (h : step s = .next t) : Runs s t := .head h (.refl t)

theorem Runs.trans {s t u : State} (h : Runs s t) (g : Runs t u) : Runs s u := by
  obtain ⟨n, hn⟩ := h
  induction n generalizing s with
  | zero =>
    cases hn
    exact g
  | succ n ih =>
    obtain ⟨s', hs, hn'⟩ := run_succ_eq_next hn
    exact .head hs (ih hn')

/-- A header is rejected, or fails its checks, or leads to the packet. -/
theorem runs_frameStep {s : State} {b : Bool} (hw : s.cfg.wf = true) (hp : s.phase = .header b) :
    Runs s (frameStep s) := by
  cases hd : decodeHdr s.cfg (rxRest s) with
  | error r =>
    rw [frameStep_error (decodeFrame_of_decodeHdr_error hd _)]
    exact .single (step_header_error hw hp hd)
  | ok i =>
    have hstep := step_header_ok hw hp hd
    obtain ⟨hlen, rfl⟩ := decodeHdr_ok hd
    rw [exec_hdr] at hstep
    rcases execHdr_cases (decodeHeader s.cfg (rxRest s)) s with ⟨c, hc, he⟩ | ⟨-, he⟩
    · rw [← rxRest_length] at hc
      rw [frameStep_error (decodeFrame_of_lengthCheck_some hlen hc)]
      exact .single (hstep.trans he)
    · rw [← frameStep_toPayload]
      exact .head (hstep.trans he) (.single (step_payload hw rfl))

theorem runs_frameLoop (n : Nat) {s : State} (hw : s.cfg.wf = true) (hp : s.phase = .idle ∨ ∃ b, s.phase = .header b) :
    Runs s (frameLoop n s) := by
  induction n generalizing s with
  | zero => exact .refl s
  | succ n ih =>
    rcases hp with hp | ⟨b, hp⟩
    · rw [frameLoop_idle _ hp]
      exact .refl s
    · have hloop : frameLoop (n + 1) s = frameLoop n (frameStep s) := by simp [frameLoop_succ, hp]
      have hw' : (frameStep s).cfg.wf = true := by rwa [(frameStep_sameButOut s).cfg]
      rw [hloop]
      exact (runs_frameStep hw hp).trans (ih hw' (frameStep_phase s))

/-- Settles O56: DECODE is one frame step (`runs_frameStep`), PARSE the loop of them (`runs_frameLoop`). -/
theorem commandsAreTheirFrameSteps : Obligations.CommandsAreTheirFrameSteps := by
  intro s single hw
  cases single with
  | true =>
    obtain ⟨n, hn⟩ := runs_frameStep (s := startFrames true s) hw rfl
    exact ⟨n, _, exec_decode s, hn⟩
  | false =>
    obtain ⟨n, hn⟩ := runs_frameLoop (frameBound s) (s := startFrames false s) hw (.inr ⟨false, rfl⟩)
    exact ⟨n, _, exec_parse s, hn⟩

end Machine

end Sys2Proof

/-!
The wire: what a type declares as its packet lengths (spec/30_encoding.md R58), and that the decoders read back what the
encoder wrote (R53, R67).

`DEC` after `ENC` goes by the descriptor: a descriptor without a `VARR` is read back with anything behind it
(`DecodesBack`), a trailing `VARR` with nothing behind it, since the frame's end gives its number of elements.
-/

namespace Sys2Proof

/-! ## The default registry -/

/-- Settles O3, by evaluation: both clauses speak of the fixed default registry. -/
theorem defaultRegistryNamesIdsAndSizes : Obligations.DefaultRegistryNamesIdsAndSizes := by
  unfold Obligations.DefaultRegistryNamesIdsAndSizes
  constructor <;> decide +kernel

/-! ## The packet lengths a type declares -/

theorem sizesOk_of_tail_none {p : Desc} (hp : p.tail = none) (size : Nat) :
    sizesOk p size = true ↔ size = 36 + p.size := by
  simp [sizesOk, hp]

theorem sizesOk_of_tail_some {p d : Desc} {min max : Nat} (hp : p.tail = some (d, min, max)) (hd : 1 ≤ d.size)
    (size : Nat) : sizesOk p size = true ↔ ∃ m, min ≤ m ∧ m ≤ max ∧ size = 36 + p.size + m * d.size := by
  simp only [sizesOk, hp, Bool.and_eq_true, decide_eq_true_eq, beq_iff_eq]
  constructor
  · rintro ⟨⟨⟨hfixed, hmod⟩, hmin⟩, hmax⟩
    have hmul := Nat.div_mul_cancel (Nat.dvd_of_mod_eq_zero hmod)
    exact ⟨_, hmin, hmax, by omega⟩
  · rintro ⟨m, hmin, hmax, rfl⟩
    have hvar : 36 + p.size + m * d.size - 36 - p.size = m * d.size := by omega
    rw [hvar, Nat.mul_mod_left, Nat.mul_div_cancel _ hd]
    exact ⟨⟨⟨Nat.le_add_right _ _, rfl⟩, hmin⟩, hmax⟩

/-- Settles O24: one lemma for the fixed-size types, one for a trailing `VARR`. -/
theorem declaredSizes : Obligations.DeclaredSizes := fun _ size =>
  ⟨fun hp => sizesOk_of_tail_none hp size, fun _ _ _ hp hd => sizesOk_of_tail_some hp hd size⟩

/-! ## What the frame decoder looks at before it decodes -/

/-- The refusals of a frame, with what each of them looks at. -/
theorem decodeFrame_error_iff {cfg : Config} {single : Bool} {s : List Byte} {r : FormatReject} :
    decodeFrame cfg single s = .error r ↔
      (s.length < 36 ∧ ⟨.short, 0⟩ = r) ∨
      (36 ≤ s.length ∧
        ((∃ c, lengthCheck single s.length (decodeHeader cfg s) = some c ∧ ⟨c, 0⟩ = r) ∨
         (lengthCheck single s.length (decodeHeader cfg s) = none ∧
           ((lookupId cfg.reg (decodeHeader cfg s).msgType = none ∧ ⟨.unknownType, (decodeHeader cfg s).msgType⟩ = r) ∨
            ∃ e, lookupId cfg.reg (decodeHeader cfg s).msgType = some e ∧
              sizesOk e.desc (decodeHeader cfg s).size.toNat = false ∧
              ⟨.length, (decodeHeader cfg s).msgType⟩ = r)))) := by
  by_cases hlen : s.length < 36
  · simp [decodeFrame, hlen, Nat.not_le.2 hlen]
  cases hc : lengthCheck single s.length (decodeHeader cfg s) with
  | some c => simp [decodeFrame, hlen, Nat.not_lt.1 hlen, hc]
  | none =>
    cases he : lookupId cfg.reg (decodeHeader cfg s).msgType with
    | none => simp [decodeFrame, hlen, Nat.not_lt.1 hlen, hc, he]
    | some e =>
      cases hs : sizesOk e.desc (decodeHeader cfg s).size.toNat <;>
        simp [decodeFrame, hlen, Nat.not_lt.1 hlen, hc, he, hs]

theorem lengthCheck_congr {h g : Header} (hsize : h.size = g.size) (single : Bool) (rem : Nat) :
    lengthCheck single rem h = lengthCheck single rem g := by
  simp only [lengthCheck, hsize]

theorem headerField_congr {s t : List Byte} {a n : Nat} (h : ∀ i, i < n → s[a + i]? = t[a + i]?) :
    headerField s a n = headerField t a n := by
  refine congrArg unle (List.ext_getElem? fun i => ?_)
  by_cases hi : i < n
  · simp [List.getElem?_drop, hi, h i hi]
  · simp [hi]

/-- Settles O23: a refusal looks at the length, `size` and `type` alone (`decodeFrame_error_iff`). -/
theorem onlySizeAndTypeAreChecked : Obligations.OnlySizeAndTypeAreChecked := by
  intro cfg single s t hlen hbytes r
  have hsize : (decodeHeader cfg s).size = (decodeHeader cfg t).size :=
    congrArg (BitVec.ofNat 16) (headerField_congr fun i hi => hbytes (0 + i) (by omega))
  have htype : (decodeHeader cfg s).msgType = (decodeHeader cfg t).msgType :=
    congrArg (BitVec.ofNat 16) (headerField_congr fun i hi => hbytes (32 + i) (by omega))
  rw [decodeFrame_error_iff, decodeFrame_error_iff, lengthCheck_congr hsize, hlen, hsize, htype]
  exact id

/-! ## The header is read back -/

theorem headerField_append_of_le {a : List Byte} {k : Nat} (h : a.length ≤ k) (s : List Byte) (n : Nat) :
    headerField (a ++ s) k n = headerField s (k - a.length) n := by
  simp [headerField, List.drop_append, List.drop_eq_nil_of_le h]

theorem headerField_leBytes {n v : Nat} (hv : v < 256 ^ n) (s : List Byte) :
    headerField (leBytes n v ++ s) 0 n = v := by
  rw [headerField, List.drop_zero, take_append_leBytes, unle_leBytes n v hv]

theorem headerWord_lt (h : Header) : headerWord h < 256 ^ 2 := by
  have hp := h.protocol.isLt
  have ha := h.addressable.isLt
  have ht := h.tagged.isLt
  have ho := h.origin.isLt
  unfold headerWord
  omega

/-- Of two flags at different bits, the bit of one reads that flag alone. -/
theorem flag_of_sum {x y a b : Nat} (hx : x < 2) (hy : y < 2) (hab : a ≠ b) :
    (x * 2 ^ a + y * 2 ^ b) / 2 ^ a % 2 = x := by
  rcases Nat.lt_or_gt_of_ne hab with h | h
  · obtain ⟨k, rfl⟩ := Nat.exists_eq_add_of_lt h
    have hsum : x * 2 ^ a + y * 2 ^ (a + k + 1) = 2 ^ a * (x + 2 * (y * 2 ^ k)) := by ring
    rw [hsum, Nat.mul_div_cancel_left _ (Nat.two_pow_pos a)]
    omega
  · have hlow : y * 2 ^ b < 2 ^ a :=
      calc y * 2 ^ b ≤ 1 * 2 ^ b := Nat.mul_le_mul_right _ (by omega)
        _ < 2 ^ a := by rw [Nat.one_mul]; exact Nat.pow_lt_pow_right (by norm_num) h
    rw [Nat.mul_comm, Nat.mul_add_div (Nat.two_pow_pos a), Nat.div_eq_of_lt hlow]
    omega

/-- Two flags at different bits of a byte stay in the byte. -/
theorem flags_lt {x y a b : Nat} (hx : x < 2) (hy : y < 2) (hab : a ≠ b) (ha : a < 8) (hb : b < 8) :
    x * 2 ^ a + y * 2 ^ b < 256 := by
  have hxa : x * 2 ^ a ≤ 1 * 2 ^ a := Nat.mul_le_mul_right _ (by omega)
  have hyb : y * 2 ^ b ≤ 1 * 2 ^ b := Nat.mul_le_mul_right _ (by omega)
  have pow_le : ∀ {m n}, m ≤ n → 2 ^ m ≤ 2 ^ n := fun h => Nat.pow_le_pow_right (by norm_num) h
  rcases Nat.lt_or_gt_of_ne hab with h | h
  · have low := pow_le (m := a) (n := 6) (by omega)
    have high := pow_le (m := b) (n := 7) (by omega)
    omega
  · have low := pow_le (m := b) (n := 6) (by omega)
    have high := pow_le (m := a) (n := 7) (by omega)
    omega

/-! What stands at each field's place in the bytes of a header. `simp` cannot give the general lemma the length of a
target, so the target has a lemma of its own (`headerField_target_append`). -/

theorem headerFlags_lt {cfg : Config} (h : Header) (hbits : cfg.ackBit ≠ cfg.resBit) : headerFlags cfg h < 256 ^ 1 :=
  flags_lt h.ackRequired.isLt h.resRequired.isLt (Fin.val_ne_of_ne hbits) cfg.ackBit.isLt cfg.resBit.isLt

section
variable {cfg : Config} (h : Header) (rest : List Byte)

theorem headerField_target_append {k : Nat} (hk : 6 ≤ k) (m : Mac) (s : List Byte) (n : Nat) :
    headerField (m.bytes ++ s) k n = headerField s (k - 6) n :=
  headerField_append_of_le (a := m.bytes) hk s n

theorem headerField_size : headerField (headerBytes cfg h ++ rest) 0 2 = h.size.toNat := by
  simp [headerBytes, headerField_leBytes (n := 2) h.size.isLt]

theorem headerField_word : headerField (headerBytes cfg h ++ rest) 2 2 = headerWord h := by
  simp [headerBytes, headerField_append_of_le, headerField_leBytes (headerWord_lt h)]

theorem headerField_source : headerField (headerBytes cfg h ++ rest) 4 4 = h.source.toNat := by
  simp [headerBytes, headerField_append_of_le, headerField_leBytes (n := 4) h.source.isLt]

theorem headerField_flags (hbits : cfg.ackBit ≠ cfg.resBit) :
    headerField (headerBytes cfg h ++ rest) 22 1 = headerFlags cfg h := by
  simp [headerBytes, headerField_append_of_le, headerField_target_append, headerField_leBytes (headerFlags_lt h hbits)]

theorem headerField_sequence : headerField (headerBytes cfg h ++ rest) 23 1 = h.sequence.toNat := by
  simp [headerBytes, headerField_append_of_le, headerField_target_append,
    headerField_leBytes (n := 1) h.sequence.isLt]

theorem headerField_msgType : headerField (headerBytes cfg h ++ rest) 32 2 = h.msgType.toNat := by
  simp [headerBytes, headerField_append_of_le, headerField_target_append,
    headerField_leBytes (n := 2) h.msgType.isLt]

theorem Mac.ofBytes_bytes (m : Mac) : Mac.ofBytes (m.bytes ++ rest) = m := rfl

theorem decodeHeader_target : (decodeHeader cfg (headerBytes cfg h ++ rest)).target = h.target := by
  simp [decodeHeader, headerBytes, List.drop_append, List.drop_eq_nil_of_le, Mac.ofBytes_bytes]

end

theorem Header.eq_of_fields {h g : Header} (size : h.size = g.size) (protocol : h.protocol = g.protocol)
    (addressable : h.addressable = g.addressable) (tagged : h.tagged = g.tagged) (origin : h.origin = g.origin)
    (source : h.source = g.source) (target : h.target = g.target) (ackRequired : h.ackRequired = g.ackRequired)
    (resRequired : h.resRequired = g.resRequired) (sequence : h.sequence = g.sequence)
    (msgType : h.msgType = g.msgType) : h = g := by
  cases h
  cases g
  simp_all only

/-- A bit field of the word that a header field was read as. -/
theorem extractLsb'_ofNat_toNat (w v a n : Nat) (hv : v < 2 ^ w) :
    ((BitVec.ofNat w v).extractLsb' a n).toNat = v / 2 ^ a % 2 ^ n := by
  rw [BitVec.extractLsb'_toNat, BitVec.toNat_ofNat, Nat.mod_eq_of_lt hv, Nat.shiftRight_eq_div_pow]

/-- HDR_DEC reads back the header whose bytes stand first (spec/40_header.md R71, R72). -/
theorem decodeHeader_headerBytes {cfg : Config} (hbits : cfg.ackBit ≠ cfg.resBit) (h : Header) (rest : List Byte) :
    decodeHeader cfg (headerBytes cfg h ++ rest) = h := by
  have hp := h.protocol.isLt
  have ha := h.addressable.isLt
  have ht := h.tagged.isLt
  have ho := h.origin.isLt
  have word_bits : ∀ a n, ((BitVec.ofNat 16 (headerWord h)).extractLsb' a n).toNat = headerWord h / 2 ^ a % 2 ^ n :=
    fun a n => extractLsb'_ofNat_toNat 16 _ a n (headerWord_lt h)
  have flag_bits : ∀ a n,
      ((BitVec.ofNat 8 (headerFlags cfg h)).extractLsb' a n).toNat = headerFlags cfg h / 2 ^ a % 2 ^ n :=
    fun a n => extractLsb'_ofNat_toNat 8 _ a n (headerFlags_lt h hbits)
  simp only [decodeHeader, headerField_size, headerField_word, headerField_source, headerField_flags h rest hbits,
    headerField_sequence, headerField_msgType, BitVec.ofNat_toNat, BitVec.setWidth_eq]
  refine Header.eq_of_fields rfl ?protocol ?addressable ?tagged ?origin rfl ?target ?ackRequired ?resRequired rfl rfl
  case target => exact decodeHeader_target h rest
  all_goals refine BitVec.eq_of_toNat_eq ?_
  case ackRequired =>
    exact (flag_bits _ _).trans (flag_of_sum h.ackRequired.isLt h.resRequired.isLt (Fin.val_ne_of_ne hbits))
  case resRequired =>
    rw [flag_bits, headerFlags, Nat.add_comm]
    exact flag_of_sum h.resRequired.isLt h.ackRequired.isLt (Fin.val_ne_of_ne hbits.symm)
  all_goals
    rw [word_bits, headerWord]
    omega

/-! ## DEC after ENC: descriptors without a `VARR` -/

/-- What ENC of the descriptor wrote is read back, whatever follows it. -/
def DecodesBack (cfg : Config) (d : Desc) : Prop :=
  ∀ ⦃v : Value⦄ ⦃off : Nat⦄ ⦃b : List Byte⦄, shape d v = true → enc cfg d v off = .ok b →
    ∀ rest, dec d (b ++ rest) = canon d v

theorem encElems_cons_ok {f : Value → Nat → Except ValidationReject (List Byte)} {size : Nat} {v : Value}
    {vs : Values} {off : Nat} {b : List Byte} (h : encElems f size (.cons v vs) off = .ok b) :
    ∃ b₁ b₂, f v off = .ok b₁ ∧ encElems f size vs (off + size) = .ok b₂ ∧ b = b₁ ++ b₂ := by
  simp only [encElems] at h
  split at h
  · cases h
  · next b₁ hv =>
    split at h
    · cases h
    · next b₂ hvs => cases h; exact ⟨b₁, b₂, hv, hvs, rfl⟩

theorem decElems_encElems {cfg : Config} {d : Desc} (hd : d.noVarr = true) (back : DecodesBack cfg d) {vs : Values}
    {off : Nat} {b : List Byte} (hs : vs.all (shape d) = true) (h : encElems (enc cfg d) d.size vs off = .ok b)
    (rest : List Byte) : decElems (dec d) d.size vs.length (b ++ rest) = vs.map (canon d) := by
  induction vs using Values.ind generalizing off b with
  | nil => rfl
  | cons v vs ih =>
    obtain ⟨hv, hvs⟩ := Values.all_cons.1 hs
    obtain ⟨b₁, b₂, h₁, h₂, rfl⟩ := encElems_cons_ok h
    rw [List.append_assoc, Values.length, decElems, back hv h₁, List.drop_left' (enc_length hd h₁), ih hvs h₂]
    rfl

/-- The first member's value and bytes, with what `encMembers_cons_ok` leaves out: where the value comes from. -/
theorem encMembers_cons_shape {cfg : Config} {m : String} {d : Desc} {ms : Members} {fs : Fields} {off : Nat}
    {b : List Byte} (hs : shapeMembers (.cons m d ms) fs = true) (h : encMembers cfg (.cons m d ms) fs off = .ok b) :
    ∃ v b₁ b₂, (d.isRsv = false → fs.lookup m = some v ∧ shape d v = true) ∧ enc cfg d v off = .ok b₁ ∧
      encMembers cfg ms fs (off + b₁.length) = .ok b₂ ∧ b = b₁ ++ b₂ := by
  have head : ∀ v, (if d.isRsv = true then some (Value.record .nil) else fs.lookup m) = some v →
      d.isRsv = false → fs.lookup m = some v ∧ shape d v = true := by
    intro v hv hr
    obtain ⟨w, hl, hshape⟩ := shapeMembers_iff.1 hs m d (.inl ⟨hr, rfl, rfl⟩)
    obtain rfl : w = v := by simpa [hr, hl] using hv
    exact ⟨hl, hshape⟩
  simp only [encMembers] at h
  split at h
  · cases h
  · next v hv =>
    split at h
    · cases h
    · next b₁ h₁ =>
      split at h
      · cases h
      · next b₂ h₂ => cases h; exact ⟨v, b₁, b₂, head v hv, h₁, h₂, rfl⟩

theorem shapeMembers_tail {m : String} {d : Desc} {ms : Members} {fs : Fields}
    (hs : shapeMembers (.cons m d ms) fs = true) : shapeMembers ms fs = true :=
  ((Bool.and_eq_true ..).mp hs).2

/-- A record is decoded in wire order when its first member and the members behind it are. -/
theorem decMembers_cons_eq_canon {m : String} {d : Desc} {ms : Members} {fs : Fields} {s : List Byte}
    (head : d.isRsv = false → ∃ v, fs.lookup m = some v ∧ dec d s = canon d v)
    (tail : decMembers ms (s.drop d.size) = canonMembers ms fs) :
    decMembers (.cons m d ms) s = canonMembers (.cons m d ms) fs := by
  cases hr : d.isRsv with
  | true => rw [decMembers_cons_rsv hr, canonMembers_cons_rsv hr, tail]
  | false =>
    obtain ⟨v, hl, hv⟩ := head hr
    rw [decMembers_cons hr, canonMembers_cons_some hr hl, hv, tail]

theorem decMembers_encMembers {cfg : Config} {ms : Members} (hms : ms.noVarr = true)
    (back : ∀ n d, ms.Takes n d → DecodesBack cfg d) {fs : Fields} {off : Nat} {b : List Byte}
    (hs : shapeMembers ms fs = true) (h : encMembers cfg ms fs off = .ok b) (rest : List Byte) :
    decMembers ms (b ++ rest) = canonMembers ms fs := by
  induction ms using Members.ind generalizing off b with
  | nil => rfl
  | cons m d ms ih =>
    obtain ⟨hd, hms⟩ := (Bool.and_eq_true ..).mp hms
    obtain ⟨v, b₁, b₂, hv, h₁, h₂, rfl⟩ := encMembers_cons_shape hs h
    rw [List.append_assoc]
    refine decMembers_cons_eq_canon (fun hr => ?head) ?tail
    case head =>
      obtain ⟨hl, hshape⟩ := hv hr
      exact ⟨v, hl, back m d (.inl ⟨hr, rfl, rfl⟩) hshape h₁ _⟩
    case tail =>
      rw [List.drop_left' (enc_length hd h₁)]
      exact ih hms (fun n e he => back n e (.inr he)) (shapeMembers_tail hs) h₂

theorem decodesBack_int {cfg : Config} (hk : cfg.kelvinMax ≤ 65535) (k : Scalar) : DecodesBack cfg (.int k) := by
  intro v off b hs h rest
  cases v with
  | int i => exact congrArg Value.int (decScalar_encScalar hk rest h)
  | _ => cases h

/-- A flat sub-structure, by the `STRUCT` of its table. -/
theorem decLeaves_encLeaves {cfg : Config} (hk : cfg.kelvinMax ≤ 65535) {ls : List (String × Leaf)}
    (hls : (leafMembers ls).noVarr = true) {fs : Fields} {off : Nat} {b : List Byte}
    (hs : (leavesPresent ls fs && fs.length == leavesCount ls) = true) (h : encLeaves cfg ls fs off = .ok b)
    (rest : List Byte) : decLeaves ls (b ++ rest) = canonLeaves ls fs := by
  rw [leavesPresent_eq] at hs
  rw [encLeaves_eq] at h
  rw [decLeaves_eq, canonLeaves_eq]
  refine decMembers_encMembers hls (fun n d hd => ?_) ((Bool.and_eq_true ..).mp hs).1 h rest
  obtain ⟨k, rfl⟩ := leafMembers_takes hd
  exact decodesBack_int hk k

mutual

/-- DEC after ENC for a descriptor without a `VARR` (spec/41_field_codecs.md R102). -/
theorem decodesBack {cfg : Config} (hk : cfg.kelvinMax ≤ 65535) {d : Desc} (hd : d.noVarr = true) :
    DecodesBack cfg d := by
  intro v off b hs h rest
  match d, v with
  | .int k, v => exact decodesBack_int hk k hs h rest
  | .rsv _, .record .nil => rfl
  | .str32, .bytes _ => exact congrArg Value.bytes (decLabel_encLabel rest h)
  | .hsbk, .record _ => exact congrArg Value.record (decLeaves_encLeaves hk (by decide) hs h rest)
  | .tile, .record _ => exact congrArg Value.record (decLeaves_encLeaves hk (by decide) hs h rest)
  | .struct ms, .record fs =>
    obtain ⟨hfields, -⟩ := (Bool.and_eq_true ..).mp hs
    exact congrArg Value.record
      (decMembers_encMembers hd (fun n e he => decodesBack_member hk hd he) hfields h rest)
  | .arr e n, .list vs =>
    simp only [enc] at h
    split at h
    · next hn =>
      have back : DecodesBack cfg e := decodesBack hk hd
      subst hn
      exact congrArg Value.list (decElems_encElems (d := e) hd back hs h rest)
    · cases h

theorem decodesBack_member {cfg : Config} (hk : cfg.kelvinMax ≤ 65535) {ms : Members} (hms : ms.noVarr = true)
    {n : String} {d : Desc} (hd : ms.Takes n d) : DecodesBack cfg d := by
  match ms with
  | .nil => cases hd
  | .cons m e rest =>
    obtain ⟨he, hrest⟩ := (Bool.and_eq_true ..).mp hms
    rcases hd with ⟨-, -, hed⟩ | hd
    · exact hed ▸ decodesBack hk he
    · exact decodesBack_member hk hrest hd

end

/-! ## DEC after ENC: a trailing `VARR` -/

theorem enc_varr_ok {cfg : Config} {d : Desc} {min max off : Nat} {v : Value} {b : List Byte}
    (h : enc cfg (.varr d min max) v off = .ok b) :
    ∃ vs, v = .list vs ∧ min ≤ vs.length ∧ vs.length ≤ max ∧ encElems (enc cfg d) d.size vs off = .ok b := by
  cases v with
  | list vs =>
    simp only [enc] at h
    split at h
    · cases h
    · exact ⟨vs, rfl, by omega, by omega, h⟩
  | _ => cases h

/-- The bytes up to the frame's end give back the number of elements (spec/41_field_codecs.md R98). -/
theorem dec_enc_varr {cfg : Config} (hk : cfg.kelvinMax ≤ 65535) {d : Desc} (hd : d.noVarr = true) (hsize : 1 ≤ d.size)
    {min max off : Nat} {v : Value} {b : List Byte} (hs : shape (.varr d min max) v = true)
    (h : enc cfg (.varr d min max) v off = .ok b) : dec (.varr d min max) b = canon (.varr d min max) v := by
  obtain ⟨vs, rfl, -, -, h⟩ := enc_varr_ok h
  have hcount : b.length / d.size = vs.length := by
    rw [encElems_length (fun v off b hv => enc_length hd hv) h, Nat.mul_div_cancel _ hsize]
  have hvs := decElems_encElems hd (decodesBack hk hd) hs h []
  rw [List.append_nil, ← hcount] at hvs
  exact congrArg Value.list hvs

theorem decMembers_encMembers_varrLast {cfg : Config} (hk : cfg.kelvinMax ≤ 65535) {ms : Members}
    (hms : ms.varrLast = true) {fs : Fields} {off : Nat} {b : List Byte} (hs : shapeMembers ms fs = true)
    (h : encMembers cfg ms fs off = .ok b) : decMembers ms b = canonMembers ms fs := by
  induction ms using Members.ind generalizing off b with
  | nil => rfl
  | cons m d ms ih =>
    obtain ⟨v, b₁, b₂, hv, h₁, h₂, rfl⟩ := encMembers_cons_shape hs h
    rcases Members.varrLast_cons hms with ⟨e, min, max, rfl, rfl, he, hsize⟩ | ⟨hd, hms, -⟩
    · cases h₂
      obtain ⟨hl, hshape⟩ := hv rfl
      rw [List.append_nil]
      exact decMembers_cons_eq_canon (fun _ => ⟨v, hl, dec_enc_varr hk he hsize hshape h₁⟩) rfl
    · refine decMembers_cons_eq_canon (fun hr => ?head) ?tail
      case head =>
        obtain ⟨hl, hshape⟩ := hv hr
        exact ⟨v, hl, decodesBack hk hd hshape h₁ b₂⟩
      case tail =>
        rw [List.drop_left' (enc_length hd h₁)]
        exact ih hms (shapeMembers_tail hs) h₂

/-- DEC after ENC for the payload of a registered type. -/
theorem Entry.dec_enc {cfg : Config} (hk : cfg.kelvinMax ≤ 65535) {e : Entry} (he : e.ok cfg = true) {v : Value}
    {off : Nat} {b : List Byte} (hs : shape e.desc v = true) (h : enc cfg e.desc v off = .ok b) :
    dec e.desc b = canon e.desc v := by
  obtain ⟨ms, hdesc, -, hlast, -⟩ := Entry.ok_spec he
  rw [hdesc] at hs h ⊢
  cases v with
  | record fs =>
    obtain ⟨hfields, -⟩ := (Bool.and_eq_true ..).mp hs
    exact congrArg Value.record (decMembers_encMembers_varrLast hk hlast hfields h)
  | _ => cases h

/-! ## An encoded payload has a declared length -/

theorem encMembers_length_of_tail {cfg : Config} {ms : Members} (hms : ms.varrLast = true) {fs : Fields} {off : Nat}
    {b : List Byte} (h : encMembers cfg ms fs off = .ok b) :
    (ms.tail = none → b.length = ms.size) ∧
      ∀ d min max, ms.tail = some (d, min, max) →
        1 ≤ d.size ∧ ∃ m, min ≤ m ∧ m ≤ max ∧ b.length = ms.size + m * d.size := by
  induction ms using Members.ind generalizing off b with
  | nil => cases h; exact ⟨fun _ => rfl, nofun⟩
  | cons m d ms ih =>
    obtain ⟨v, b₁, b₂, h₁, h₂, rfl⟩ := encMembers_cons_ok h
    rcases Members.varrLast_cons hms with ⟨e, min, max, rfl, rfl, he, hsize⟩ | ⟨hd, hms, htail⟩
    · cases h₂
      obtain ⟨vs, rfl, hmin, hmax, h₁⟩ := enc_varr_ok h₁
      refine ⟨nofun, fun d' min' max' ht => ?_⟩
      cases ht
      have hlen := encElems_length (fun v off b hv => enc_length he hv) h₁
      exact ⟨hsize, _, hmin, hmax, by simp [hlen, Members.size, Desc.size]⟩
    · obtain ⟨fixed, varies⟩ := ih hms h₂
      rw [htail, List.length_append, enc_length hd h₁, Members.size]
      refine ⟨fun ht => by rw [fixed ht], fun e min max ht => ?_⟩
      obtain ⟨hsize, k, hmin, hmax, hlen⟩ := varies e min max ht
      exact ⟨hsize, k, hmin, hmax, by rw [hlen, Nat.add_assoc]⟩

/-- The packet of an encoded payload has a length that its type declares (spec/30_encoding.md R58). -/
theorem Entry.sizesOk_enc {cfg : Config} {e : Entry} (he : e.ok cfg = true) {v : Value} {off : Nat} {b : List Byte}
    (h : enc cfg e.desc v off = .ok b) : sizesOk e.desc (36 + b.length) = true := by
  obtain ⟨ms, hdesc, -, hlast, -⟩ := Entry.ok_spec he
  rw [hdesc] at h ⊢
  cases v with
  | record fs =>
    obtain ⟨fixed, varies⟩ := encMembers_length_of_tail hlast h
    cases ht : ms.tail with
    | none => exact (sizesOk_of_tail_none (p := .struct ms) ht _).2 (congrArg (36 + ·) (fixed ht))
    | some t =>
      obtain ⟨d, min, max⟩ := t
      obtain ⟨hsize, m, hmin, hmax, hlen⟩ := varies d min max ht
      exact (sizesOk_of_tail_some (p := .struct ms) ht hsize _).2
        ⟨m, hmin, hmax, by rw [hlen, Desc.size, Nat.add_assoc]⟩
  | _ => cases h

/-! ## The decoders read back what the encoder wrote -/

/-- What a packet without a problem is. -/
theorem packetProblem_eq_none {cfg : Config} {r : PacketRecord} (h : packetProblem cfg r = none) :
    ∃ e b, lookupName cfg.reg r.name = some e ∧ r.hdr.msgType = e.id ∧ shape e.desc r.payload = true ∧
      enc cfg e.desc r.payload 36 = .ok b ∧ r.hdr.size.toNat = 36 + b.length ∧
      canon e.desc r.payload = r.payload := by
  unfold packetProblem at h
  split at h
  · cases h
  · next e he =>
    split at h
    · cases h
    · split at h
      · cases h
      · next htype hshape =>
        split at h
        · cases h
        · next b hb =>
          split at h
          · cases h
          · split at h
            · cases h
            · next hsize horder =>
              exact ⟨e, b, he, not_not.1 htype, by simpa using hshape, hb, not_not.1 hsize, not_not.1 horder⟩

/-- The six checks of the frame step pass (spec/43_commands.md R143), and the frame is what they say. -/
theorem decodeFrame_of_checks {cfg : Config} {single : Bool} {s : List Byte} {e : Entry} {h : Header}
    (hh : decodeHeader cfg s = h) (hlen : s.length = h.size.toNat) (he : lookupId cfg.reg h.msgType = some e)
    (hsize : sizesOk e.desc h.size.toNat = true) :
    decodeFrame cfg single s = .ok ⟨h, e.name, dec e.desc (s.drop 36)⟩ := by
  have hmin : 36 ≤ h.size.toNat := Machine.sizesOk_le hsize
  have hcheck : lengthCheck single s.length h = none := by simp [lengthCheck, hlen, hmin]
  have htake : s.take h.size.toNat = s := by rw [← hlen, List.take_length]
  have hshort : ¬ s.length < 36 := by omega
  simp [decodeFrame, hshort, hh, hcheck, he, hsize, htake]

theorem packetBytes_of_enc {cfg : Config} {r : PacketRecord} {e : Entry} {b : List Byte}
    (he : lookupName cfg.reg r.name = some e) (hb : enc cfg e.desc r.payload 36 = .ok b) :
    packetBytes cfg r = headerBytes cfg r.hdr ++ b := by
  simp only [packetBytes, he, hb]

theorem encode_of_packet {i : Instr} {r : PacketRecord} (h : i.packet = some r) (cfg : Config) :
    encode cfg i = packetBytes cfg r := by
  cases i <;> cases h <;> rfl

/-- A packet without a problem is read back from its bytes. -/
theorem decodeFrame_packetBytes {cfg : Config} (hw : cfg.wf = true) {r : PacketRecord}
    (hr : packetProblem cfg r = none) (single : Bool) : decodeFrame cfg single (packetBytes cfg r) = .ok r := by
  obtain ⟨hbits, -, hk, -, -, -, hreg, hkeys⟩ := Config.wf_spec hw
  obtain ⟨e, b, hname, htype, hshape, hb, hsize, horder⟩ := packetProblem_eq_none hr
  obtain ⟨hmem, hentry⟩ := lookupName_some hname
  have hid : lookupId cfg.reg r.hdr.msgType = some e := htype ▸ lookupId_of_mem hkeys hmem
  have hok : sizesOk e.desc r.hdr.size.toNat = true := hsize ▸ Entry.sizesOk_enc (hreg e hmem) hb
  have hlen : (headerBytes cfg r.hdr ++ b).length = r.hdr.size.toNat := by simp [hsize]
  rw [packetBytes_of_enc hname hb, decodeFrame_of_checks (decodeHeader_headerBytes hbits r.hdr b) hlen hid hok,
    List.drop_left' (headerBytes_length cfg r.hdr), Entry.dec_enc hk (hreg e hmem) hshape hb, horder, hentry]

theorem decodeHdr_headerBytes {cfg : Config} (hbits : cfg.ackBit ≠ cfg.resBit) (h : Header) (rest : List Byte) :
    decodeHdr cfg (headerBytes cfg h ++ rest) = .ok (.hdr h) := by
  simp [decodeHdr, decodeHeader_headerBytes hbits]

/-- The command decoder looks at the two low bits alone (spec/10_state.md R19). -/
theorem decodeCommand_add_mul_four (w upper : Nat) : decodeCommand (w + 4 * upper) = decodeCommand w := by
  simp only [decodeCommand, Nat.add_mul_mod_self_left]

theorem decodeCommand_encode_byte {i : Instr} (hi : i ∈ [Instr.nop, .encode, .decode, .parse]) (cfg : Config) :
    decodeCommand (unle (encode cfg i)) = i := by
  simp only [List.mem_cons, List.not_mem_nil, or_false] at hi
  rcases hi with rfl | rfl | rfl | rfl <;> rfl

/-- Settles O25: one lemma for each of the three decoders. -/
theorem decodeReadsEncodedInstructions : Obligations.DecodeReadsEncodedInstructions := by
  intro cfg i hw hi
  refine ⟨fun r hr single => ?packet, fun h hh rest => ?header, fun hc upper => ?command⟩
  case packet =>
    have hproblem : packetProblem cfg r = none := by simpa [Instr.wellFormed, Instr.problem, hr] using hi
    exact ⟨encode_of_packet hr cfg ▸ decodeFrame_packetBytes hw hproblem single, ofPacket_packet hr⟩
  case header =>
    obtain ⟨hbits, -⟩ := Config.wf_spec hw
    exact hh ▸ decodeHdr_headerBytes hbits h rest
  case command => rw [decodeCommand_add_mul_four, decodeCommand_encode_byte hc]

end Sys2Proof

/-!
The header (spec/40_header.md): the bytes and bits that HDR_DEC reads (R72), the operands' check HDR_CHECK (R70), and the bytes
that HDR_BUILD writes from checked operands (R71, R73).

The header holds its operands as bit vectors. A checked operand is in its field's range, so it is the number that the field
holds (`requestHeader_tagged` and the lemmas after it), and what is known of the bytes of any header speaks of the operands.
-/

namespace Sys2Proof

/-! ## The bytes and bits of each field -/

theorem Mac.bytes_ofBytes {s : List Byte} (h : 6 ≤ s.length) : (Mac.ofBytes s).bytes = s.take 6 := by
  match s, h with
  | _ :: _ :: _ :: _ :: _ :: _ :: _, _ => rfl

theorem headerField_lt (s : List Byte) (a n : Nat) : headerField s a n < 256 ^ n :=
  Nat.lt_of_lt_of_le (unle_lt _) (Nat.pow_le_pow_right (by norm_num) (List.length_take_le _ _))

/-- A field of whole bytes holds their number. -/
theorem toNat_ofNat_headerField (s : List Byte) (a n : Nat) :
    (BitVec.ofNat (8 * n) (headerField s a n)).toNat = headerField s a n := by
  rw [BitVec.toNat_ofNat, Nat.pow_mul]
  exact Nat.mod_eq_of_lt (headerField_lt s a n)

/-- A field of `k` bits from bit `i` of a group of bytes. -/
theorem toNat_extractLsb'_headerField (s : List Byte) (a n i k : Nat) :
    ((BitVec.ofNat (8 * n) (headerField s a n)).extractLsb' i k).toNat = headerField s a n / 2 ^ i % 2 ^ k :=
  extractLsb'_ofNat_toNat _ _ i k (by rw [Nat.pow_mul]; exact headerField_lt s a n)

/-- The three runs of reserved bytes between the fields. -/
theorem headerBytes_reserved (cfg : Config) (h : Header) :
    ((headerBytes cfg h).drop 14).take 8 = zeros 8 ∧ ((headerBytes cfg h).drop 24).take 8 = zeros 8 ∧
      ((headerBytes cfg h).drop 34).take 2 = zeros 2 := by
  simp [headerBytes, List.drop_append, List.take_append, List.drop_eq_nil_of_le, zeros]

theorem getElem?_of_run_of_zeros {s : List Byte} {a n i : Nat} (h : (s.drop a).take n = zeros n) (ha : a ≤ i)
    (hi : i < a + n) : s[i]? = some 0 := by
  have hrun : ((s.drop a).take n)[i - a]? = some 0 := by
    rw [h, zeros, List.getElem?_replicate_of_lt (by omega)]
  rwa [List.getElem?_take_of_lt (by omega), List.getElem?_drop, Nat.add_sub_cancel' ha] at hrun

/-- Byte 22 is the flag byte. -/
theorem headerBytes_flags (cfg : Config) (h : Header) :
    (headerBytes cfg h)[22]? = some (BitVec.ofNat 8 (headerFlags cfg h)) := rfl

theorem testBit_of_lt_two {x k : Nat} (hx : x < 2) (hk : k ≠ 0) : x.testBit k = false :=
  Nat.testBit_lt_two_pow (Nat.lt_of_lt_of_le hx (Nat.le_self_pow hk 2))

/-- A flag sets its own bit alone. -/
theorem testBit_flag {x a j : Nat} (hx : x < 2) (hj : j ≠ a) : (x * 2 ^ a).testBit j = false := by
  rw [Nat.testBit_mul_two_pow]
  by_cases hle : a ≤ j
  · rw [testBit_of_lt_two hx (by omega), Bool.and_false]
  · rw [decide_eq_false hle, Bool.false_and]

/-- Two flags at different bits set no other bit. -/
theorem testBit_flags {x y a b j : Nat} (hx : x < 2) (hy : y < 2) (hab : a ≠ b) (ha : j ≠ a) (hb : j ≠ b) :
    (x * 2 ^ a + y * 2 ^ b).testBit j = false := by
  wlog h : a < b generalizing x y a b
  · rw [Nat.add_comm]
    exact this hy hx hab.symm hb ha (by omega)
  have hlow : x * 2 ^ a < 2 ^ b :=
    calc x * 2 ^ a ≤ 1 * 2 ^ a := Nat.mul_le_mul_right _ (by omega)
      _ < 2 ^ b := by rw [Nat.one_mul]; exact Nat.pow_lt_pow_right (by norm_num) h
  rw [Nat.add_comm, Nat.mul_comm y, Nat.testBit_two_pow_mul_add _ hlow]
  split
  · exact testBit_flag hx ha
  · exact testBit_of_lt_two hy (by omega)

/-- Settles O21: each field is a group of bytes or bits of one (`toNat_extractLsb'_headerField`). A reserved byte lies in
one of three runs of zeros (`headerBytes_reserved`), and the flag byte holds the two flags alone (`testBit_flags`). -/
theorem headerFieldsComeFromTheirBitsAlone : Obligations.HeaderFieldsComeFromTheirBitsAlone := by
  intro cfg hbits
  refine ⟨fun s hs => ⟨?size, ?protocol, ?addressable, ?tagged, ?origin, ?source, ?target, ?ack, ?res, ?sequence, ?type⟩,
    fun h i hi => ?reserved, fun h j ha hr => ?flags⟩
  case size => exact toNat_ofNat_headerField s 0 2
  case protocol => exact (toNat_extractLsb'_headerField s 2 2 0 12).trans (by rw [Nat.pow_zero, Nat.div_one]; rfl)
  case addressable => exact toNat_extractLsb'_headerField s 2 2 12 1
  case tagged => exact toNat_extractLsb'_headerField s 2 2 13 1
  case origin =>
    have hw := headerField_lt s 2 2
    exact (toNat_extractLsb'_headerField s 2 2 14 2).trans (Nat.mod_eq_of_lt (by omega))
  case source => exact toNat_ofNat_headerField s 4 4
  case target => exact Mac.bytes_ofBytes (by rw [List.length_drop]; omega)
  case ack => exact toNat_extractLsb'_headerField s 22 1 _ 1
  case res => exact toNat_extractLsb'_headerField s 22 1 _ 1
  case sequence => exact toNat_ofNat_headerField s 23 1
  case type => exact toNat_ofNat_headerField s 32 2
  case reserved =>
    obtain ⟨before_flags, before_type, after_type⟩ := headerBytes_reserved cfg h
    have hruns : (14 ≤ i ∧ i < 14 + 8) ∨ (24 ≤ i ∧ i < 24 + 8) ∨ (34 ≤ i ∧ i < 34 + 2) := by
      simp only [List.mem_cons, List.not_mem_nil, or_false] at hi
      omega
    rcases hruns with ⟨hge, hlt⟩ | ⟨hge, hlt⟩ | ⟨hge, hlt⟩
    · exact getElem?_of_run_of_zeros before_flags hge hlt
    · exact getElem?_of_run_of_zeros before_type hge hlt
    · exact getElem?_of_run_of_zeros after_type hge hlt
  case flags =>
    refine ⟨_, headerBytes_flags cfg h, ?_⟩
    rw [BitVec.getLsbD_ofNat, headerFlags, testBit_flags h.ackRequired.isLt h.resRequired.isLt (Fin.val_ne_of_ne hbits)
      (Fin.val_ne_of_ne ha) (Fin.val_ne_of_ne hr), Bool.and_false]

/-! ## The words of the spec's examples -/

/-- Settles O48, by evaluation: the words are fixed. -/
theorem specExampleWordsDecode : Obligations.SpecExampleWordsDecode := by
  unfold Obligations.SpecExampleWordsDecode
  decide +kernel

namespace Machine

/-! ## HDR_CHECK -/

/-- HDR_CHECK by what each operand must be: the first that is not so decides. -/
theorem hdrCheck_eq (er : EncodeRequest) : hdrCheck er =
    if er.tagged = 0 ∨ er.tagged = 1 then
      if 0 ≤ er.source ∧ er.source ≤ 2 ^ 32 - 1 then
        if er.ackRequired = 0 ∨ er.ackRequired = 1 then
          if er.resRequired = 0 ∨ er.resRequired = 1 then
            if 0 ≤ er.sequence ∧ er.sequence ≤ 255 then none else some ⟨.range, 23⟩
          else some ⟨.range, 22⟩
        else some ⟨.range, 22⟩
      else some ⟨.range, 4⟩
    else some ⟨.range, 2⟩ := by
  simp only [hdrCheck, ne_eq, ← not_or, ← Int.not_le, ← not_and_or, ite_not]

/-- Settles O18: each clause is one path through the checks (`hdrCheck_eq`). -/
theorem headerOperandsAreCheckedInWireOrder : Obligations.HeaderOperandsAreCheckedInWireOrder := by
  intro er
  rw [hdrCheck_eq]
  refine ⟨fun ht => if_neg ht, fun ht hs => ?source, fun ht hs ha => ?ack, fun ht hs ha hr => ?res,
    fun ht hs ha hr hq => ?sequence, fun ht hs ha hr hq => ?pass⟩
  case source => rw [if_pos ht, if_neg hs]
  case ack => rw [if_pos ht, if_pos hs, if_neg ha]
  case res => rw [if_pos ht, if_pos hs, if_pos ha, if_neg hr]
  case sequence => rw [if_pos ht, if_pos hs, if_pos ha, if_pos hr, if_neg hq]
  case pass => rw [if_pos ht, if_pos hs, if_pos ha, if_pos hr, if_pos hq]

/-- Every header operand fits its field (spec/40_header.md R70); `hdrCheck_eq_none` says that HDR_CHECK decides it. -/
structure EncodeRequest.HeaderInRange (er : EncodeRequest) : Prop where
  tagged : 0 ≤ er.tagged ∧ er.tagged < 2 ^ 1
  source : 0 ≤ er.source ∧ er.source < 2 ^ 32
  ackRequired : 0 ≤ er.ackRequired ∧ er.ackRequired < 2 ^ 1
  resRequired : 0 ≤ er.resRequired ∧ er.resRequired < 2 ^ 1
  sequence : 0 ≤ er.sequence ∧ er.sequence < 2 ^ 8

theorem hdrCheck_eq_none {er : EncodeRequest} : hdrCheck er = none ↔ er.HeaderInRange := by
  rw [hdrCheck_eq]
  constructor
  · intro h
    split_ifs at h
    constructor <;> omega
  · rintro ⟨ht, hs, ha, hr, hq⟩
    rw [if_pos (by omega), if_pos (by omega), if_pos (by omega), if_pos (by omega), if_pos (by omega)]

/-! ## The header that HDR_BUILD writes -/

/-- A number in the range of a field is what the field holds. -/
theorem toNat_ofInt_of_inRange {w : Nat} {v : Int} (h : 0 ≤ v ∧ v < 2 ^ w) : (BitVec.ofInt w v).toNat = v.toNat := by
  have hv : v % ((2 ^ w : Nat) : Int) = v := Int.emod_eq_of_lt h.1 (by exact_mod_cast h.2)
  rw [BitVec.toNat_ofInt, hv]

section
variable {cfg : Config} {er : EncodeRequest} {tid : Half} {plen : Nat}

theorem requestHeader_size (h : 36 + plen ≤ 65535) : (requestHeader cfg er tid plen).size.toNat = 36 + plen :=
  Nat.mod_eq_of_lt (by omega)

theorem requestHeader_tagged (h : er.HeaderInRange) : (requestHeader cfg er tid plen).tagged.toNat = er.tagged.toNat :=
  toNat_ofInt_of_inRange h.tagged

theorem requestHeader_source (h : er.HeaderInRange) : (requestHeader cfg er tid plen).source.toNat = er.source.toNat :=
  toNat_ofInt_of_inRange h.source

theorem requestHeader_ackRequired (h : er.HeaderInRange) :
    (requestHeader cfg er tid plen).ackRequired.toNat = er.ackRequired.toNat :=
  toNat_ofInt_of_inRange h.ackRequired

theorem requestHeader_resRequired (h : er.HeaderInRange) :
    (requestHeader cfg er tid plen).resRequired.toNat = er.resRequired.toNat :=
  toNat_ofInt_of_inRange h.resRequired

theorem requestHeader_sequence (h : er.HeaderInRange) :
    (requestHeader cfg er tid plen).sequence.toNat = er.sequence.toNat :=
  toNat_ofInt_of_inRange h.sequence

theorem requestHeader_target (h : (er.target.getD (zeros 6)).length = 6) :
    (requestHeader cfg er tid plen).target.bytes = er.target.getD (zeros 6) := by
  rw [requestHeader, Mac.bytes_ofBytes (Nat.le_of_eq h.symm), List.take_of_length_le (Nat.le_of_eq h)]

end

/-- Settles O19: the fields of the header that is written are the operands; the parameters and the type id stand in it as
they are. -/
theorem headerBuildWritesTheSpecifiedBytes : Obligations.HeaderBuildWritesTheSpecifiedBytes := by
  intro cfg er tid plen t hcheck hplen hlen htarget
  have hr := hdrCheck_eq_none.1 hcheck
  have ht : er.target.getD (zeros 6) = t := by
    rcases htarget with ⟨hnone, rfl⟩ | hsome
    · rw [hnone, Option.getD_none]
    · rw [hsome, Option.getD_some]
  simp only [headerBytes, headerWord, headerFlags, requestHeader_size hplen, requestHeader_tagged hr,
    requestHeader_source hr, requestHeader_ackRequired hr, requestHeader_resRequired hr, requestHeader_sequence hr,
    requestHeader_target (ht ▸ hlen), ht]
  rfl

/-- Settles O20: HDR_DEC returns the header whose bytes were written (`decodeHeader_headerBytes`), and its fields are the
operands. -/
theorem headerRoundTrip : Obligations.HeaderRoundTrip := by
  intro cfg er tid plen rest hbits hcheck hplen htarget
  have hr := hdrCheck_eq_none.1 hcheck
  have ht : (er.target.getD (zeros 6)).length = 6 := by
    cases hsome : er.target with
    | none => rfl
    | some t => exact htarget t hsome
  have as_int : ∀ {n : Nat} {v : Int}, 0 ≤ v → n = v.toNat → (n : Int) = v := fun hv hn => hn ▸ Int.toNat_of_nonneg hv
  rw [decodeHeader_headerBytes hbits]
  exact ⟨requestHeader_size hplen, rfl, rfl, as_int hr.tagged.1 (requestHeader_tagged hr), rfl,
    as_int hr.source.1 (requestHeader_source hr), requestHeader_target ht,
    as_int hr.ackRequired.1 (requestHeader_ackRequired hr), as_int hr.resRequired.1 (requestHeader_resRequired hr),
    as_int hr.sequence.1 (requestHeader_sequence hr), rfl⟩

end Machine

end Sys2Proof

/-!
Payloads (spec/41_field_codecs.md R101, R102): DEC reads back what ENC wrote, and gives a value that ENC takes.

The first is `decodesBack` and its companions for a trailing `VARR`. The second goes by the descriptor: each integer that DEC
reads is in the width of its codec (`encodable_dec_int`), and a `STRUCT` finds every member that takes a value in the decoded record.
-/

namespace Sys2Proof

open Machine

/-! ## DEC after ENC -/

/-- Settles O16: by `decodesBack`, by induction on the descriptor, where no `VARR` stands in it; by the count that the bytes up
to the end give, where one ends the payload. -/
theorem payloadRoundTrip : Obligations.PayloadRoundTrip := by
  intro cfg d v off s hk hs h
  refine ⟨fun hd rest => decodesBack hk hd hs h rest, ?varr, ?struct⟩
  case varr =>
    rintro e min max rfl he hsize
    exact dec_enc_varr hk he hsize hs h
  case struct =>
    rintro ms rfl hms
    cases v with
    | record fs =>
      obtain ⟨hfields, -⟩ := (Bool.and_eq_true ..).mp hs
      exact congrArg Value.record (decMembers_encMembers_varrLast hk hms hfields h)
    | _ => cases hs

/-! ## ENC after DEC -/

/-- ENC accepts the value at every offset, if kelvin may be any 16-bit value. -/
def Encodable (cfg : Config) (d : Desc) (v : Value) : Prop := ∀ off, ∃ b, enc (anyKelvin cfg) d v off = .ok b

theorem unle_take_lt (n : Nat) (s : List Byte) : unle (s.take n) < 2 ^ (8 * n) := by
  have hbound : (256 : Nat) ^ (s.take n).length ≤ 256 ^ n := Nat.pow_le_pow_right (by norm_num) (List.length_take_le n s)
  rw [Nat.pow_mul]
  exact (unle_lt _).trans_le hbound

theorem encUnsigned_unle_take (n off : Nat) (s : List Byte) :
    encUnsigned n (unle (s.take n) : Nat) off = .ok (leBytes n (unle (s.take n))) := by
  have hlt := unle_take_lt n s
  rw [encUnsigned, if_neg (by omega), Int.toNat_natCast]

/-- The integer that DEC reads is in the width of its codec. -/
theorem encodable_dec_int (cfg : Config) (k : Scalar) (s : List Byte) : Encodable cfg (.int k) (dec (.int k) s) := by
  intro off
  cases k
  case i16 =>
    obtain ⟨hlo, hhi⟩ := sext_16_range _ (unle_take_lt 2 s)
    exact ⟨_, if_neg (not_or.2 ⟨not_lt.2 hlo, not_lt.2 hhi⟩)⟩
  case kelvin =>
    have hhi : unle (s.take 2) ≤ 65535 := Nat.lt_succ_iff.1 (unle_take_lt 2 s)
    exact ⟨_, if_neg (not_or.2 ⟨not_lt.2 (Int.natCast_nonneg _), not_lt.2 (Int.ofNat_le.2 hhi)⟩)⟩
  all_goals exact ⟨_, encUnsigned_unle_take _ off s⟩

theorem encodable_dec_str32 (cfg : Config) (s : List Byte) : Encodable cfg .str32 (dec .str32 s) := by
  intro off
  obtain ⟨hlen, hnul⟩ := decLabel_spec s
  have h : encLabel (decLabel s) off = .ok (decLabel s ++ zeros (32 - (decLabel s).length)) := by
    rw [encLabel, if_neg (by omega), hnul, if_neg Bool.false_ne_true]
  exact ⟨_, h⟩

/-- ENC accepts a record when it has every member that takes a value and ENC accepts each of them. -/
theorem encMembers_ok_of_lookup {cfg : Config} {ms : Members} {fs : Fields}
    (h : ∀ n d, ms.Takes n d → ∃ v, fs.lookup n = some v ∧ Encodable cfg d v) (off : Nat) :
    ∃ b, encMembers (anyKelvin cfg) ms fs off = .ok b := by
  induction ms using Members.ind generalizing off with
  | nil => exact ⟨[], rfl⟩
  | cons m d rest ih =>
    have hrest := ih fun n e he => h n e (.inr he)
    have hhead : ∃ v, (if d.isRsv then some (.record .nil) else fs.lookup m) = some v ∧ Encodable cfg d v := by
      cases hr : d.isRsv with
      | false => simpa using h m d (.inl ⟨hr, rfl, rfl⟩)
      | true =>
        cases d with
        | rsv n => exact ⟨_, rfl, fun _ => ⟨zeros n, rfl⟩⟩
        | _ => cases hr
    obtain ⟨v, hv, hd⟩ := hhead
    obtain ⟨b₁, h₁⟩ := hd off
    obtain ⟨b₂, h₂⟩ := hrest (off + b₁.length)
    exact ⟨b₁ ++ b₂, by simp only [encMembers, hv, h₁, h₂]⟩

/-- A `STRUCT`, when the claim holds of the members' descriptors. -/
theorem encMembers_decMembers_ok {cfg : Config} {ms : Members} (hn : ms.namesOk = true)
    (hms : ∀ n d, ms.Takes n d → ∀ s, Encodable cfg d (dec d s)) (s : List Byte) (off : Nat) :
    ∃ b, encMembers (anyKelvin cfg) ms (decMembers ms s) off = .ok b := by
  refine encMembers_ok_of_lookup (fun n d hd => ?_) off
  obtain ⟨s', hs'⟩ := decMembers_lookup hn hd s
  exact ⟨dec d s', hs', hms n d hd s'⟩

/-- A flat sub-structure, by the `STRUCT` of its table. -/
theorem encLeaves_decLeaves_ok (cfg : Config) {ls : List (String × Leaf)} (hn : (leafMembers ls).namesOk = true)
    (s : List Byte) (off : Nat) : ∃ b, encLeaves (anyKelvin cfg) ls (decLeaves ls s) off = .ok b := by
  rw [encLeaves_eq, decLeaves_eq]
  refine encMembers_decMembers_ok hn (fun n d hd s => ?_) s off
  obtain ⟨k, rfl⟩ := leafMembers_takes hd
  exact encodable_dec_int cfg k s

@[simp] theorem decElems_length (f : List Byte → Value) (size n : Nat) (s : List Byte) :
    (decElems f size n s).length = n := by
  induction n generalizing s with
  | zero => rfl
  | succ n ih => exact congrArg (· + 1) (ih _)

theorem encElems_decElems_ok {f : Value → Nat → Except ValidationReject (List Byte)} {g : List Byte → Value}
    (hf : ∀ s off, ∃ b, f (g s) off = .ok b) (size n : Nat) (s : List Byte) (off : Nat) :
    ∃ b, encElems f size (decElems g size n s) off = .ok b := by
  induction n generalizing s off with
  | zero => exact ⟨[], rfl⟩
  | succ n ih =>
    obtain ⟨b₁, h₁⟩ := hf s off
    obtain ⟨b₂, h₂⟩ := ih (s.drop size) (off + size)
    exact ⟨b₁ ++ b₂, by simp only [decElems, encElems, h₁, h₂]⟩

mutual

/-- ENC accepts what DEC gives, whatever the bytes (spec/41_field_codecs.md R101). -/
theorem encodable_dec (cfg : Config) {d : Desc} (hv : d.noVarr = true) (hn : d.namesOk = true) (s : List Byte) :
    Encodable cfg d (dec d s) := by
  match d with
  | .int k => exact encodable_dec_int cfg k s
  | .rsv n => exact fun _ => ⟨zeros n, rfl⟩
  | .str32 => exact encodable_dec_str32 cfg s
  | .hsbk => exact encLeaves_decLeaves_ok cfg (ls := hsbkLeaves) (by decide) s
  | .tile => exact encLeaves_decLeaves_ok cfg (ls := tileLeaves) (by decide) s
  | .struct ms => exact encMembers_decMembers_ok hn (fun n d hd s => encodable_dec_member cfg hv hn hd s) s
  | .arr d n =>
    intro off
    obtain ⟨b, hb⟩ := encElems_decElems_ok (fun s => encodable_dec cfg (d := d) hv hn s) d.size n s off
    exact ⟨b, by rw [dec, enc, if_pos (decElems_length ..), hb]⟩

theorem encodable_dec_member (cfg : Config) {ms : Members} (hv : ms.noVarr = true) (hn : ms.namesOk = true) {n : String}
    {d : Desc} (hd : ms.Takes n d) (s : List Byte) : Encodable cfg d (dec d s) := by
  match ms with
  | .nil => cases hd
  | .cons m e rest =>
    obtain ⟨he, hrest⟩ := (Bool.and_eq_true ..).mp hv
    obtain ⟨-, hne, hnrest⟩ := Members.namesOk_cons.1 hn
    rcases hd with ⟨-, -, hed⟩ | hd
    · exact hed ▸ encodable_dec cfg he hne s
    · exact encodable_dec_member cfg hrest hnrest hd s

end

/-- Settles O15: the shape by `shape_dec`, the widths by `encodable_dec`. Both hold of every byte sequence: past its end DEC
reads fewer bytes, so a smaller number. -/
theorem decodedPayloadHasShapeAndWidths : Obligations.DecodedPayloadHasShapeAndWidths := by
  intro cfg d s off hv hn _
  exact ⟨shape_dec hn s, encodable_dec cfg hv hn s off⟩

end Sys2Proof

/-!
The integer codecs, labels and arrays (spec/41_field_codecs.md R85 to R90, R92, R97, R98, R100): what ENC answers for each
value, and what DEC gives for each sequence of bytes.
-/

namespace Sys2Proof

/-! ## Integers -/

theorem leBytes_getElem? {n i : Nat} (hi : i < n) (v : Nat) :
    (leBytes n v)[i]? = some (BitVec.ofNat 8 (v / 256 ^ i)) := by
  induction n generalizing v i with
  | zero => cases hi
  | succ n ih =>
    cases i with
    | zero => simp [leBytes]
    | succ i =>
      rw [leBytes, List.getElem?_cons_succ, ih (Nat.lt_of_succ_lt_succ hi), Nat.div_div_eq_div_mul, pow_succ']

/-- Settles O8: the bytes by position (`leBytes_getElem?`), and the inverses `unle_leBytes`, `leBytes_unle`, `sext_twos_16`. -/
theorem integerByteLaws : Obligations.IntegerByteLaws :=
  ⟨fun n v hv => ⟨unle_leBytes n v hv, leBytes_length n v, fun _ hi => leBytes_getElem? hi v⟩, leBytes_unle, sext_twos_16⟩

/-- The integer codec writes each integer of `lo .. hi` as `n` bytes and reads it back, rejects any other by its range, and
reads any bytes as an unsigned integer, or a signed one of 16 bits where `lo` is negative. -/
def Scalar.IsCodec (k : Scalar) (lo hi : Int) (n : Nat) : Prop :=
  ∀ (cfg : Config) (v : Int) (off : Nat) (rest : List Byte),
    (lo ≤ v ∧ v ≤ hi →
      enc cfg (.int k) (.int v) off = .ok (leBytes n (twos (8 * n) v)) ∧
        dec (.int k) (leBytes n (twos (8 * n) v) ++ rest) = .int v) ∧
    (¬(lo ≤ v ∧ v ≤ hi) → enc cfg (.int k) (.int v) off = .error ⟨.range, off⟩) ∧
    dec (.int k) rest = .int (if lo < 0 then sext 16 (unle (rest.take n)) else unle (rest.take n))

theorem twos_of_nonneg {n : Nat} {v : Int} (h0 : 0 ≤ v) (h : v < (2 ^ n : Nat)) : twos n v = v.toNat := by
  rw [twos, Int.emod_eq_of_lt h0 h]

/-- A codec whose ENC and DEC are those of an unsigned integer of `n` bytes. -/
theorem Scalar.isCodec_unsigned {k : Scalar} {n : Nat} {hi : Int} (hhi : hi + 1 = (2 ^ (8 * n) : Nat))
    (henc : ∀ cfg v off, encScalar cfg k v off = encUnsigned n v off)
    (hdec : ∀ s, decScalar k s = (unle (s.take n) : Nat)) : k.IsCodec 0 hi n := by
  intro cfg v off rest
  refine ⟨fun hv => ?inside, fun hv => ?outside, ?any⟩
  case inside =>
    have hlt : v.toNat < 256 ^ n := by
      have : (256 : Nat) ^ n = 2 ^ (8 * n) := by rw [Nat.pow_mul]
      omega
    rw [twos_of_nonneg hv.1 (by omega)]
    constructor
    · rw [enc, henc, encUnsigned, if_neg (by omega)]
    · rw [dec, hdec, take_append_leBytes, unle_leBytes _ _ hlt, Int.toNat_of_nonneg hv.1]
  case outside => rw [enc, henc, encUnsigned, if_pos (by omega)]
  case any => rw [dec, hdec, if_neg (lt_irrefl 0)]

theorem Scalar.isCodec_i16 : Scalar.i16.IsCodec (-32768) 32767 2 := by
  intro cfg v off rest
  refine ⟨fun hv => ?inside, fun hv => ?outside, rfl⟩
  case inside =>
    have hlt : twos 16 v < 256 ^ 2 := twos_lt 16 v
    constructor
    · rw [enc, encScalar, encI16, if_neg (by omega)]
    · rw [dec, decScalar, take_append_leBytes, unle_leBytes _ _ hlt, sext_twos_16 v hv.1 hv.2]
  case outside => rw [enc, encScalar, encI16, if_pos (by omega)]

/-- Settles O9: the five unsigned codecs (F32 is one: its pattern is never interpreted) by `isCodec_unsigned`, I16 by
`isCodec_i16`. -/
theorem integerCodecsCheckEncodeAndDecode : Obligations.IntegerCodecsCheckEncodeAndDecode := by
  intro cfg v off rest k lo hi n hk
  suffices k.IsCodec lo hi n from this cfg v off rest
  simp only [List.mem_cons, Prod.mk.injEq, List.not_mem_nil, or_false] at hk
  rcases hk with ⟨rfl, rfl, rfl, rfl⟩ | ⟨rfl, rfl, rfl, rfl⟩ | ⟨rfl, rfl, rfl, rfl⟩ | ⟨rfl, rfl, rfl, rfl⟩ |
    ⟨rfl, rfl, rfl, rfl⟩ | ⟨rfl, rfl, rfl, rfl⟩
  case inr.inr.inr.inr.inl => exact Scalar.isCodec_i16
  all_goals exact Scalar.isCodec_unsigned (by norm_num) (fun _ _ _ => rfl) (fun _ => rfl)

/-! ## Labels -/

/-- A label that ends before a zero byte, with anything behind it. -/
theorem decLabel_append_zero {b : List Byte} (hlen : b.length < 32) (hnul : 0 ∉ b) (c : List Byte) :
    decLabel (b ++ 0 :: c) = b := by
  have hb : ∀ x ∈ b, (x != 0) = true := fun x hx => bne_iff_ne.2 fun h => hnul (h ▸ hx)
  obtain ⟨m, hm⟩ : ∃ m, 32 - b.length = m + 1 := ⟨31 - b.length, by omega⟩
  rw [decLabel, List.take_append, List.take_of_length_le (by omega), hm, List.take_succ_cons,
    List.takeWhile_append_of_pos hb, List.takeWhile_cons_of_neg (by simp), List.append_nil]

/-- Settles O11: the two rejects by their order in `encLabel`, the rest by `decLabel_encLabel` and `decLabel_append_zero`. -/
theorem labelCodec : Obligations.LabelCodec := by
  intro cfg b rest off
  refine ⟨fun hlen => ?tooLong, fun hlen hnul => ?zeroByte, fun hlen hnul => ?label⟩
  case tooLong => rw [enc, encLabel, if_pos hlen]
  case zeroByte => rw [enc, encLabel, if_neg (not_lt.2 hlen), if_pos (List.contains_iff_mem.2 hnul)]
  case label =>
    have henc : encLabel b off = .ok (b ++ List.replicate (32 - b.length) 0) := by
      rw [encLabel, if_neg (not_lt.2 hlen), if_neg (mt List.contains_iff_mem.1 hnul), zeros]
    exact ⟨henc, congrArg Value.bytes (decLabel_encLabel rest henc), fun c hlt =>
      congrArg Value.bytes (decLabel_append_zero hlt hnul c)⟩

/-! ## Arrays -/

@[simp] theorem Values.length_ofList (vs : List Value) : (Values.ofList vs).length = vs.length := by
  induction vs with
  | nil => rfl
  | cons v vs ih => exact congrArg (· + 1) ih

theorem offset_next (off size i : Nat) : off + size + i * size = off + (i + 1) * size := by
  rw [Nat.succ_mul]
  omega

section

variable {f : Value → Nat → Except ValidationReject (List Byte)} {size : Nat}

theorem encElems_cons_of_ok {v : Value} {vs : Values} {off : Nat} {b : List Byte} (h : f v off = .ok b) :
    encElems f size (.cons v vs) off = (encElems f size vs (off + size)).map (b ++ ·) := by
  rw [encElems, h]
  cases encElems f size vs (off + size) <;> rfl

/-- When every element is accepted at its own offset, the bytes stand back to back. -/
theorem encElems_ofList_ok {vs : List Value} {outs : List (List Byte)} {off : Nat} (hlen : outs.length = vs.length)
    (h : ∀ i (hv : i < vs.length) (ho : i < outs.length), f vs[i] (off + i * size) = .ok outs[i]) :
    encElems f size (.ofList vs) off = .ok outs.flatten := by
  induction vs generalizing outs off with
  | nil => rw [List.length_eq_zero_iff.1 hlen]; rfl
  | cons v vs ih =>
    cases outs with
    | nil => cases hlen
    | cons b outs =>
      have hhead : f v (off + 0 * size) = .ok b := h 0 (Nat.succ_pos _) (Nat.succ_pos _)
      have htail := ih (off := off + size) (Nat.succ.inj hlen) fun i hv ho => by
        rw [offset_next]; exact h (i + 1) (Nat.succ_lt_succ hv) (Nat.succ_lt_succ ho)
      rw [Nat.zero_mul, Nat.add_zero] at hhead
      rw [Values.ofList, encElems_cons_of_ok hhead, htail]
      rfl

/-- The first element that is rejected at its own offset is the one reported. -/
theorem encElems_ofList_error {vs : List Value} {off i : Nat} {r : ValidationReject} (hi : i < vs.length)
    (hr : f vs[i] (off + i * size) = .error r)
    (hbefore : ∀ j (hj : j < vs.length), j < i → ∃ b, f vs[j] (off + j * size) = .ok b) :
    encElems f size (.ofList vs) off = .error r := by
  induction vs generalizing off i with
  | nil => cases hi
  | cons v vs ih =>
    cases i with
    | zero =>
      have hhead : f v (off + 0 * size) = .error r := hr
      rw [Nat.zero_mul, Nat.add_zero] at hhead
      rw [Values.ofList, encElems, hhead]
    | succ i =>
      obtain ⟨b, hb⟩ := hbefore 0 (by simp) (Nat.succ_pos i)
      have hhead : f v (off + 0 * size) = .ok b := hb
      have htail := ih (off := off + size) (Nat.lt_of_succ_lt_succ hi) (by rw [offset_next]; exact hr) fun j hj hji => by
        rw [offset_next]; exact hbefore (j + 1) (Nat.succ_lt_succ hj) (Nat.succ_lt_succ hji)
      rw [Nat.zero_mul, Nat.add_zero] at hhead
      rw [Values.ofList, encElems_cons_of_ok hhead, htail]
      rfl

end

/-- Element `i` is read `i` sizes behind the first. -/
theorem decElems_eq_ofList (f : List Byte → Value) (size n : Nat) (s : List Byte) :
    decElems f size n s = .ofList ((List.range n).map fun i => f (s.drop (i * size))) := by
  induction n generalizing s with
  | zero => rfl
  | succ n ih =>
    rw [decElems, ih, List.range_succ_eq_map, List.map_cons, List.map_map, Values.ofList, Nat.zero_mul, List.drop_zero]
    congr 3
    funext i
    rw [Function.comp_apply, Nat.succ_mul, List.drop_drop, Nat.add_comm]

/-- An array of a number of elements that its descriptor declares is its elements. -/
theorem enc_arr_eq (cfg : Config) (d : Desc) (vs : List Value) (off : Nat) :
    enc cfg (.arr d vs.length) (.list (.ofList vs)) off = encElems (enc cfg d) d.size (.ofList vs) off := by
  rw [enc, if_pos (Values.length_ofList vs)]

theorem enc_varr_eq (cfg : Config) (d : Desc) {min max : Nat} {vs : List Value} (hmin : min ≤ vs.length)
    (hmax : vs.length ≤ max) (off : Nat) :
    enc cfg (.varr d min max) (.list (.ofList vs)) off = encElems (enc cfg d) d.size (.ofList vs) off := by
  rw [enc, if_neg (by rw [Values.length_ofList]; omega)]

/-- Settles O14: a declared number of elements is `encElems` for ARR and VARR alike, and DEC is `decElems_eq_ofList`. -/
theorem arrayCodecs : Obligations.ArrayCodecs := by
  intro cfg d vs off
  refine ⟨fun n hn => ?wrongLength, fun min max hlen => ?outOfBounds, fun x hx => ?elements, fun n s => ?arr,
    fun min max m s hsize hlen => ?varr⟩
  case wrongLength => rw [enc, if_neg (by rwa [Values.length_ofList])]
  case outOfBounds => rw [enc, if_pos (by rwa [Values.length_ofList])]
  case elements =>
    have helems : x = encElems (enc cfg d) d.size (.ofList vs) off := by
      rcases hx with ⟨n, rfl, rfl⟩ | ⟨min, max, hmin, hmax, rfl⟩
      · exact enc_arr_eq cfg d vs off
      · exact enc_varr_eq cfg d hmin hmax off
    subst helems
    exact ⟨fun outs hlen h => encElems_ofList_ok hlen h, fun i hi r hr hbefore => encElems_ofList_error hi hr hbefore⟩
  case arr => rw [dec, decElems_eq_ofList]
  case varr => rw [dec, decElems_eq_ofList, hlen, Nat.mul_div_cancel _ hsize]

end Sys2Proof

/-!
Records: STRUCT, reserved members, HSBK and TILE (spec/41_field_codecs.md R91, R94 to R96, R99).

`HSBK` and `TILE` are the `STRUCT`s of their tables (`shape_hsbk_eq` and the lemmas after it), so what is proved of the shape
of a `STRUCT` speaks of them. No codec reads a reserved member's name: a `STRUCT` is its `Members.nameless`.
-/

namespace Sys2Proof

open Machine

/-! ## Records and lists as lists -/

theorem Values.exists_ofList (vs : Values) : ∃ l, vs = .ofList l := by
  induction vs using Values.ind with
  | nil => exact ⟨[], rfl⟩
  | cons v rest ih =>
    obtain ⟨l, rfl⟩ := ih
    exact ⟨v :: l, rfl⟩

theorem Values.all_ofList {p : Value → Bool} {l : List Value} :
    (Values.ofList l).all p = true ↔ ∀ v ∈ l, p v = true := by
  induction l with
  | nil => simp [ofList, all]
  | cons v l ih => rw [ofList, all_cons, ih, List.forall_mem_cons]

theorem Fields.exists_ofList (fs : Fields) : ∃ l, fs = .ofList l := by
  induction fs using Fields.ind with
  | nil => exact ⟨[], rfl⟩
  | cons n v rest ih =>
    obtain ⟨l, rfl⟩ := ih
    exact ⟨(n, v) :: l, rfl⟩

@[simp] theorem Fields.length_ofList (l : List (String × Value)) : (Fields.ofList l).length = l.length := by
  induction l with
  | nil => rfl
  | cons m l ih => exact congrArg (· + 1) ih

theorem Fields.mem_of_lookup_ofList {l : List (String × Value)} {n : String} {v : Value}
    (h : (Fields.ofList l).lookup n = some v) : (n, v) ∈ l := by
  induction l with
  | nil => cases h
  | cons m l ih =>
    obtain ⟨m, w⟩ := m
    by_cases hm : m = n
    · subst hm
      obtain rfl : w = v := by simpa [ofList] using h
      exact List.mem_cons_self
    · rw [ofList, lookup_cons_of_ne hm] at h
      exact List.mem_cons_of_mem _ (ih h)

theorem Fields.exists_lookup_ofList {l : List (String × Value)} {n : String} (h : n ∈ l.map Prod.fst) :
    ∃ v, (Fields.ofList l).lookup n = some v := by
  induction l with
  | nil => cases h
  | cons m l ih =>
    obtain ⟨m, w⟩ := m
    by_cases hm : m = n
    · subst hm
      exact ⟨w, lookup_cons_same ..⟩
    · rw [ofList, lookup_cons_of_ne hm]
      exact ih ((List.mem_cons.1 h).resolve_left (Ne.symm hm))

theorem value_unique_of_nodup {α β : Type} {l : List (α × β)} (h : (l.map Prod.fst).Nodup) {n : α} {v w : β}
    (hv : (n, v) ∈ l) (hw : (n, w) ∈ l) : v = w :=
  congrArg Prod.snd (List.inj_on_of_nodup_map h hv hw rfl)

/-! ## The shape of a `STRUCT` -/

/-- The members that take a value. -/
def takenMembers (ms : List (String × Desc)) : List (String × Desc) := ms.filter fun m => !m.2.isRsv

theorem mem_takenMembers {ms : List (String × Desc)} {m : String × Desc} :
    m ∈ takenMembers ms ↔ m ∈ ms ∧ m.2.isRsv = false := by
  simp [takenMembers]

theorem takes_ofList {ms : List (String × Desc)} {n : String} {d : Desc} :
    (Members.ofList ms).Takes n d ↔ (n, d) ∈ takenMembers ms := by
  induction ms with
  | nil => simp [Members.ofList, Members.Takes, takenMembers]
  | cons m ms ih =>
    obtain ⟨m, e⟩ := m
    cases he : e.isRsv with
    | true => simp [Members.ofList, Members.Takes, ih, takenMembers, he]
    | false =>
      simp only [Members.ofList, Members.Takes, ih, takenMembers, he, List.filter_cons, Bool.not_false, if_true,
        List.mem_cons, Prod.mk.injEq, true_and]
      exact or_congr_left (and_congr eq_comm eq_comm)

theorem count_ofList (ms : List (String × Desc)) : (Members.ofList ms).count = (takenMembers ms).length := by
  induction ms with
  | nil => rfl
  | cons m ms ih =>
    obtain ⟨m, e⟩ := m
    cases he : e.isRsv <;> simp [Members.ofList, Members.count, ih, takenMembers, he]

theorem shape_struct_ofList {ms : List (String × Desc)} {fs : List (String × Value)} :
    shape (.struct (.ofList ms)) (.record (.ofList fs)) = true ↔
      (∀ n d, (n, d) ∈ takenMembers ms → ∃ v, (Fields.ofList fs).lookup n = some v ∧ shape d v = true) ∧
        fs.length = (takenMembers ms).length := by
  simp only [shape, Bool.and_eq_true, shapeMembers_iff, takes_ofList, beq_iff_eq, Fields.length_ofList, count_ofList]

/-- With distinct names a record has the shape when it has exactly the members that take a value, each with its shape: as many
names as there are such members, and all of theirs among them. -/
theorem shape_struct_iff {ms : List (String × Desc)} (hn : ((takenMembers ms).map Prod.fst).Nodup)
    {fs : List (String × Value)} :
    shape (.struct (.ofList ms)) (.record (.ofList fs)) = true ↔
      (fs.map Prod.fst).Perm ((takenMembers ms).map Prod.fst) ∧
        ∀ n d v, (n, d) ∈ takenMembers ms → (n, v) ∈ fs → shape d v = true := by
  rw [shape_struct_ofList]
  constructor
  · rintro ⟨hmem, hlen⟩
    have hsub : (takenMembers ms).map Prod.fst ⊆ fs.map Prod.fst := by
      intro n hn
      obtain ⟨⟨n, d⟩, hd, rfl⟩ := List.mem_map.1 hn
      obtain ⟨v, hv, -⟩ := hmem n d hd
      exact List.mem_map.2 ⟨(n, v), Fields.mem_of_lookup_ofList hv, rfl⟩
    have hperm := (hn.subperm hsub).perm_of_length_le (by simp [hlen])
    refine ⟨hperm.symm, fun n d v hd hv => ?_⟩
    obtain ⟨w, hw, hshape⟩ := hmem n d hd
    rwa [value_unique_of_nodup (hperm.nodup_iff.1 hn) hv (Fields.mem_of_lookup_ofList hw)]
  · rintro ⟨hperm, hmem⟩
    refine ⟨fun n d hd => ?_, by simpa using hperm.length_eq⟩
    obtain ⟨v, hv⟩ := Fields.exists_lookup_ofList (hperm.mem_iff.2 (List.mem_map.2 ⟨(n, d), hd, rfl⟩))
    exact ⟨v, hv, hmem n d v hd (Fields.mem_of_lookup_ofList hv)⟩

/-- A record with a value for a reserved member does not have the shape. -/
theorem shape_struct_of_rsv {ms : List (String × Desc)} (hn : (ms.map Prod.fst).Nodup) {fs : List (String × Value)}
    {n : String} {k : Nat} {v : Value} (hm : (n, .rsv k) ∈ ms) (hv : (n, v) ∈ fs) :
    shape (.struct (.ofList ms)) (.record (.ofList fs)) = false := by
  refine Bool.eq_false_iff.2 fun hs => ?_
  have htaken : ((takenMembers ms).map Prod.fst).Nodup := hn.sublist (List.filter_sublist.map _)
  obtain ⟨hperm, -⟩ := (shape_struct_iff htaken).1 hs
  obtain ⟨⟨n', d⟩, hd, rfl⟩ := List.mem_map.1 (hperm.mem_iff.1 (List.mem_map.2 ⟨(n, v), hv, rfl⟩))
  obtain ⟨hd, hr⟩ := mem_takenMembers.1 hd
  obtain rfl : d = .rsv k := value_unique_of_nodup hn hd hm
  cases hr

/-! ## `HSBK` and `TILE` as `STRUCT`s -/

theorem shape_hsbk_eq (v : Value) : shape .hsbk v = shape (.struct (leafMembers hsbkLeaves)) v := by
  cases v <;> simp [shape, leavesPresent_eq, leavesCount_eq]

theorem shape_tile_eq (v : Value) : shape .tile v = shape (.struct (leafMembers tileLeaves)) v := by
  cases v <;> simp [shape, leavesPresent_eq, leavesCount_eq]

theorem enc_tile_eq (cfg : Config) (v : Value) (off : Nat) :
    enc cfg .tile v off = enc cfg (.struct (leafMembers tileLeaves)) v off := by
  cases v <;> simp [enc, encLeaves_eq]

theorem dec_tile_eq (s : List Byte) : dec .tile s = dec (.struct (leafMembers tileLeaves)) s := by
  rw [dec, dec, decLeaves_eq]

/-- The names of a flat sub-structure that take a value. -/
def leafNames (ls : List (String × Leaf)) : List String :=
  (takenMembers (ls.map fun l => (l.1, l.2.desc))).map Prod.fst

theorem leafMembers_eq_ofList (ls : List (String × Leaf)) :
    leafMembers ls = .ofList (ls.map fun l => (l.1, l.2.desc)) := by
  induction ls with
  | nil => rfl
  | cons l ls ih => rw [leafMembers, ih]; rfl

theorem shape_int_iff {k : Scalar} {v : Value} : shape (.int k) v = true ↔ ∃ i, v = .int i := by
  cases v <;> simp [shape]

/-- A record has the shape of a flat sub-structure when it has its names, each an integer. -/
theorem shape_leafMembers_iff {ls : List (String × Leaf)} (hn : (leafNames ls).Nodup) {fs : List (String × Value)} :
    shape (.struct (leafMembers ls)) (.record (.ofList fs)) = true ↔
      (fs.map Prod.fst).Perm (leafNames ls) ∧ ∀ n v, (n, v) ∈ fs → ∃ i, v = .int i := by
  rw [leafMembers_eq_ofList, shape_struct_iff hn]
  refine and_congr_right fun hperm => ⟨fun h n v hv => ?_, fun h n d v hd hv => ?_⟩
  · obtain ⟨⟨n', d⟩, hd, rfl⟩ := List.mem_map.1 (hperm.mem_iff.1 (List.mem_map.2 ⟨(n, v), hv, rfl⟩))
    have hs := h _ d v hd hv
    rw [← takes_ofList, ← leafMembers_eq_ofList] at hd
    obtain ⟨k, rfl⟩ := leafMembers_takes hd
    exact shape_int_iff.1 hs
  · rw [← takes_ofList, ← leafMembers_eq_ofList] at hd
    obtain ⟨k, rfl⟩ := leafMembers_takes hd
    exact shape_int_iff.2 (h n v hv)

/-! ## The members in list order -/

theorem encMembers_cons {n : String} {d : Desc} {fs : Fields} {v : Value} (hd : d.isRsv = false)
    (hv : fs.lookup n = some v) (cfg : Config) (rest : Members) (off : Nat) :
    encMembers cfg (.cons n d rest) fs off =
      (enc cfg d v off).bind fun b => (encMembers cfg rest fs (off + b.length)).map (b ++ ·) := by
  simp only [encMembers, hd, Bool.false_eq_true, if_false, hv]
  cases enc cfg d v off with
  | error r => rfl
  | ok b =>
    simp only [Except.bind]
    cases encMembers cfg rest fs (off + b.length) <;> rfl

theorem encMembers_cons_rsv (cfg : Config) (n : String) (k : Nat) (rest : Members) (fs : Fields) (off : Nat) :
    encMembers cfg (.cons n (.rsv k) rest) fs off = (encMembers cfg rest fs (off + k)).map (zeros k ++ ·) := by
  simp only [encMembers, Desc.isRsv_rsv, if_true, enc, zeros_length]
  cases encMembers cfg rest fs (off + k) <;> rfl

/-! ## Shapes of the other descriptors -/

theorem shape_str32_iff {v : Value} : shape .str32 v = true ↔ ∃ b, v = .bytes b := by
  cases v <;> simp [shape]

/-- `HSBK`, `TILE` and a `STRUCT` ask for a record. -/
theorem exists_record_of_shape {d : Desc} {v : Value} (hd : d = .hsbk ∨ d = .tile ∨ ∃ ms, d = .struct ms)
    (hs : shape d v = true) : ∃ fs, v = .record (.ofList fs) := by
  cases v with
  | record fs =>
    obtain ⟨l, rfl⟩ := fs.exists_ofList
    exact ⟨l, rfl⟩
  | _ => rcases hd with rfl | rfl | ⟨ms, rfl⟩ <;> cases hs

/-- A descriptor with the shape of an array: a list whose every element has the element's shape. -/
theorem shape_elems_iff {e d : Desc} {v : Value} (hd : (∃ n, e = .arr d n) ∨ ∃ min max, e = .varr d min max) :
    shape e v = true ↔ ∃ vs : List Value, v = .list (.ofList vs) ∧ ∀ x ∈ vs, shape d x = true := by
  have hlist : ∀ l, shape e (.list l) = l.all (shape d) := by
    rcases hd with ⟨n, rfl⟩ | ⟨min, max, rfl⟩ <;> exact fun _ => rfl
  constructor
  · intro hs
    cases v with
    | list l =>
      obtain ⟨l, rfl⟩ := l.exists_ofList
      exact ⟨l, rfl, Values.all_ofList.1 (hlist _ ▸ hs)⟩
    | _ => rcases hd with ⟨n, rfl⟩ | ⟨min, max, rfl⟩ <;> cases hs
  · rintro ⟨l, rfl, h⟩
    exact (hlist _).trans (Values.all_ofList.2 h)

/-- ENCODE reports a wrong shape before any operand's range. -/
theorem encodeRequest_of_not_shape {cfg : Config} {er : EncodeRequest} {e : Entry}
    (he : lookupName cfg.reg er.name = some e) (hs : shape e.desc er.payload = false) :
    encodeRequest cfg er = .error ⟨.shape, 0⟩ := by
  have hok : ¬ shapeOk e er = true := fun h => Bool.false_ne_true (hs.symm.trans (shapeOk_spec.1 h).2)
  simp only [encodeRequest, he, if_neg hok]

/-- Settles O10: the members in order by `encMembers_cons` and `encMembers_cons_rsv`, the shapes by `shape_struct_iff`. -/
theorem structAndReservedCodecs : Obligations.StructAndReservedCodecs := by
  refine ⟨fun _ _ _ => rfl, fun _ => rfl, fun cfg n d rest fs v off hd hv => ?encTaken,
    fun n d rest s hd => ⟨_, rfl, congrArg Value.record (decMembers_cons hd s)⟩,
    fun cfg name k off v rest fs => ?reserved,
    fun ms fs => ⟨fun hn => shape_struct_iff hn, fun n k v hn hm hv => shape_struct_of_rsv hn hm hv⟩,
    fun d names hd fs => ?flat, fun d v hd hs => exists_record_of_shape hd hs, fun k v => shape_int_iff,
    fun v => shape_str32_iff, fun e d v hd => shape_elems_iff hd, fun cfg er e he hs => encodeRequest_of_not_shape he hs⟩
  case encTaken =>
    simp only [enc, encMembers_cons hd hv]
    refine ⟨fun r hr => by rw [hr]; rfl, fun b hb => ⟨fun r hr => ?_, fun out hout => ?_⟩⟩
    · rw [hb, Except.bind, hr]; rfl
    · rw [hb, Except.bind, hout]; rfl
  case reserved =>
    simp only [enc, encMembers_cons_rsv]
    refine ⟨rfl, fun r hr => by rw [hr]; rfl, fun out hout => by rw [hout]; rfl, fun a s ha => ?_⟩
    rw [dec, dec, decMembers_cons_rsv rfl, Desc.size, List.drop_left' ha]
  case flat =>
    simp only [List.mem_cons, Prod.mk.injEq, List.not_mem_nil, or_false] at hd
    rcases hd with ⟨rfl, rfl⟩ | ⟨rfl, rfl⟩
    · rw [shape_hsbk_eq]; exact shape_leafMembers_iff (by decide)
    · rw [shape_tile_eq]; exact shape_leafMembers_iff (by decide)

/-! ## HSBK -/

theorem encScalar_u16 (cfg : Config) (v : Int) (off : Nat) :
    encScalar cfg .u16 v off = if 0 ≤ v ∧ v ≤ 65535 then .ok (leBytes 2 v.toNat) else .error ⟨.range, off⟩ := by
  rw [encScalar, encU16, encUnsigned, ← ite_not]
  exact if_congr (by omega) rfl rfl

theorem encScalar_kelvin (cfg : Config) (v : Int) (off : Nat) :
    encScalar cfg .kelvin v off =
      if (cfg.kelvinMin : Int) ≤ v ∧ v ≤ cfg.kelvinMax then .ok (leBytes 2 v.toNat) else .error ⟨.range, off⟩ := by
  rw [encScalar, encKelvin, ← ite_not]
  exact if_congr (by omega) rfl rfl

/-- A component with a range: its reject, or its bytes and the components behind them. -/
theorem encLeaves_cons_int {cfg : Config} {k : Scalar} {m : String} {fs : Fields} {v : Int} {off : Nat} {p : Prop}
    [Decidable p] {b : List Byte} {r : ValidationReject}
    (hk : encScalar cfg k v off = if p then .ok b else .error r) (hm : fs.lookup m = some (.int v))
    (rest : List (String × Leaf)) :
    encLeaves cfg ((m, .int k) :: rest) fs off =
      if ¬p then .error r else (encLeaves cfg rest fs (off + b.length)).map (b ++ ·) := by
  simp only [encLeaves, hm, hk]
  by_cases hp : p
  · simp only [hp, if_true, not_true, if_false]
    cases encLeaves cfg rest fs (off + b.length) <;> rfl
  · simp only [hp, if_false, not_false_eq_true, if_true]

theorem map_ite_error {α β ε : Type} {p : Prop} [Decidable p] (f : α → β) (r : ε) (x : Except ε α) :
    (if p then .error r else x).map f = if p then .error r else x.map f := by
  split <;> rfl

/-- Settles O12: the four components one after the other, by `encLeaves_cons_int`. -/
theorem hsbkCodec : Obligations.HsbkCodec := by
  refine ⟨fun cfg k off => encScalar_kelvin cfg k off, fun _ => rfl, fun cfg h s b k off => ⟨?enc, fun t => ?dec⟩⟩
  case enc =>
    rw [hsbkValue, enc, hsbkLeaves, encLeaves_cons_int (encScalar_u16 cfg h off) rfl,
      encLeaves_cons_int (encScalar_u16 cfg s _) rfl, encLeaves_cons_int (encScalar_u16 cfg b _) rfl,
      encLeaves_cons_int (encScalar_kelvin cfg k _) rfl]
    simp only [leBytes_length, Nat.add_assoc, Nat.reduceAdd, encLeaves, map_ite_error]
    simp only [Except.map, List.append_nil, List.append_assoc]
  case dec => simp only [dec, hsbkLeaves, decLeaves, decScalar, Scalar.size, List.drop_drop, hsbkValue, Fields.ofList]

/-! ## The names of reserved members -/

/-- The members with the names of the reserved ones left empty. -/
def Members.nameless : Members → Members
  | .nil => .nil
  | .cons n d rest => .cons (if d.isRsv then "" else n) d rest.nameless

theorem encMembers_nameless (cfg : Config) (ms : Members) (fs : Fields) (off : Nat) :
    encMembers cfg ms.nameless fs off = encMembers cfg ms fs off := by
  induction ms using Members.ind generalizing off with
  | nil => rfl
  | cons m d rest ih => cases hr : d.isRsv <;> simp [Members.nameless, encMembers, hr, ih]

theorem decMembers_nameless (ms : Members) (s : List Byte) : decMembers ms.nameless s = decMembers ms s := by
  induction ms using Members.ind generalizing s with
  | nil => rfl
  | cons m d rest ih => cases hr : d.isRsv <;> simp [Members.nameless, decMembers, hr, ih]

theorem shapeMembers_nameless (ms : Members) (fs : Fields) : shapeMembers ms.nameless fs = shapeMembers ms fs := by
  induction ms using Members.ind with
  | nil => rfl
  | cons m d rest ih => cases hr : d.isRsv <;> simp [Members.nameless, shapeMembers, hr, ih]

theorem count_nameless (ms : Members) : ms.nameless.count = ms.count := by
  induction ms using Members.ind with
  | nil => rfl
  | cons m d rest ih => cases hr : d.isRsv <;> simp [Members.nameless, Members.count, hr, ih]

section

variable {ms ns : Members} (h : ms.nameless = ns.nameless)
include h

theorem enc_struct_of_nameless_eq (cfg : Config) (v : Value) (off : Nat) :
    enc cfg (.struct ms) v off = enc cfg (.struct ns) v off := by
  cases v with
  | record fs => rw [enc, enc, ← encMembers_nameless, h, encMembers_nameless]
  | _ => rfl

theorem dec_struct_of_nameless_eq (s : List Byte) : dec (.struct ms) s = dec (.struct ns) s := by
  rw [dec, dec, ← decMembers_nameless, h, decMembers_nameless]

theorem shape_struct_of_nameless_eq (v : Value) : shape (.struct ms) v = shape (.struct ns) v := by
  cases v with
  | record fs =>
    rw [shape, shape, ← shapeMembers_nameless, ← count_nameless, h, shapeMembers_nameless, count_nameless]
  | _ => rfl

end

/-- Settles O13: the rule's table and the model's differ in the names of reserved members alone. -/
theorem tileIsTheStructOfItsTable : Obligations.TileIsTheStructOfItsTable := by
  unfold Obligations.TileIsTheStructOfItsTable
  refine ⟨rfl, rfl, fun cfg v off => ⟨?enc, ?shape⟩, fun s => ?dec, fun off => rfl, rfl⟩
  case enc => exact (enc_tile_eq cfg v off).trans (enc_struct_of_nameless_eq (by rfl) cfg v off)
  case shape => exact (shape_tile_eq v).trans (shape_struct_of_nameless_eq (by rfl) v)
  case dec => exact (dec_tile_eq s).trans (dec_struct_of_nameless_eq (by rfl) s)

end Sys2Proof

/-!
The 14 packet formats of the default registry (spec/42_message_types.md R110 to R123): the lengths of a packet of the type,
what ENC writes or reports for its payload at packet offset 36, and what DEC reads.

Each payload is a `STRUCT`, so each format is its members one after the other: the lemmas `encMembers_cons_…` say what one
member adds in front of any members behind it, and `map_ite_error` brings the rejects of the members behind to the front.
-/

namespace Sys2Proof

open Machine

/-! ## ENC of one member -/

section

variable {cfg : Config} {m : String} {fs : Fields} {off : Nat}

theorem bind_ite_error {α β ε : Type} {p : Prop} [Decidable p] (f : α → Except ε β) (r : ε) (x : Except ε α) :
    (if p then .error r else x).bind f = if p then .error r else x.bind f := by
  split <;> rfl

theorem map_ok {α β ε : Type} (f : α → β) (x : α) : (Except.ok x : Except ε α).map f = .ok (f x) := rfl

/-- An unsigned integer of `n` bytes: its reject, or its bytes and the members behind them. -/
theorem encMembers_cons_unsigned {k : Scalar} {n : Nat} {v hi : Int} (hk : encScalar cfg k v off = encUnsigned n v off)
    (hhi : hi + 1 = (2 ^ (8 * n) : Nat)) (hm : fs.lookup m = some (.int v)) (rest : Members) :
    encMembers cfg (.cons m (.int k) rest) fs off =
      if ¬(0 ≤ v ∧ v ≤ hi) then .error ⟨.range, off⟩
      else (encMembers cfg rest fs (off + n)).map (leBytes n v.toNat ++ ·) := by
  have hrange : (v < 0 ∨ (2 ^ (8 * n) : Nat) ≤ v) ↔ ¬(0 ≤ v ∧ v ≤ hi) := by omega
  rw [encMembers_cons rfl hm, enc, hk, encUnsigned, bind_ite_error, Except.bind, leBytes_length]
  exact if_congr hrange rfl rfl

theorem encMembers_cons_u8 {v : Int} (hm : fs.lookup m = some (.int v)) (rest : Members) :
    encMembers cfg (.cons m (.int .u8) rest) fs off =
      if ¬(0 ≤ v ∧ v ≤ 255) then .error ⟨.range, off⟩
      else (encMembers cfg rest fs (off + 1)).map (leBytes 1 v.toNat ++ ·) :=
  encMembers_cons_unsigned rfl (by norm_num) hm rest

theorem encMembers_cons_u32 {v : Int} (hm : fs.lookup m = some (.int v)) (rest : Members) :
    encMembers cfg (.cons m (.int .u32) rest) fs off =
      if ¬(0 ≤ v ∧ v ≤ 4294967295) then .error ⟨.range, off⟩
      else (encMembers cfg rest fs (off + 4)).map (leBytes 4 v.toNat ++ ·) :=
  encMembers_cons_unsigned rfl (by norm_num) hm rest

/-- A colour (spec/41_field_codecs.md R94): each component's reject at its own offset, or the eight bytes and the members
behind them. -/
theorem encMembers_cons_hsbk {h s b k : Int} (hm : fs.lookup m = some (hsbkValue h s b k)) (rest : Members) :
    encMembers cfg (.cons m .hsbk rest) fs off =
      if ¬(0 ≤ h ∧ h ≤ 65535) then .error ⟨.range, off⟩
      else if ¬(0 ≤ s ∧ s ≤ 65535) then .error ⟨.range, off + 2⟩
      else if ¬(0 ≤ b ∧ b ≤ 65535) then .error ⟨.range, off + 4⟩
      else if ¬((cfg.kelvinMin : Int) ≤ k ∧ k ≤ cfg.kelvinMax) then .error ⟨.range, off + 6⟩
      else (encMembers cfg rest fs (off + 8)).map
        (leBytes 2 h.toNat ++ leBytes 2 s.toNat ++ leBytes 2 b.toNat ++ leBytes 2 k.toNat ++ ·) := by
  obtain ⟨-, -, hcolor⟩ := hsbkCodec
  rw [encMembers_cons rfl hm, (hcolor cfg h s b k off).1]
  simp only [bind_ite_error]
  rfl

/-- The last member is all that is left to write. -/
theorem encMembers_last {d : Desc} {v : Value} (hd : d.isRsv = false) (hm : fs.lookup m = some v) :
    encMembers cfg (.cons m d .nil) fs off = enc cfg d v off := by
  rw [encMembers_cons hd hm]
  cases enc cfg d v off with
  | error r => rfl
  | ok b => exact congrArg Except.ok (List.append_nil b)

end

/-! ## No bytes, a power level, a label -/

theorem shape_struct_nil_iff {v : Value} : shape (.struct .nil) v = true ↔ v = .record .nil := by
  cases v with
  | record fs => cases fs <;> simp [shape, shapeMembers, Members.count, Fields.length]
  | _ => simp [shape]

/-- Settles O26: a payload without members has one value, `shape_struct_nil_iff`; ENCODE rejects every other by its shape. -/
theorem emptyPayloadFormats : Obligations.EmptyPayloadFormats := by
  intro cfg e he
  have hdesc : e.desc = .struct .nil := by rcases he with rfl | rfl <;> rfl
  refine ⟨fun h => h ▸ ⟨rfl, rfl⟩, fun h => h ▸ ⟨rfl, rfl⟩, ?_⟩
  rw [hdesc]
  refine ⟨fun size => sizesOk_of_tail_none rfl size, fun v => shape_struct_nil_iff, rfl, fun _ => rfl,
    fun er v hv hname hp => encodeRequest_of_not_shape hname (Bool.eq_false_iff.2 fun hs => hv ?_)⟩
  rw [hdesc, shape_struct_nil_iff] at hs
  exact hp.symm.trans hs

/-- Settles O27: the payload is one 16-bit member, `encScalar_u16`. -/
theorem powerFormats : Obligations.PowerFormats := by
  intro cfg e he
  have hdesc : e.desc = .struct (.cons "level" (.int .u16) .nil) := by rcases he with rfl | rfl <;> rfl
  refine ⟨fun h => h ▸ ⟨rfl, rfl⟩, fun h => h ▸ ⟨rfl, rfl⟩, ?_⟩
  rw [hdesc]
  refine ⟨fun size => sizesOk_of_tail_none rfl size, fun level => ?_, fun _ => rfl⟩
  rw [enc, encMembers_last rfl rfl]
  exact encScalar_u16 cfg level 36

/-- Settles O28: the payload is one label, whose checks stand in `encLabel`. -/
theorem labelFormats : Obligations.LabelFormats := by
  intro cfg e he
  have hdesc : e.desc = .struct (.cons "label" .str32 .nil) := by rcases he with rfl | rfl <;> rfl
  refine ⟨fun h => h ▸ ⟨rfl, rfl⟩, fun h => h ▸ ⟨rfl, rfl⟩, ?_⟩
  rw [hdesc]
  refine ⟨fun size => sizesOk_of_tail_none rfl size, fun b => ?_, fun _ => rfl⟩
  rw [enc, encMembers_last rfl rfl]
  simp only [enc, encLabel, List.contains_iff_mem, zeros]

/-! ## Integers and a colour -/

/-- Settles O29: two integers, by `encMembers_cons_u8` and `encMembers_cons_u32`. -/
theorem serviceAndZoneRequestFormats : Obligations.ServiceAndZoneRequestFormats := by
  intro cfg
  refine ⟨⟨rfl, rfl, fun size => sizesOk_of_tail_none rfl size, fun service port => ?service, fun s => rfl⟩,
    ⟨rfl, rfl, fun size => sizesOk_of_tail_none rfl size, fun first last => ?zones, fun s => rfl⟩⟩
  case service =>
    simp only [entryStateService, enc, Members.ofList]
    rw [encMembers_cons_u8 rfl, encMembers_cons_u32 rfl]
    simp only [map_ite_error, encMembers, map_ok, List.append_nil]
  case zones =>
    simp only [entryGetColorZones, enc, Members.ofList]
    rw [encMembers_cons_u8 rfl, encMembers_cons_u8 rfl]
    simp only [map_ite_error, encMembers, map_ok, List.append_nil]

/-- Settles O30: the members in wire order, the colour by `encMembers_cons_hsbk`. -/
theorem colorFormats : Obligations.ColorFormats := by
  intro cfg
  refine ⟨⟨rfl, rfl, fun size => sizesOk_of_tail_none rfl size, fun h s b k duration => ?encSetColor,
      fun t => ?decSetColor⟩,
    ⟨rfl, rfl, fun size => sizesOk_of_tail_none rfl size, fun count index h s b k => ?encStateZone,
      fun t => ?decStateZone⟩⟩
  case encSetColor =>
    simp only [entrySetColor, enc, Members.ofList, encMembers_cons_rsv]
    rw [encMembers_cons_hsbk rfl, encMembers_cons_u32 rfl]
    simp only [map_ite_error, encMembers, map_ok, List.append_nil, List.append_assoc]
  case encStateZone =>
    simp only [entryStateZone, enc, Members.ofList]
    rw [encMembers_cons_u8 rfl, encMembers_cons_u8 rfl, encMembers_cons_hsbk rfl]
    simp only [map_ite_error, encMembers, map_ok, List.append_nil, List.append_assoc]
  case decSetColor =>
    simp only [entrySetColor, Members.ofList, dec, decMembers, Desc.isRsv, Desc.size, List.drop_drop]
    rfl
  case decStateZone =>
    simp only [entryStateZone, Members.ofList, dec, decMembers, Desc.isRsv, Desc.size, Scalar.size, List.drop_drop]
    rfl

/-! ## Arrays -/

theorem hsbk_size : Desc.hsbk.size = 8 := rfl

/-- The two counts of a zone report, and the colours behind them. -/
theorem enc_stateMultiZone (cfg : Config) (mzMin mzMax : Nat) (count index : Int) (colors : Value) :
    enc cfg (entryStateMultiZone mzMin mzMax).desc
        (.record (.ofList [("count", .int count), ("index", .int index), ("colors", colors)])) 36 =
      if ¬(0 ≤ count ∧ count ≤ 255) then .error ⟨.range, 36⟩
      else if ¬(0 ≤ index ∧ index ≤ 255) then .error ⟨.range, 37⟩
      else (enc cfg (.varr .hsbk mzMin mzMax) colors 38).map
        (leBytes 1 count.toNat ++ leBytes 1 index.toNat ++ ·) := by
  simp only [entryStateMultiZone, enc, Members.ofList]
  rw [encMembers_cons_u8 rfl, encMembers_cons_u8 rfl, encMembers_last rfl rfl]
  simp only [map_ite_error]
  cases enc cfg (.varr .hsbk mzMin mzMax) colors 38 <;> simp only [Except.map, List.append_assoc]

theorem dec_stateMultiZone (mzMin mzMax : Nat) (t : List Byte) :
    dec (entryStateMultiZone mzMin mzMax).desc t =
      .record (.ofList [("count", .int (unle (t.take 1))), ("index", .int (unle ((t.drop 1).take 1))),
        ("colors", dec (.varr .hsbk mzMin mzMax) (t.drop 2))]) := by
  simp only [entryStateMultiZone, Members.ofList, dec, decMembers, Desc.isRsv, Desc.size, Scalar.size, List.drop_drop]
  rfl

/-- Settles O31: the counts by `enc_stateMultiZone` and `dec_stateMultiZone`, the colours by the rules of a
VARR (`arrayCodecs`). -/
theorem multiZoneFormat : Obligations.MultiZoneFormat := by
  intro cfg mzMin mzMax p
  refine ⟨rfl, rfl, fun size => ?sizes, ?enc, fun m t ht => ?dec⟩
  case sizes =>
    have h := sizesOk_of_tail_some (p := p) rfl (show 1 ≤ Desc.hsbk.size by decide) size
    have hfixed : 36 + p.size = 38 := rfl
    rw [hfixed, hsbk_size] at h
    simpa only [Nat.mul_comm _ 8] using h
  case enc =>
    intro count index colors x
    obtain ⟨-, hlen, helems, -⟩ := arrayCodecs cfg .hsbk colors 38
    have hx : x = _ := enc_stateMultiZone cfg mzMin mzMax count index _
    simp only [hsbk_size, Nat.mul_comm _ 8] at helems
    refine ⟨fun hc => hx.trans (if_pos hc), fun hc hi => ?index, fun hc hi => ?colors⟩
    case index => rw [hx, if_neg (not_not.2 hc), if_pos hi]
    case colors =>
      rw [if_neg (not_not.2 hc), if_neg (not_not.2 hi)] at hx
      refine ⟨fun h => ?number, fun hmin hmax => ?elements⟩
      case number => rw [hx, hlen _ _ h]; rfl
      case elements =>
        obtain ⟨hok, herr⟩ := helems _ (.inr ⟨mzMin, mzMax, hmin, hmax, rfl⟩)
        exact ⟨fun outs hl h => by rw [hx, hok outs hl h]; rfl, fun i h r hr hb => by rw [hx, herr i h r hr hb]; rfl⟩
  case dec =>
    obtain ⟨-, -, -, -, hcolors⟩ := arrayCodecs cfg .hsbk [] 0
    have htail := hcolors mzMin mzMax m (t.drop 2) (by decide) (by rw [List.length_drop, ht, hsbk_size]; omega)
    simp only [hsbk_size, List.drop_drop, Nat.mul_comm _ 8] at htail
    rw [dec_stateMultiZone, htail]

/-- Settles O32: the members in wire order; the total count stands behind the 880 bytes of the 16 Tiles (`enc_length`). -/
theorem tileFormats : Obligations.TileFormats := by
  intro cfg
  refine ⟨⟨rfl, rfl, fun size => sizesOk_of_tail_none rfl size, fun first total tiles => ?encChain, fun t => ?decChain⟩,
    ⟨rfl, rfl, fun size => sizesOk_of_tail_none rfl size, fun tile x y width colors => ?encState, fun t => ?decState⟩,
    ⟨rfl, rfl, fun size => sizesOk_of_tail_none rfl size, fun tile length x y width duration colors => ?encSet,
      fun t => ?decSet⟩⟩
  case encChain =>
    simp only [entryStateDeviceChain, enc, Members.ofList]
    rw [encMembers_cons_u8 rfl, encMembers_cons rfl rfl]
    cases htiles : enc cfg (.arr .tile 16) tiles 37 with
    | error r => rfl
    | ok out =>
      have hlen : out.length = 880 := enc_length rfl htiles
      rw [Except.bind, encMembers_cons_u8 rfl, hlen]
      simp only [map_ite_error, encMembers, map_ok, List.append_nil, List.append_assoc]
  case encState =>
    simp only [entryStateTileState64, enc, Members.ofList]
    rw [encMembers_cons_u8 rfl, encMembers_cons_rsv, encMembers_cons_u8 rfl, encMembers_cons_u8 rfl, encMembers_cons_u8 rfl,
      encMembers_last rfl rfl]
    simp only [map_ite_error]
    cases enc cfg (.arr .hsbk 64) colors 41 <;> simp only [Except.map, List.append_assoc]
  case encSet =>
    simp only [entrySetTileState64, enc, Members.ofList]
    rw [encMembers_cons_u8 rfl, encMembers_cons_u8 rfl, encMembers_cons_rsv, encMembers_cons_u8 rfl, encMembers_cons_u8 rfl,
      encMembers_cons_u8 rfl, encMembers_cons_u32 rfl, encMembers_last rfl rfl]
    simp only [map_ite_error]
    cases enc cfg (.arr .hsbk 64) colors 46 <;> simp only [Except.map, List.append_assoc]
  case decChain =>
    simp only [entryStateDeviceChain, Members.ofList, dec, decMembers, Desc.isRsv, Desc.size, Scalar.size,
      List.drop_drop]
    rfl
  case decState =>
    simp only [entryStateTileState64, Members.ofList, dec, decMembers, Desc.isRsv, Desc.size, Scalar.size, List.drop_drop]
    rfl
  case decSet =>
    simp only [entrySetTileState64, Members.ofList, dec, decMembers, Desc.isRsv, Desc.size, Scalar.size, List.drop_drop]
    rfl

end Sys2Proof

/-!
The instructions one by one (spec/43_commands.md R130 to R135, R143): NOP, the header row, the packet rows, and ENCODE on
each outcome of its checks.
-/

namespace Sys2Proof

/-! ## Checks 2 to 4 of the frame step -/

section
variable {single : Bool} {rem : Nat} {h : Header}

theorem lengthCheck_of_small (hs : h.size.toNat < 36) : lengthCheck single rem h = some .sizeSmall := if_pos hs

theorem lengthCheck_of_long (hmin : 36 ≤ h.size.toNat) (hs : rem < h.size.toNat) :
    lengthCheck single rem h = some .trunc := by
  rw [lengthCheck, if_neg (Nat.not_lt.2 hmin), if_pos hs]

theorem lengthCheck_of_trailing (hmin : 36 ≤ h.size.toNat) (hs : h.size.toNat < rem) (hsingle : single = true) :
    lengthCheck single rem h = some .trailing := by
  rw [lengthCheck, if_neg (Nat.not_lt.2 hmin), if_neg (Nat.lt_asymm hs), if_pos (by simp [hsingle, hs])]

theorem lengthCheck_of_fits (hmin : 36 ≤ h.size.toNat) (hle : h.size.toNat ≤ rem)
    (hend : single = true → h.size.toNat = rem) : lengthCheck single rem h = none := by
  have hshort : ¬ (single && decide (h.size.toNat < rem)) = true := by
    intro hlt
    obtain ⟨hs, hlt⟩ := (Bool.and_eq_true ..).mp hlt
    exact absurd (hend hs) (Nat.ne_of_lt (of_decide_eq_true hlt))
  rw [lengthCheck, if_neg (Nat.not_lt.2 hmin), if_neg (Nat.not_lt.2 hle), if_neg hshort]

end

namespace Machine

/-! ## NOP, the header row and the packet rows -/

/-- Settles O33: NOP writes STATUS and the phase. -/
theorem nopClearsStatusOnly : Obligations.NopClearsStatusOnly := fun s =>
  ⟨_, exec_nop s, rfl, by constructor <;> rfl, rfl, rfl, rfl⟩

/-- Settles O49: every packet row stores its record (`exec_packet`), behind those that OUTN counts. -/
theorem packetFormatsStoreTheirRecord : Obligations.PacketFormatsStoreTheirRecord := by
  intro i r s hr hlen
  refine ⟨_, exec_packet hr s, ?_, rfl, rfl, rfl, rfl, storePacket_sameButOut r s⟩
  rw [storePacket_outq, ← hlen, List.take_length]

theorem exec_hdr_of_lengthCheck_none {h : Header} {s : State}
    (hc : lengthCheck s.phase.isSingle (s.rxlen.toNat - s.cur.toNat) h = none) :
    exec (.hdr h) s = .next { s with phase := .payload s.phase.isSingle } := by
  simp only [exec_hdr, execHdr, hc]

theorem exec_hdr_of_lengthCheck_some {h : Header} {s : State} {c : FormatCause}
    (hc : lengthCheck s.phase.isSingle (s.rxlen.toNat - s.cur.toNat) h = some c) :
    exec (.hdr h) s = .next (raiseFormat ⟨c, 0⟩ s) := by
  simp only [exec_hdr, execHdr, hc]

/-- Settles O50: the header's three checks pass (`lengthCheck_of_fits`). -/
theorem headerAcceptsAFittingFrame : Obligations.HeaderAcceptsAFittingFrame := fun _ _ hmin hle hend =>
  exec_hdr_of_lengthCheck_none (lengthCheck_of_fits hmin hle hend)

/-- Settles O51: one lemma for each of the three checks. -/
theorem headerRaisesOnABadSize : Obligations.HeaderRaisesOnABadSize := fun _ _ =>
  ⟨fun hs => exec_hdr_of_lengthCheck_some (lengthCheck_of_small hs),
    fun hmin hs => exec_hdr_of_lengthCheck_some (lengthCheck_of_long hmin hs),
    fun hmin hs hsingle => exec_hdr_of_lengthCheck_some (lengthCheck_of_trailing hmin hs hsingle)⟩

/-! ## ENCODE's checks -/

section
variable {cfg : Config} {er : EncodeRequest} {e : Entry}

theorem encodeRequest_of_unknownName (he : lookupName cfg.reg er.name = none) :
    encodeRequest cfg er = .error ⟨.unknownName, 0⟩ := by
  simp only [encodeRequest, he]

theorem encodeRequest_of_not_shapeOk (he : lookupName cfg.reg er.name = some e) (hs : ¬ shapeOk e er = true) :
    encodeRequest cfg er = .error ⟨.shape, 0⟩ := by
  simp only [encodeRequest, he, if_neg hs]

theorem encodeRequest_of_hdrCheck {r : ValidationReject} (he : lookupName cfg.reg er.name = some e)
    (hs : shapeOk e er = true) (hh : hdrCheck er = some r) : encodeRequest cfg er = .error r := by
  simp only [encodeRequest, he, if_pos hs, hh]

theorem encodeRequest_of_enc_error {r : ValidationReject} (he : lookupName cfg.reg er.name = some e)
    (hs : shapeOk e er = true) (hh : hdrCheck er = none) (hb : enc cfg e.desc er.payload 36 = .error r) :
    encodeRequest cfg er = .error r := by
  simp only [encodeRequest, he, if_pos hs, hh, hb]

theorem encodeRequest_of_enc_ok {b : List Byte} (he : lookupName cfg.reg er.name = some e)
    (hs : shapeOk e er = true) (hh : hdrCheck er = none) (hb : enc cfg e.desc er.payload 36 = .ok b) :
    encodeRequest cfg er = .ok (headerBytes cfg (requestHeader cfg er e.id b.length) ++ b) := by
  simp only [encodeRequest, he, if_pos hs, hh, hb]

end

/-- Settles O34: one lemma for each path through the checks. -/
theorem encodeChecksInOrder : Obligations.EncodeChecksInOrder := by
  refine fun cfg er => ⟨encodeRequest_of_unknownName, fun e he => ⟨fun hbad => ?shape, fun ht hp => ?pass⟩⟩
  case shape =>
    refine encodeRequest_of_not_shapeOk he fun hok => ?_
    obtain ⟨ht, hp⟩ := shapeOk_spec.1 hok
    rcases hbad with ⟨t, hsome, hlen⟩ | hbad
    · exact hlen (ht t hsome)
    · exact Bool.false_ne_true (hbad.symm.trans hp)
  case pass =>
    have hs := shapeOk_spec.2 ⟨ht, hp⟩
    exact ⟨fun r => encodeRequest_of_hdrCheck he hs,
      fun hh => ⟨fun r => encodeRequest_of_enc_error he hs hh, fun b => encodeRequest_of_enc_ok he hs hh⟩⟩

theorem length_headerBytes_append (cfg : Config) (h : Header) (b : List Byte) :
    (headerBytes cfg h ++ b).length = 36 + b.length := by
  rw [List.length_append, headerBytes_length]

/-- Settles O37: the payload is within its descriptor's bound (`Entry.enc_length_le`), which leaves room for the header in
TXBUF and in `size`. -/
theorem encodedPacketFits : Obligations.EncodedPacketFits := by
  intro cfg er pkt hw h
  obtain ⟨hmin, htx⟩ := encodeRequest_length hw h
  obtain ⟨e, b, he, -, -, hb, rfl⟩ := encodeRequest_ok h
  obtain ⟨-, -, -, -, -, htxMax, hreg, -⟩ := Config.wf_spec hw
  have hlen := length_headerBytes_append cfg (requestHeader cfg er e.id b.length) b
  have h16 : 36 + b.length ≤ 65535 := by omega
  have hsize := (headerField_size (cfg := cfg) (requestHeader cfg er e.id b.length) b).trans (requestHeader_size h16)
  exact ⟨⟨e, b, he, hb, Entry.enc_length_le (hreg e (lookupName_some he).1) hb, hlen⟩, hmin, hlen ▸ h16, htx,
    hsize.trans hlen.symm⟩

/-! ## The state after ENCODE -/

theorem exec_encode_of_error {s : State} {r : ValidationReject} (hc : s.erWritten.complete = true)
    (h : encodeRequest s.cfg s.er = .error r) :
    exec .encode s = .next (raiseValidation r { s with status := statusNone }) := by
  simp only [exec_encode, execEncode, if_pos hc, h]

theorem exec_encode_of_ok {s : State} {pkt : List Byte} (hc : s.erWritten.complete = true)
    (h : encodeRequest s.cfg s.er = .ok pkt) :
    exec .encode s = .next (endCommand (writePacket pkt { s with status := statusNone })) := by
  simp only [exec_encode, execEncode, if_pos hc, h]

/-- An ENCODE that answers a next state has raised or has written the packet. -/
theorem exec_encode_next {s t : State} (h : exec .encode s = .next t) :
    (∃ r, encodeRequest s.cfg s.er = .error r ∧ t = raiseValidation r { s with status := statusNone }) ∨
    ∃ pkt, encodeRequest s.cfg s.er = .ok pkt ∧ t = endCommand (writePacket pkt { s with status := statusNone }) := by
  rw [exec_encode] at h
  rcases execEncode_cases s with ⟨-, he⟩ | ⟨-, r, hr, he⟩ | ⟨-, pkt, hp, he⟩ <;> cases he.symm.trans h
  · exact .inl ⟨r, hr, rfl⟩
  · exact .inr ⟨pkt, hp, rfl⟩

/-- TXLEN does not wrap. -/
theorem toNat_length_of_encodeRequest {cfg : Config} (hw : cfg.wf = true) {er : EncodeRequest} {pkt : List Byte}
    (h : encodeRequest cfg er = .ok pkt) : (BitVec.ofNat 16 pkt.length).toNat = pkt.length := by
  obtain ⟨-, hmax⟩ := encodeRequest_length hw h
  obtain ⟨-, -, -, -, -, htx, -⟩ := Config.wf_spec hw
  exact (BitVec.toNat_ofNat ..).trans (Nat.mod_eq_of_lt (by omega))

/-- Settles O35: ENCODE raises (`exec_encode_of_error`) or writes the packet, whose bytes stand in TXBUF alone
(`writePacket_read`). -/
theorem stateAfterEncode : Obligations.StateAfterEncode := by
  intro s hw hc
  cases h : encodeRequest s.cfg s.er with
  | error r =>
    have hexec := exec_encode_of_error hc h
    refine ⟨_, hexec, exec_encode_sameButTx hexec, rfl, nofun, fun r' hr => ?_⟩
    cases hr
    exact ⟨rfl, rfl, rfl⟩
  | ok pkt =>
    have hexec := exec_encode_of_ok hc h
    refine ⟨_, hexec, exec_encode_sameButTx hexec, rfl, fun pkt' hp => ?_, nofun⟩
    cases hp
    exact ⟨rfl, toNat_length_of_encodeRequest hw h, fun a _ => writePacket_read pkt _ a,
      fun a ha => (writePacket_read pkt _ a).trans (List.getElem?_eq_none ha)⟩

/-- Settles O38: STATUS, TXLEN and the bytes below it are those of `encodeRequest`, which reads the parameters and `ER`. -/
theorem encodeIsAFunctionOfEr : Obligations.EncodeIsAFunctionOfEr := by
  intro s u t v _ hcfg her ht hv
  have hreq : encodeRequest s.cfg s.er = encodeRequest u.cfg u.er := by rw [hcfg, her]
  rcases exec_encode_next ht with ⟨r, hr, rfl⟩ | ⟨pkt, hp, rfl⟩ <;>
    rcases exec_encode_next hv with ⟨r', hr', rfl⟩ | ⟨pkt', hp', rfl⟩
  · cases hr.symm.trans (hreq.trans hr')
    exact ⟨rfl, rfl, fun a ha => absurd ha (Nat.not_lt_zero a)⟩
  · cases hr.symm.trans (hreq.trans hp')
  · cases hp.symm.trans (hreq.trans hr')
  · cases hp.symm.trans (hreq.trans hp')
    exact ⟨rfl, rfl, fun a _ => (writePacket_read pkt _ a).trans (writePacket_read pkt _ a).symm⟩

end Machine

end Sys2Proof

/-!
The frame step and its loop (spec/43_commands.md R140 to R148): the six checks of a frame, how a loop of frame steps ends,
and with that the states after DECODE and PARSE.

A loop ends in a last frame step (`frameLoop_eq_last`), since each frame that is stored moves CUR by at least 36. What holds
before that step is an invariant of the frames stored so far: the registers count them (`Stored`), and they are the frames at
the start of the datagram (`Parsed`).
-/

namespace Sys2Proof

/-! ## The checks of a frame -/

section
variable {cfg : Config} {single : Bool} {s : List Byte}

theorem decodeFrame_of_lookupId_none (hlen : 36 ≤ s.length)
    (hc : lengthCheck single s.length (decodeHeader cfg s) = none)
    (he : lookupId cfg.reg (decodeHeader cfg s).msgType = none) :
    decodeFrame cfg single s = .error ⟨.unknownType, (decodeHeader cfg s).msgType⟩ := by
  simp only [decodeFrame, if_neg (Nat.not_lt.2 hlen), hc, he]

theorem decodeFrame_of_not_sizesOk {e : Entry} (hlen : 36 ≤ s.length)
    (hc : lengthCheck single s.length (decodeHeader cfg s) = none)
    (he : lookupId cfg.reg (decodeHeader cfg s).msgType = some e)
    (hs : sizesOk e.desc (decodeHeader cfg s).size.toNat = false) :
    decodeFrame cfg single s = .error ⟨.length, (decodeHeader cfg s).msgType⟩ := by
  simp only [decodeFrame, if_neg (Nat.not_lt.2 hlen), hc, he, hs, Bool.false_eq_true, if_false]

theorem decodeFrame_of_sizesOk {e : Entry} (hlen : 36 ≤ s.length)
    (hc : lengthCheck single s.length (decodeHeader cfg s) = none)
    (he : lookupId cfg.reg (decodeHeader cfg s).msgType = some e)
    (hs : sizesOk e.desc (decodeHeader cfg s).size.toNat = true) :
    decodeFrame cfg single s =
      .ok ⟨decodeHeader cfg s, e.name, dec e.desc ((s.take (decodeHeader cfg s).size.toNat).drop 36)⟩ := by
  simp only [decodeFrame, if_neg (Nat.not_lt.2 hlen), hc, he, hs, if_true]

end

/-- Settles O22: `size` and `type` are header fields (`toNat_ofNat_headerField`); one lemma for each check. -/
theorem frameChecksInOrder : Obligations.FrameChecksInOrder := by
  intro cfg single s size type
  have hsize : (decodeHeader cfg s).size.toNat = size := toNat_ofNat_headerField s 0 2
  rw [← hsize]
  refine ⟨fun hlen => if_pos hlen,
    fun hlen hs => decodeFrame_of_lengthCheck_some hlen (lengthCheck_of_small hs),
    fun hlen hmin hs => decodeFrame_of_lengthCheck_some hlen (lengthCheck_of_long hmin hs),
    fun hmin hs hsingle => decodeFrame_of_lengthCheck_some (hmin.trans hs.le) (lengthCheck_of_trailing hmin hs hsingle),
    fun hmin hle hend => ?fits⟩
  have hlen := hmin.trans hle
  have hc := lengthCheck_of_fits hmin hle hend
  exact ⟨decodeFrame_of_lookupId_none hlen hc,
    fun e he => ⟨decodeFrame_of_not_sizesOk hlen hc he, decodeFrame_of_sizesOk hlen hc he⟩⟩

/-- DECODE and PARSE differ in check 4 alone: a frame that one of them takes, the other takes if it ends where it must. -/
theorem decodeFrame_ok_of_ok {cfg : Config} {b c : Bool} {s : List Byte} {r : PacketRecord}
    (h : decodeFrame cfg b s = .ok r) (hend : c = true → r.hdr.size.toNat = s.length) : decodeFrame cfg c s = .ok r := by
  obtain ⟨hlen, hhdr, hmin, hle, -, e, he, hs, hname, hpayload⟩ := decodeFrame_ok h
  obtain ⟨hd, n, p⟩ := r
  simp only at hhdr hname hpayload
  subst hhdr hname hpayload
  exact decodeFrame_of_sizesOk hlen (lengthCheck_of_fits hmin hle hend) he hs

/-- A frame with bytes behind it is DECODE's F_TRAILING. -/
theorem decodeFrame_single_of_trailing {cfg : Config} {b : Bool} {s : List Byte} {r : PacketRecord}
    (h : decodeFrame cfg b s = .ok r) (hne : r.hdr.size.toNat ≠ s.length) :
    decodeFrame cfg true s = .error ⟨.trailing, 0⟩ := by
  obtain ⟨hlen, hhdr, hmin, hle, -⟩ := decodeFrame_ok h
  rw [hhdr] at hmin hle hne
  exact decodeFrame_of_lengthCheck_some hlen (lengthCheck_of_trailing hmin (Nat.lt_of_le_of_ne hle hne) rfl)

namespace Machine

/-! ## One frame step -/

theorem frameStep_ok {s : State} {r : PacketRecord} (hd : decodeFrame s.cfg s.phase.isSingle (rxRest s) = .ok r) :
    frameStep s = storePacket r s := by
  simp only [frameStep, hd]

theorem frameStep_phase_of_single {s : State} (hs : s.phase.isSingle = true) : (frameStep s).phase = .idle := by
  rcases frameStep_cases s with ⟨r, -, he⟩ | ⟨r, -, he⟩ <;> rw [he]
  · rfl
  · simp [hs]

/-- The command goes on where the frame that is stored is not the last. -/
theorem storePacket_phase_of_ne_idle {r : PacketRecord} {s : State} (h : (storePacket r s).phase ≠ .idle) :
    (storePacket r s).phase = .header false ∧ (storePacket r s).cur ≠ s.rxlen := by
  rw [storePacket_phase] at h ⊢
  split at h
  · exact absurd rfl h
  · next hlast => exact ⟨if_neg hlast, by simp_all⟩

theorem storePacket_phase_of_cur {r : PacketRecord} {s : State} (h : (storePacket r s).cur = s.rxlen) :
    (storePacket r s).phase = .idle := by
  rw [storePacket_phase, ← storePacket_cur, h, beq_self_eq_true, Bool.or_true, if_pos rfl]

/-- PARSE ends where the frame that is stored is the last. -/
theorem storePacket_cur_of_idle {r : PacketRecord} {s : State} (hs : s.phase.isSingle = false)
    (h : (storePacket r s).phase = .idle) : (storePacket r s).cur = s.rxlen := by
  rw [storePacket_phase, hs, Bool.false_or] at h
  split at h
  · next hlast => exact eq_of_beq hlast
  · cases h

/-- A frame that is stored has at least a header, and CUR does not wrap. -/
theorem storePacket_cur_toNat {s : State} {b : Bool} {r : PacketRecord} (hd : decodeFrame s.cfg b (rxRest s) = .ok r) :
    (storePacket r s).cur.toNat = s.cur.toNat + r.hdr.size.toNat ∧ 36 ≤ r.hdr.size.toNat ∧
      (storePacket r s).cur.toNat ≤ s.rxlen.toNat := by
  obtain ⟨-, -, hmin, hle, -⟩ := decodeFrame_ok hd
  rw [rxRest_length] at hle
  have hrx := s.rxlen.isLt
  have hcur : (s.cur + r.hdr.size).toNat = s.cur.toNat + r.hdr.size.toNat := BitVec.toNat_add_of_lt (by omega)
  rw [storePacket_cur]
  exact ⟨hcur, hmin, by omega⟩

/-! ## How a loop of frame steps ends -/

theorem frameLoop_add (m n : Nat) (s : State) : frameLoop (m + n) s = frameLoop n (frameLoop m s) := by
  induction m generalizing s with
  | zero => rw [Nat.zero_add, frameLoop_zero]
  | succ m ih =>
    rw [Nat.succ_add, frameLoop_succ, frameLoop_succ]
    split
    · next hp => rw [frameLoop_idle n hp]
    · exact ih _

/-- Given as many steps as frames fit the bytes that remain, and one more, the loop ends in a frame step, before which
everything holds that storing a frame keeps. -/
theorem frameLoop_eq_last {P : State → Prop}
    (keeps : ∀ u r, P u → decodeFrame u.cfg u.phase.isSingle (rxRest u) = .ok r → (storePacket r u).phase ≠ .idle →
      P (storePacket r u))
    {n : Nat} {s : State} (hP : P s) (hs : s.phase ≠ .idle) (hn : (s.rxlen.toNat - s.cur.toNat) / 36 < n) :
    ∃ u, P u ∧ frameLoop n s = frameStep u ∧ (frameStep u).phase = .idle := by
  induction n generalizing s with
  | zero => exact absurd hn (Nat.not_lt_zero _)
  | succ n ih =>
    rw [frameLoop_succ, if_neg hs]
    by_cases hidle : (frameStep s).phase = .idle
    · exact ⟨s, hP, frameLoop_idle n hidle, hidle⟩
    · rcases frameStep_cases s with ⟨r, -, he⟩ | ⟨r, hd, he⟩ <;> rw [he] at hidle ⊢
      · exact absurd rfl hidle
      · obtain ⟨hcur, hmin, hle⟩ := storePacket_cur_toNat hd
        refine ih (keeps s r hP hd hidle) hidle ?_
        rw [storePacket_rxlen, hcur]
        omega

theorem startFrames_phase_ne_idle (single : Bool) (s : State) : (startFrames single s).phase ≠ .idle := nofun

theorem frameBound_spec (single : Bool) (s : State) :
    ((startFrames single s).rxlen.toNat - (startFrames single s).cur.toNat) / 36 < frameBound s :=
  Nat.lt_succ_self _

theorem frameLoop_frameBound_phase (single : Bool) (s : State) :
    (frameLoop (frameBound s) (startFrames single s)).phase = .idle := by
  obtain ⟨u, -, he, hidle⟩ := frameLoop_eq_last (P := fun _ => True) (fun _ _ _ _ _ => trivial) trivial
    (startFrames_phase_ne_idle single s) (frameBound_spec single s)
  exact he ▸ hidle

/-- Settles O46: the loop has ended after `frameBound s` steps, and the steps beyond change nothing (`frameLoop_add`). -/
theorem frameLoopEndsWithinBound : Obligations.FrameLoopEndsWithinBound := by
  intro s single n hn
  have hidle := frameLoop_frameBound_phase single s
  have heq : frameLoop n (startFrames single s) = frameLoop (frameBound s) (startFrames single s) := by
    rw [← Nat.add_sub_cancel' hn, frameLoop_add, frameLoop_idle _ hidle]
  exact ⟨heq ▸ hidle, heq⟩

/-- Settles O52: only an ENCODE can stop (`exec_stops`), and each command ends with the phase idle. -/
theorem everyInstructionCompletes : Obligations.EveryInstructionCompletes := by
  intro i s hwritten
  refine ⟨?next, fun hi => ?idle⟩
  case next =>
    by_contra h
    obtain ⟨rfl, hc, -⟩ := exec_stops fun t ht => h ⟨t, ht⟩
    exact Bool.false_ne_true (hc.symm.trans (hwritten rfl))
  case idle =>
    simp only [List.mem_cons, List.not_mem_nil, or_false] at hi
    rcases hi with rfl | rfl | rfl | rfl
    · exact ⟨_, exec_nop s, rfl⟩
    · cases h : encodeRequest s.cfg s.er with
      | error r => exact ⟨_, exec_encode_of_error (hwritten rfl) h, rfl⟩
      | ok pkt => exact ⟨_, exec_encode_of_ok (hwritten rfl) h, rfl⟩
    · exact ⟨_, exec_decode s, frameStep_phase_of_single rfl⟩
    · exact ⟨_, exec_parse s, frameLoop_frameBound_phase false s⟩

/-! ## DECODE -/

/-- The first frame step of a command sees the whole datagram. -/
theorem rxRest_startFrames (single : Bool) (s : State) : rxRest (startFrames single s) = datagram s := rfl

theorem exec_decode_of_ok {s : State} {r : PacketRecord} (h : decodeFrame s.cfg true (datagram s) = .ok r) :
    exec .decode s = .next (storePacket r (startFrames true s)) := by
  rw [exec_decode, frameStep_ok (r := r) h]

theorem exec_decode_of_error {s : State} {r : FormatReject} (h : decodeFrame s.cfg true (datagram s) = .error r) :
    exec .decode s = .next (raiseFormat r (startFrames true s)) := by
  rw [exec_decode, frameStep_error (r := r) h]

/-- The one packet of a datagram ends it. -/
theorem storePacket_startFrames_cur {s : State} {r : PacketRecord}
    (h : decodeFrame s.cfg true (datagram s) = .ok r) (single : Bool) :
    (storePacket r (startFrames single s)).cur = s.rxlen := by
  obtain ⟨-, -, -, -, hend, -⟩ := decodeFrame_ok h
  rw [storePacket_cur, startFrames_cur]
  exact (BitVec.zero_add _).trans (BitVec.eq_of_toNat_eq ((hend rfl).trans (datagram_length s)))

/-- Settles O40: DECODE is one frame step from the cleared registers. -/
theorem stateAfterDecode : Obligations.StateAfterDecode := by
  intro s
  refine ⟨_, exec_decode s, (startFrames_sameButOut true s).trans (frameStep_sameButOut _),
    frameStep_phase_of_single rfl, fun r h => ?ok, fun r h => ?error⟩
  case ok =>
    rw [frameStep_ok (r := r) h]
    exact ⟨rfl, rfl, rfl, storePacket_startFrames_cur h true, rfl⟩
  case error =>
    rw [frameStep_error (r := r) h]
    exact ⟨rfl, rfl, rfl, rfl, rfl⟩

/-! ## The frames that a command has stored -/

/-- In the middle of a DECODE or PARSE the registers count the records stored so far, and none has wrapped. -/
structure Stored (u : State) (rs : List PacketRecord) : Prop where
  status : u.status = statusNone
  outq : u.outq = rs
  outn : u.outn.toNat = rs.length
  fcnt : u.fcnt = u.outn
  cur : u.cur.toNat = sizeSum rs
  headers : 36 * rs.length ≤ sizeSum rs
  inside : u.cur.toNat ≤ u.rxlen.toNat

theorem stored_startFrames (single : Bool) (s : State) : Stored (startFrames single s) [] where
  status := rfl
  outq := rfl
  outn := rfl
  fcnt := rfl
  cur := rfl
  headers := Nat.le_refl 0
  inside := Nat.zero_le _

theorem Stored.storePacket {u : State} {rs : List PacketRecord} (h : Stored u rs) {b : Bool} {r : PacketRecord}
    (hd : decodeFrame u.cfg b (rxRest u) = .ok r) : Stored (storePacket r u) (rs ++ [r]) := by
  obtain ⟨hcur, hmin, hle⟩ := storePacket_cur_toNat hd
  have hrx := u.rxlen.isLt
  have hroom := h.headers
  have hsum := h.cur
  have houtn : (u.outn + 1).toNat = u.outn.toNat + 1 := BitVec.toNat_add_of_lt (by
    rw [h.outn]
    show rs.length + 1 < 2 ^ 16
    omega)
  exact
    { status := h.status
      outq := by rw [storePacket_outq, h.outn, h.outq, List.take_length]
      outn := by rw [storePacket_outn, houtn, h.outn, List.length_append]; rfl
      fcnt := by rw [storePacket_fcnt, storePacket_outn, h.fcnt]
      cur := by rw [hcur, hsum, sizeSum_append]
      headers := by rw [sizeSum_append, List.length_append, List.length_singleton]; omega
      inside := hle }

/-! ## PARSE -/

theorem Frames.snoc {cfg : Config} {s rest : List Byte} {rs : List PacketRecord} (h : Frames cfg s rs rest)
    {r : PacketRecord} (hr : decodeFrame cfg false rest = .ok r) :
    Frames cfg s (rs ++ [r]) (rest.drop r.hdr.size.toNat) := by
  induction h with
  | none s => exact .frame hr (.none _)
  | frame hq _ ih => exact .frame hq (ih hr)

/-- In the middle of a PARSE of `s`: the records stored so far are the frames at the start of the datagram. -/
structure Parsed (s u : State) (rs : List PacketRecord) : Prop extends Stored u rs where
  same : SameButOut s u
  phase : u.phase = .header false
  frames : Frames s.cfg (datagram s) rs (rxRest u)
  more : rs ≠ [] → u.cur ≠ u.rxlen

/-- What a frame that is stored leaves of the datagram. -/
theorem rxRest_storePacket {u : State} (hw : Memory.wf u.rxbuf) {b : Bool} {r : PacketRecord}
    (hd : decodeFrame u.cfg b (rxRest u) = .ok r) : rxRest (storePacket r u) = (rxRest u).drop r.hdr.size.toNat := by
  rw [rxRest_eq_drop (s := storePacket r u) hw, rxRest_eq_drop hw, List.drop_drop, (storePacket_cur_toNat hd).1]
  rfl

theorem Parsed.frames_storePacket {s u : State} {rs : List PacketRecord} (hw : Memory.wf s.rxbuf) (h : Parsed s u rs)
    {r : PacketRecord} (hd : decodeFrame u.cfg false (rxRest u) = .ok r) :
    Frames s.cfg (datagram s) (rs ++ [r]) (rxRest (Machine.storePacket r u)) := by
  rw [rxRest_storePacket (h.same.rxbuf.symm ▸ hw) hd]
  exact h.frames.snoc (h.same.cfg ▸ hd)

theorem Parsed.storePacket {s u : State} {rs : List PacketRecord} (hw : Memory.wf s.rxbuf) (h : Parsed s u rs)
    {r : PacketRecord} (hd : decodeFrame u.cfg false (rxRest u) = .ok r)
    (hphase : (Machine.storePacket r u).phase ≠ .idle) : Parsed s (Machine.storePacket r u) (rs ++ [r]) :=
  { h.toStored.storePacket hd with
    same := h.same.trans (storePacket_sameButOut r u)
    phase := (storePacket_phase_of_ne_idle hphase).1
    frames := h.frames_storePacket hw hd
    more := fun _ => (storePacket_phase_of_ne_idle hphase).2 }

theorem parsed_startFrames (s : State) : Parsed s (startFrames false s) [] :=
  { stored_startFrames false s with
    same := startFrames_sameButOut false s
    phase := rfl
    frames := .none _
    more := fun h => absurd rfl h }

/-- Before another frame there are bytes. -/
theorem Parsed.rxRest_ne_nil {s u : State} {rs : List PacketRecord} (h : Parsed s u rs) (hrs : rs ≠ []) :
    rxRest u ≠ [] := by
  intro hnil
  have hlen := congrArg List.length hnil
  rw [rxRest_length, List.length_nil] at hlen
  exact h.more hrs (BitVec.eq_of_toNat_eq (Nat.le_antisymm h.inside (Nat.le_of_sub_eq_zero hlen)))

/-- Settles O41: PARSE ends in a last frame step (`frameLoop_eq_last`) after frames that are `Parsed`; that step raises, or
stores the frame that ends the datagram. -/
theorem stateAfterParse : Obligations.StateAfterParse := by
  intro s hw
  obtain ⟨u, ⟨rs, h⟩, hlast, hidle⟩ := frameLoop_eq_last (P := fun u => ∃ rs, Parsed s u rs)
    (fun u r ⟨rs, h⟩ hd hp => ⟨_, h.storePacket hw (by rwa [h.phase] at hd) hp⟩) ⟨[], parsed_startFrames s⟩
    (startFrames_phase_ne_idle false s) (frameBound_spec false s)
  refine ⟨frameStep u, hlast ▸ exec_parse s, h.same.trans (frameStep_sameButOut u), hidle, ?_⟩
  rcases frameStep_cases u with ⟨r, hd, he⟩ | ⟨r, hd, he⟩ <;> rw [he] at hidle ⊢ <;> rw [h.phase] at hd
  · refine .inr ⟨rs, rxRest u, r, h.frames, h.rxRest_ne_nil, h.same.cfg ▸ hd, rfl, rfl, rfl, ?_, h.cur⟩
    rw [raiseFormat_fcnt, h.fcnt, h.outn]
  · have hstored := h.toStored.storePacket hd
    have hcur := storePacket_cur_of_idle (by rw [h.phase]; rfl) hidle
    have hrest : rxRest (storePacket r u) = [] := by
      rw [← List.length_eq_zero_iff, rxRest_length, hcur, storePacket_rxlen, Nat.sub_self]
    refine .inl ⟨rs ++ [r], by simp, hrest ▸ h.frames_storePacket hw hd, hstored.status, hstored.outq, hstored.outn,
      hstored.fcnt, hcur.trans h.same.rxlen, ?_⟩
    rw [← hstored.cur, hcur, h.same.rxlen]

/-! ## PARSE by its first frame -/

theorem statusFormat_ne_none (c : FormatCause) (off info : Half) : statusFormat c off info ≠ statusNone :=
  fun h => nomatch congrArg Status.err h

theorem exec_parse_eq (s : State) :
    exec .parse s = .next (frameLoop (s.rxlen.toNat / 36) (frameStep (startFrames false s))) := rfl

theorem exec_parse_of_error {s : State} {r : FormatReject} (h : decodeFrame s.cfg false (datagram s) = .error r) :
    exec .parse s = .next (raiseFormat r (startFrames false s)) := by
  rw [exec_parse_eq, frameStep_error (r := r) h, frameLoop_idle _ rfl]

theorem exec_parse_of_single {s : State} {r : PacketRecord} (h : decodeFrame s.cfg true (datagram s) = .ok r) :
    exec .parse s = .next (storePacket r (startFrames false s)) := by
  have hfirst := decodeFrame_ok_of_ok (c := false) h nofun
  have hidle : (storePacket r (startFrames false s)).phase = .idle :=
    storePacket_phase_of_cur (storePacket_startFrames_cur h false)
  rw [exec_parse_eq, frameStep_ok (r := r) hfirst, frameLoop_idle _ hidle]

/-- Behind a first frame that does not end the datagram PARSE raises or stores another. -/
theorem exec_parse_of_trailing {s : State} {r : PacketRecord} (h : decodeFrame s.cfg false (datagram s) = .ok r)
    (hne : r.hdr.size.toNat ≠ (datagram s).length) :
    ∃ p, exec .parse s = .next p ∧ (p.status ≠ statusNone ∨ 2 ≤ p.outn.toNat) := by
  have hd : decodeFrame (startFrames false s).cfg false (rxRest (startFrames false s)) = .ok r := h
  obtain ⟨hcur, hmin, hle⟩ := storePacket_cur_toNat hd
  have hphase : (storePacket r (startFrames false s)).phase ≠ .idle := by
    intro hidle
    have hend := congrArg BitVec.toNat (storePacket_cur_of_idle rfl hidle)
    rw [hcur] at hend
    exact hne ((Nat.zero_add _).symm.trans (hend.trans (datagram_length s).symm))
  obtain ⟨u, ⟨rs, hrs, hstored⟩, hlast, -⟩ := frameLoop_eq_last
    (P := fun u => ∃ rs, rs ≠ [] ∧ Stored u rs) (n := s.rxlen.toNat / 36)
    (fun u q ⟨rs, _, hstored⟩ hd _ => ⟨_, by simp, hstored.storePacket hd⟩)
    ⟨[r], by simp, (stored_startFrames false s).storePacket hd⟩ hphase (by
      rw [hcur] at hle ⊢
      simp only [startFrames_cur, startFrames_rxlen, storePacket_rxlen] at hle ⊢
      omega)
  refine ⟨frameStep u, ?_, ?_⟩
  · rw [exec_parse_eq, frameStep_ok (r := r) h, hlast]
  · rcases frameStep_cases u with ⟨q, -, he⟩ | ⟨q, hq, he⟩ <;> rw [he]
    · exact .inl (statusFormat_ne_none _ _ _)
    · refine .inr ?_
      have hpos := List.length_pos_of_ne_nil hrs
      rw [(hstored.storePacket hq).outn, List.length_append, List.length_singleton]
      omega

/-- Settles O42, by the first frame: it is refused, or ends the datagram, or has bytes behind it. -/
theorem parseAndDecodeAgreeOnOnePacket : Obligations.ParseAndDecodeAgreeOnOnePacket := by
  intro s
  cases h : decodeFrame s.cfg false (datagram s) with
  | error r =>
    cases hsingle : decodeFrame s.cfg true (datagram s) with
    | ok q => cases h.symm.trans (decodeFrame_ok_of_ok hsingle nofun)
    | error q =>
      have hd := statusFormat_ne_none q.cause 0 q.info
      have hp := statusFormat_ne_none r.cause 0 r.info
      exact ⟨_, _, exec_decode_of_error hsingle, exec_parse_of_error h,
        fun _ => ⟨fun ⟨hs, _⟩ => absurd hs hd, fun ⟨hs, _⟩ => absurd hs hp⟩, fun _ => .inl hp⟩
  | ok r =>
    by_cases hend : r.hdr.size.toNat = (datagram s).length
    · have hsingle := decodeFrame_ok_of_ok (c := true) h fun _ => hend
      exact ⟨_, _, exec_decode_of_ok hsingle, exec_parse_of_single hsingle,
        fun _ => ⟨fun ⟨hs, hq⟩ => ⟨hs, rfl, hq⟩, fun ⟨hs, _, hq⟩ => ⟨hs, hq⟩⟩, fun hs => absurd rfl hs⟩
    · obtain ⟨p, hparse, hp⟩ := exec_parse_of_trailing h hend
      have hd := statusFormat_ne_none .trailing 0 0
      refine ⟨_, p, exec_decode_of_error (decodeFrame_single_of_trailing h hend), hparse,
        fun _ => ⟨fun ⟨hs, _⟩ => absurd hs hd, fun ⟨hs, hn, _⟩ => ?_⟩, fun _ => hp.imp_right fun hn => ⟨hn, rfl⟩⟩
      rcases hp with hp | hp
      · exact absurd hs hp
      · rw [hn] at hp
        exact absurd hp (by decide)

end Machine

end Sys2Proof

/-!
The round trip of a packet (spec/43_commands.md R147): what ENCODE wrote, copied to RXBUF, comes back from DECODE and from
PARSE as the request.
-/

namespace Sys2Proof

open Machine

/-- The frame step reads back the packet that ENCODE built (spec/40_header.md R73, spec/41_field_codecs.md R102). -/
theorem decodeFrame_encodeRequest {cfg : Config} (hw : cfg.wf = true) {er : EncodeRequest} {pkt : List Byte}
    (h : encodeRequest cfg er = .ok pkt) (single : Bool) :
    ∃ e plen, lookupName cfg.reg er.name = some e ∧ hdrCheck er = none ∧ (∀ t, er.target = some t → t.length = 6) ∧
      pkt.length = 36 + plen ∧ 36 + plen ≤ 65535 ∧
      decodeFrame cfg single pkt = .ok ⟨requestHeader cfg er e.id plen, er.name, canon e.desc er.payload⟩ := by
  obtain ⟨hbits, -, hk, -, -, htx, hreg, hkeys⟩ := Config.wf_spec hw
  obtain ⟨-, hmax⟩ := encodeRequest_length hw h
  obtain ⟨e, b, he, hshape, hcheck, hb, rfl⟩ := encodeRequest_ok h
  obtain ⟨hmem, hname⟩ := lookupName_some he
  obtain ⟨htarget, hpayload⟩ := shapeOk_spec.1 hshape
  have hlen := length_headerBytes_append cfg (requestHeader cfg er e.id b.length) b
  have h16 : 36 + b.length ≤ 65535 := by omega
  have hsize : (requestHeader cfg er e.id b.length).size.toNat = 36 + b.length := requestHeader_size h16
  refine ⟨e, b.length, he, hcheck, htarget, hlen, h16, ?_⟩
  rw [decodeFrame_of_checks (decodeHeader_headerBytes hbits _ b) (hlen.trans hsize.symm) (lookupId_of_mem hkeys hmem)
    (hsize ▸ Entry.sizesOk_enc (hreg e hmem) hb), List.drop_left' (headerBytes_length cfg _),
    Entry.dec_enc hk (hreg e hmem) hpayload hb, hname]

namespace Machine

/-- A datagram is known by its bytes. -/
theorem datagram_eq_of_bytes {u : State} (hw : Memory.wf u.rxbuf) {pkt : List Byte} (hlen : u.rxlen.toNat = pkt.length)
    (hbytes : ∀ a, a < pkt.length → pkt[a]? = some (rxByte u a)) : datagram u = pkt := by
  refine List.ext_getElem? fun a => ?_
  by_cases ha : a < pkt.length
  · rw [datagram, memRead_getElem? hw _ _ _ (hlen ▸ ha), Nat.zero_add, hbytes a ha]
  · rw [List.getElem?_eq_none (Nat.not_lt.1 ha), List.getElem?_eq_none (by rw [datagram_length]; omega)]

/-- DECODE and PARSE of a single packet end alike. -/
theorem exec_receive_of_single {u : State} {r : PacketRecord} (h : decodeFrame u.cfg true (datagram u) = .ok r)
    {c : Instr} (hc : c = .decode ∨ c = .parse) :
    ∃ v, exec c u = .next v ∧ v.status = statusNone ∧ v.outn = 1 ∧ v.outq = [r] := by
  rcases hc with rfl | rfl
  · exact ⟨_, exec_decode_of_ok h, rfl, rfl, rfl⟩
  · exact ⟨_, exec_parse_of_single h, rfl, rfl, rfl⟩

theorem statusValidation_ne_none (c : ValidationCause) (off : Nat) : statusValidation c off ≠ statusNone :=
  fun h => nomatch congrArg Status.err h

/-- Settles O43: the datagram is the packet (`datagram_eq_of_bytes`), the frame step reads it back
(`decodeFrame_encodeRequest`), and the header that was built holds the operands (`headerRoundTrip`). -/
theorem packetRoundTrip : Obligations.PacketRoundTrip := by
  intro s t u hw ht hstatus hcfg hwf hrxlen hbytes c hc
  rcases exec_encode_next ht with ⟨r, -, rfl⟩ | ⟨pkt, hpkt, rfl⟩
  · exact absurd hstatus (statusValidation_ne_none _ _)
  have htxlen := toNat_length_of_encodeRequest hw hpkt
  simp only [endCommand_txlen, writePacket_txlen, endCommand_txbuf, writePacket_read, htxlen] at hrxlen hbytes ⊢
  have hdatagram : datagram u = pkt := datagram_eq_of_bytes hwf (hrxlen ▸ htxlen) hbytes
  obtain ⟨e, plen, he, hcheck, htarget, hlen, h16, hdecode⟩ := decodeFrame_encodeRequest hw hpkt true
  obtain ⟨v, hexec, hnone, houtn, houtq⟩ :=
    exec_receive_of_single (u := u) (by rw [hcfg, hdatagram]; exact hdecode) hc
  obtain ⟨hbits, -⟩ := Config.wf_spec hw
  have hfields := headerRoundTrip s.cfg s.er e.id plen [] hbits hcheck h16 htarget
  rw [decodeHeader_headerBytes hbits] at hfields
  obtain ⟨hsize, hprotocol, haddressable, htagged, horigin, hsource, hmac, hack, hres, hseq, htype⟩ := hfields
  exact ⟨v, _, e, hexec, hnone, houtn, houtq, he, rfl, rfl, hsource, hmac, htagged, hack, hres, hseq,
    BitVec.eq_of_toNat_eq (hsize.trans (hlen.symm.trans htxlen.symm)), htype, hprotocol, haddressable, horigin⟩

end Machine

end Sys2Proof

/-!
The entry of the two exceptions (spec/60_exceptions.md R161, R162, R166, R167): what a command that raises writes, with the
code of each cause.
-/

namespace Sys2Proof.Machine

/-- R161's table of codes. -/
theorem mem_formatCodes_iff {c : FormatCause} {code : BitVec 8} :
    (c, code) ∈ [(FormatCause.short, (0x01 : BitVec 8)), (.sizeSmall, 0x02), (.trunc, 0x03), (.trailing, 0x04),
      (.unknownType, 0x05), (.length, 0x06)] ↔ formatCode c = code := by
  cases c <;> simp [formatCode, eq_comm]

/-- R162's table of codes. -/
theorem mem_validationCodes_iff {c : ValidationCause} {code : BitVec 8} :
    (c, code) ∈ [(ValidationCause.unknownName, (0x11 : BitVec 8)), (.shape, 0x12), (.range, 0x13), (.stringLen, 0x14),
      (.stringNul, 0x15), (.arrayLen, 0x16)] ↔ validationCode c = code := by
  cases c <;> simp [validationCode, eq_comm]

/-- Settles O36: ENCODE on a request that is refused is `raiseValidation`, and CAUSE is the code of R162's table. -/
theorem raisingValidationError : Obligations.RaisingValidationError := by
  intro s r code hc hr hcode
  have hexec := exec_encode_of_error hc hr
  exact ⟨_, hexec, rfl, mem_validationCodes_iff.1 hcode, rfl, rfl, rfl, rfl, exec_encode_sameButTx hexec⟩

/-- Settles O45: the frame step on a frame that is refused is `raiseFormat`, and CAUSE is the code of R161's table. The phase
plays no part: each frame step that refuses raises alike. -/
theorem raisingFormatError : Obligations.RaisingFormatError := by
  intro s r code _ hr hcode
  rw [frameStep_error hr]
  exact ⟨rfl, mem_formatCodes_iff.1 hcode, rfl, rfl, rfl, rfl, rfl, rfl, raiseFormat_sameButOut r s⟩

end Sys2Proof.Machine

/-!
Reset, the host's reads, and the one hazard of ENCODE (spec/70_reset_and_hazards.md R185, R187, R188, R193,
spec/20_memory.md R36).
-/

namespace Sys2Proof.Machine

/-! ## The reset event -/

/-- R187: an idle block whose host has no action left stays as it is. -/
theorem step_of_inbox_nil {s : State} (hw : s.cfg.wf = true) (hp : s.phase = .idle) (hi : s.inbox = []) :
    step s = .next s := by
  rw [step_idle hw hp, idleStep, hi]

/-- Settles O2: the block takes the action `.reset`; the reset state keeps the parameters and is idle, so `step_of_inbox_nil`
applies to it. -/
theorem resetEventStartsNothing : Obligations.ResetEventStartsNothing := by
  intro s rest hw hp hi
  exact ⟨_, step_action hw hp hi, rfl,
    fun hrest => step_of_inbox_nil hw (resetWith_phase ..) ((resetWith_inbox ..).trans hrest)⟩

/-! ## The host's reads -/

/-- A host read of the index `k`, allowed below the valid length `n`, as each read of `hostAct` is. -/
theorem guardedRead_spec {s t : State} {k n : Nat} {r : Refusal}
    (h : step s = if k < n then .next t else .refused r) :
    (k < n → step s = .next t) ∧ (n ≤ k → step s = .refused r) :=
  ⟨fun hlt => h.trans (if_pos hlt), fun hle => h.trans (if_neg (Nat.not_lt.2 hle))⟩

/-- Settles O7: the block takes the action, a read guarded by TXLEN, OUTN or RXLEN. -/
theorem hostReadsOnlyValidResults : Obligations.HostReadsOnlyValidResults := by
  intro s rest k hw hp
  refine ⟨fun hi => ?tx, fun hi => ?outq, fun hi => ?rx⟩ <;> exact guardedRead_spec (step_action hw hp hi)

/-! ## ENCODE and the fields of `ER` -/

theorem ErWritten.complete_eq_false_iff {w : ErWritten} :
    w.complete = false ↔ w.name = false ∨ w.source = false ∨ w.target = false ∨ w.tagged = false ∨
      w.ackRequired = false ∨ w.resRequired = false ∨ w.sequence = false ∨ w.payload = false := by
  simp only [ErWritten.complete, Bool.and_eq_false_iff, or_assoc]

theorem exec_encode_of_not_complete {s : State} (hc : s.erWritten.complete = false) :
    exec .encode s = .refused .erUnwritten := by
  rw [exec_encode, execEncode, hc, if_neg Bool.false_ne_true]

/-- Raising a cause is completing too. -/
theorem exec_encode_of_complete {s : State} (hc : s.erWritten.complete = true) : ∃ t, exec .encode s = .next t := by
  cases h : encodeRequest s.cfg s.er with
  | error r => exact ⟨_, exec_encode_of_error hc h⟩
  | ok pkt => exact ⟨_, exec_encode_of_ok hc h⟩

/-- Settles O39: the refusal by `ErWritten.complete_eq_false_iff`; each of the eight writes marks its own field and leaves the
marks of the others. -/
theorem encodeNeedsEveryFieldWritten : Obligations.EncodeNeedsEveryFieldWritten := by
  refine fun s => ⟨fun hunwritten => ?refused, fun hall => ?completes, fun _ _ _ _ _ _ _ _ => rfl⟩
  case refused => exact exec_encode_of_not_complete (ErWritten.complete_eq_false_iff.2 hunwritten)
  case completes => exact exec_encode_of_complete (hall ▸ rfl)

end Sys2Proof.Machine
